-- ==== Sys2Proof/Word.lean ====
section
/-! DEFINITION. The two word types of StegoCodec (00_scope.md R9, R10): a byte, which is also one colour channel,
and the 32-bit word of registers, command words and pixels. Every value is unsigned (R10). -/

namespace Sys2Proof

/-- An 8-bit value: a byte of a byte buffer, or one channel of a pixel (R9). -/
abbrev Byte := BitVec 8

/-- A 32-bit value: a register (R20), a command word (R80) or a pixel word (R32). -/
abbrev Word := BitVec 32

end Sys2Proof
end

