-- ==== Sys2Proof/Config.lean ====
section
/-! DEFINITION. The implementation parameters of StegoCodec (00_scope.md R8; 20_memory.md R53). The spec fixes none
of them and says that a model takes each one as an argument: they are a plain record, held in the state, which no
step changes (log entry 1). -/

namespace Sys2Proof

/-- The parameters of R8 that are not derived from others, and PLATFORM_BASE of R53. -/
structure Config where
  /-- P_MAX: capacity of PBUF in bytes. -/
  pMax : Nat
  /-- K_MAX: capacity of KBUF in bytes. -/
  kMax : Nat
  /-- PIX_MAX: capacity of each of SRC and DST in pixels. -/
  pixMax : Nat
  /-- O_MAX: capacity of OBUF in bytes. -/
  oMax : Nat
  /-- PLATFORM_BASE: where the block's address map starts in the platform's (R53). -/
  platformBase : Word
  deriving DecidableEq, Repr

/-- W_MAX = P_MAX + 3 (R8). -/
def Config.wMax (c : Config) : Nat := c.pMax + 3

/-- B_MAX = 8 × W_MAX (R8). -/
def Config.bMax (c : Config) : Nat := 8 * c.wMax

end Sys2Proof
end

