-- ==== Sys2Proof/Syntax.lean ====
section
/-! DEFINITION. The twelve commands of StegoCodec (30_encoding.md R82). A command has no operand field: its
operands are fixed registers and buffers (R83), and there are no immediates (R84). -/

namespace Sys2Proof

/-- One constructor per row of spec/opcode_table.json. `show_` is SHOW (`show` is a word of Lean). -/
inductive Instr where
  /-- NOP, 46_control.md R230. -/
  | nop
  /-- XOR, 40_xor_cipher.md R105. -/
  | xor
  /-- FRAME, 41_frame_codec.md R125. -/
  | frame
  /-- UNFRAME, 41_frame_codec.md R131. -/
  | unframe
  /-- PACK, 42_bit_packer.md R145. -/
  | pack
  /-- UNPACK, 42_bit_packer.md R150. -/
  | unpack
  /-- ENCODE, 43_pixel_encoder.md R165. -/
  | encode
  /-- DECODE, 44_pixel_decoder.md R190. -/
  | decode
  /-- MOVE, 46_control.md R233. -/
  | move
  /-- COPY, 46_control.md R236. -/
  | copy
  /-- HIDE, 45_composite.md R210. -/
  | hide
  /-- SHOW, 45_composite.md R215. -/
  | show_
  deriving DecidableEq, Repr

end Sys2Proof
end

