-- ==== Sys2Proof/WellFormed.lean ====
section
/-! DEFINITION. What is well formed: a command word (30_encoding.md R80 to R82), an instruction, and a choice of the
implementation parameters (00_scope.md R8). -/

namespace Sys2Proof

/-- The twelve assigned opcodes of R82. -/
def assignedOpcodes : List Byte :=
  [0x00#8, 0x01#8, 0x02#8, 0x03#8, 0x04#8, 0x05#8, 0x06#8, 0x07#8, 0x08#8, 0x09#8, 0x10#8, 0x11#8]

/-- R81: a command word is legal exactly when RSV (bits 31:8, R80) is 0 and OP (bits 7:0) is one of the twelve
opcodes. -/
abbrev LegalWord (w : Word) : Prop := w.extractLsb' 8 24 = 0#24 ∧ w.extractLsb' 0 8 ∈ assignedOpcodes

/-- A command has no operands (R83, R84), so every term of `Instr` is well formed. -/
abbrev Instr.WellFormed (_ : Instr) : Prop := True

/-- The constraints R8 puts on the parameters. -/
abbrev Config.Valid (c : Config) : Prop :=
  c.pMax ≤ 2 ^ 21 - 3
    ∧ (1 ≤ c.kMax ∧ c.kMax ≤ 2 ^ 24)
    ∧ c.pixMax ≤ 2 ^ 24
    ∧ (max c.wMax (c.pixMax / 8) ≤ c.oMax ∧ c.oMax ≤ 2 ^ 24)

end Sys2Proof
end

