-- ==== Sys2Proof/Decode.lean ====
section
/-! DEFINITION. Decoding and encoding of command words (30_encoding.md R80 to R87). Decoding is total: every 32-bit
word is one legal command or is refused with a named reason, and the engine completes a refused word with
ERR = ILLEGAL (R81, R85). -/

namespace Sys2Proof

/-- The opcode field OP, bits 7:0 of a command word (R80). -/
def opField (w : Word) : Byte := w.extractLsb' 0 8

/-- The reserved field RSV, bits 31:8 of a command word (R80). -/
def rsvField (w : Word) : BitVec 24 := w.extractLsb' 8 24

/-- Why a command word is illegal (R85). -/
inductive DecodeError where
  /-- Bits 31:8 are not all zero. -/
  | reservedBits
  /-- Bits 31:8 are zero and bits 7:0 are no assigned opcode. -/
  | unassignedOpcode (op : Byte)
  deriving DecidableEq, Repr

/-- The opcode map, row by row (R82). -/
def opcodeMap : List (Byte × Instr) :=
  [(0x00#8, .nop), (0x01#8, .xor), (0x02#8, .frame), (0x03#8, .unframe), (0x04#8, .pack), (0x05#8, .unpack),
   (0x06#8, .encode), (0x07#8, .decode), (0x08#8, .move), (0x09#8, .copy), (0x10#8, .hide), (0x11#8, .show_)]

/-- R81: the command a word stands for, or why it is illegal. -/
def decode (w : Word) : Except DecodeError Instr :=
  if rsvField w ≠ 0 then .error .reservedBits
  else
    match opcodeMap.lookup (opField w) with
    | some i => .ok i
    | none => .error (.unassignedOpcode (opField w))

/-- The word of each command, from R82's second column. -/
def encode : Instr → Word
  | .nop => 0x00000000#32
  | .xor => 0x00000001#32
  | .frame => 0x00000002#32
  | .unframe => 0x00000003#32
  | .pack => 0x00000004#32
  | .unpack => 0x00000005#32
  | .encode => 0x00000006#32
  | .decode => 0x00000007#32
  | .move => 0x00000008#32
  | .copy => 0x00000009#32
  | .hide => 0x00000010#32
  | .show_ => 0x00000011#32

/-- The command word whose low `nbits` bits are those of `w` and whose other bits are zero. A command is one 32-bit
register write, so bit 0 of the table is bit 0 of the word (R80). -/
def tableWord (nbits w : Nat) : Word := BitVec.ofNat 32 (w % 2 ^ nbits)

/-- The instruction this decoder reads from a word numbered as spec/opcode_table.json numbers it. -/
def decodeTableWord (nbits w : Nat) : Option Instr :=
  match decode (tableWord nbits w) with
  | .ok i => some i
  | .error _ => none

end Sys2Proof
end

