-- ==== Sys2Proof/Machine/Params.lean ====
section
/-! DEFINITION. The parameters `State.reset` is built with (log entry 1). -/

namespace Sys2Proof.Machine

/-- DESIGN CHOICE (log entry 1): the spec leaves the parameters open (00_scope.md R8, 92_eei_decisions.md D40, D42).
These are the largest capacities R8 allows, and PLATFORM_BASE = 0 as in every example of the spec (R53). -/
def defaultConfig : Config :=
  { pMax := 2 ^ 21 - 3, kMax := 2 ^ 24, pixMax := 2 ^ 24, oMax := 2 ^ 24, platformBase := 0 }

end Sys2Proof.Machine
end

