-- ==== Sys2Proof/Machine/State.lean ====
section
/-! DEFINITION. Everything the spec gives the machine (10_state.md R20 to R36), as plain data, with the three outcomes'
reasons and the state after reset (70_reset_and_hazards.md R280 to R284). -/

namespace Sys2Proof.Machine

/-- The seven buffers (R31). -/
inductive Space where
  | pbuf | kbuf | wbuf | bbuf | obuf | src | dst
  deriving DecidableEq, Repr

/-- The error codes of STATUS.ERR (60_exceptions.md R250). Codes 7 to 15 are never written. -/
inductive ErrCode where
  | none | invalidKey | capacity | incomplete | illegal | length | bitAlign
  deriving DecidableEq, Repr

/-- The values of STATUS.DSTATE (R23; 44_pixel_decoder.md R181). `none` is no decoder state: it says that no scan
belongs to the last accepted command. -/
inductive DState where
  | none | scanning | done | incomplete
  deriving DecidableEq, Repr

/-- The fields of STATUS that are stored (R23). BUSY is read off the sequencer (R28; log entry 3); bits 31:18 are
reserved and read as 0. -/
structure Status where
  done : Bool
  found : Bool
  ovr : Bool
  err : ErrCode
  lastop : Byte
  dstate : DState
  deriving DecidableEq, Repr

/-- STATUS after reset: 0x0000_0000 (R280). -/
def Status.reset : Status :=
  { done := false, found := false, ovr := false, err := .none, lastop := 0, dstate := .none }

/-- The sequencer (R28), which holds the word of the running command: the word the accepting CMD write latched
(20_memory.md R70). -/
inductive Sequencer where
  | idle
  | busy (word : Word)
  deriving DecidableEq, Repr

/-- The PixelDecoder scan state (R34): cursor, bit accumulator, bit count, bytes assembled so far. -/
structure Scan where
  x : Nat
  y : Nat
  acc : Byte
  nb : Nat
  bytes : List Byte
  deriving DecidableEq, Repr

/-- The width of a host access (20_memory.md R54 to R57). -/
inductive Width where
  | w8 | w16 | w32
  deriving DecidableEq, Repr

/-- One host access on the bus: a 32-bit byte address (R50) and, for a write, the data in its low bits. -/
inductive Access where
  | read (width : Width) (addr : Word)
  | write (width : Width) (addr : Word) (data : Word)
  deriving DecidableEq, Repr

/-- What happens next outside the engine's own rules: a host access, RST, or a turn the schedule gives the engine
(70_reset_and_hazards.md R291 to R293; log entry 4). -/
inductive Input where
  /-- The host makes one bus access. -/
  | access (a : Access)
  /-- The engine completes the running command (R291). -/
  | engine
  /-- A running DECODE or SHOW starts its scan, or the scan advances by one pixel (44_pixel_decoder.md R182, R183). -/
  | scan
  /-- RST is asserted and released (70 R283). -/
  | rst
  deriving DecidableEq, Repr

/-- What the bus last gave back to the host (70 R293; log entry 15). -/
inductive Reply where
  /-- No access since reset. -/
  | nothing
  /-- A write was taken. -/
  | written
  /-- The data of an 8-bit read. -/
  | data8 (v : Byte)
  /-- The data of a 32-bit read. -/
  | data32 (v : Word)
  deriving DecidableEq, Repr

/-- The contents of the seven buffers: (offset from PLATFORM_BASE, byte) pairs in the address map of 20_memory.md R52,
addresses strictly rising. An address that is not listed is unwritten (R33): no value can be read there. -/
abbrev Memory := List Host.Cell

/-- The two ways a host can break the access rules (60_exceptions.md R263). -/
inductive HostFaultKind where
  /-- A refused width or alignment, or an out-of-range or unmapped address (20_memory.md R59). -/
  | badAccess
  /-- An access other than a STATUS read or a CMD write while BUSY (20_memory.md R60). -/
  | accessWhileBusy
  deriving DecidableEq, Repr

/-- Why the model stops. The hardware does not stop in any of these cases; the spec tells the model to (R262, R263). -/
inductive Fault where
  /-- A command or a host read reads an element nothing has written since reset (10_state.md R33, 60_exceptions.md
  R262). Raised by every command that reads a buffer, and by host reads. Safe: the hardware goes on with a value the
  spec leaves open. -/
  | unwrittenRead (space : Space) (index : Nat)
  /-- The host broke the access rules (R263). Raised by host accesses only, never by a command. Safe: for BadAccess the
  hardware answers with a bus error and changes nothing, for AccessWhileBusy it has no defined result. -/
  | hostFault (kind : HostFaultKind) (addr : Word) (width : Width)
  deriving DecidableEq, Repr

/-- Why the model gives an instruction no meaning. -/
inductive Refusal where
  /-- The instruction has no meaning yet. Raised by an arm of exec only; at present by none. Safe. -/
  | notModelled (mnemonic : String)
  deriving DecidableEq, Repr

/-- The state of the machine. -/
structure State where
  /-- The implementation parameters (00_scope.md R8), which no step changes. -/
  cfg : Config
  /-- The sequencer (R28). -/
  seq : Sequencer
  /-- STATUS (R23), but for BUSY. -/
  status : Status
  /-- WIDTH (R25). -/
  width : Word
  /-- HEIGHT (R25). -/
  height : Word
  /-- PLEN (R26). -/
  plen : Word
  /-- KLEN (R26). -/
  klen : Word
  /-- WLEN (R26). -/
  wlen : Word
  /-- BLEN (R26). -/
  blen : Word
  /-- OLEN (R26). -/
  olen : Word
  /-- The seven buffers (R31, R33). -/
  mem : Memory
  /-- The decoder's scan state (R34); there is none outside a scan (log entry 6). -/
  scan : Option Scan
  /-- What the host, RST and the schedule do from here on (log entry 4). -/
  inputs : List Input
  /-- What the bus last gave back to the host (log entry 15). -/
  reply : Reply
  deriving DecidableEq, Repr

/-- The state after reset of a block with the parameters `c` (R280 to R282), with `inputs` still to come. -/
def State.resetWith (c : Config) (inputs : List Input) : State :=
  { cfg := c, seq := .idle, status := .reset, width := 0, height := 0, plen := 0, klen := 0, wlen := 0, blen := 0,
    olen := 0, mem := [], scan := none, inputs := inputs, reply := .nothing }

/-- The machine right after reset, with the parameters of log entry 1 and no input to come. -/
def State.reset : State := State.resetWith defaultConfig []

end Sys2Proof.Machine
end

