-- ==== Sys2Proof/Machine/Flags.lean ====
section
/-! DEFINITION. STATUS: its codes, its word, and what acceptance, completion and a dropped CMD write do to it
(10_state.md R23, R24; 60_exceptions.md R250, R255 to R258). -/

namespace Sys2Proof.Machine

/-- The code of an error in STATUS.ERR (R250). -/
def ErrCode.code : ErrCode → BitVec 4
  | .none => 0#4
  | .invalidKey => 1#4
  | .capacity => 2#4
  | .incomplete => 3#4
  | .illegal => 4#4
  | .length => 5#4
  | .bitAlign => 6#4

/-- The code of a decoder state in STATUS.DSTATE (R23, 44_pixel_decoder.md R181). -/
def DState.code : DState → BitVec 2
  | .none => 0#2
  | .scanning => 1#2
  | .done => 2#2
  | .incomplete => 3#2

/-- STATUS.BUSY: the sequencer is IDLE exactly when it is 0 (R28). -/
def State.isBusy (s : State) : Bool :=
  match s.seq with
  | .idle => false
  | .busy _ => true

/-- The STATUS word the host reads (R23): DSTATE in 17:16, LASTOP in 15:8, ERR in 7:4, then OVR, FOUND, DONE, BUSY. -/
def State.statusWord (s : State) : Word :=
  0#14 ++ s.status.dstate.code ++ s.status.lastop ++ s.status.err.code
    ++ BitVec.ofBool s.status.ovr ++ BitVec.ofBool s.status.found ++ BitVec.ofBool s.status.done
    ++ BitVec.ofBool s.isBusy

/-- STATUS once the word `v` is accepted (R255). -/
def Status.accepted (v : Word) : Status :=
  { done := false, found := false, ovr := false, err := .none, lastop := opField v, dstate := .none }

/-- STATUS once the running command has ended with outcome `e` (R257, R258). -/
def Status.ended (st : Status) (e : ErrCode) : Status := { st with done := true, err := e }

end Sys2Proof.Machine
end

