-- ==== Sys2Proof/Machine/Map.lean ====
section
/-! DEFINITION. The host address map (20_memory.md R52): where each buffer's window begins, how many bytes an element
takes, and how many elements there are. All addresses are offsets from PLATFORM_BASE (R53). -/

namespace Sys2Proof.Machine

/-- The base of a buffer's window (R52). -/
def Space.base : Space → Nat
  | .pbuf => 0x01000000
  | .kbuf => 0x02000000
  | .wbuf => 0x03000000
  | .bbuf => 0x04000000
  | .obuf => 0x05000000
  | .src => 0x08000000
  | .dst => 0x0C000000

/-- The size of a buffer's window in bytes (R52). -/
def Space.window : Space → Nat
  | .src | .dst => 2 ^ 26
  | _ => 2 ^ 24

/-- The bytes of the address map one element takes (R52): four for a pixel word, one for a byte or a bit. -/
def Space.stride : Space → Nat
  | .src | .dst => 4
  | _ => 1

/-- The capacity of a buffer in elements (R31). -/
def Space.cap (c : Config) : Space → Nat
  | .pbuf => c.pMax
  | .kbuf => c.kMax
  | .wbuf => c.wMax
  | .bbuf => c.bMax
  | .obuf => c.oMax
  | .src | .dst => c.pixMax

/-- The bytes of a window that belong to elements (R52); past them an address is out of range. -/
def Space.used (c : Config) (sp : Space) : Nat := sp.cap c * sp.stride

/-- What an offset names: a byte of the register window, a byte of a buffer's window, or nothing (R52). -/
inductive Target where
  | register (offset : Nat)
  | buffer (space : Space) (offset : Nat)
  | unmapped
  deriving DecidableEq, Repr

/-- The offset lies in the window of `sp`. -/
def Space.covers (sp : Space) (off : Nat) : Bool := decide (sp.base ≤ off) && decide (off < sp.base + sp.window)

/-- The seven windows in the order of R52. -/
def Space.all : List Space := [.pbuf, .kbuf, .wbuf, .bbuf, .obuf, .src, .dst]

/-- The map of R52, read at one offset from PLATFORM_BASE. -/
def target (off : Nat) : Target :=
  if off < 0x1000 then .register off
  else
    match Space.all.find? (fun sp => sp.covers off) with
    | some sp => .buffer sp (off - sp.base)
    | none => .unmapped

end Sys2Proof.Machine
end

