-- ==== Sys2Proof/Machine/Ops.lean ====
section
/-! DEFINITION. The operations every rule is written in: reading and writing one byte of memory, accepting a command,
ending a command (with or without an error: this hardware has no trap entry and no trap return, 60_exceptions.md R260,
R261), reset, the ascending loop, and the shape of a command. -/

namespace Sys2Proof.Machine

/-- The canonical form of memory: addresses strictly rising. An unlisted address has no value, so no entry can repeat
what an unlisted address reads as. -/
abbrev Memory.wf (m : Memory) : Prop := m.Pairwise (fun a b => a.1 < b.1)

/-- The byte at an offset; `none` where nothing has been written since reset (10_state.md R33). -/
def Memory.read : Memory → Nat → Option Byte
  | [], _ => none
  | (k, v) :: rest, a => if a = k then some v else Memory.read rest a

/-- Write one byte, keeping the addresses rising. -/
def Memory.write : Memory → Nat → Byte → Memory
  | [], a, b => [(a, b)]
  | (k, v) :: rest, a, b =>
    if a < k then (a, b) :: (k, v) :: rest
    else if a = k then (a, b) :: rest
    else (k, v) :: Memory.write rest a b

/-- Acceptance of the word `v` (R255): STATUS as R255 says, and the sequencer enters BUSY. -/
def accept (v : Word) (s : State) : State :=
  { s with seq := .busy v, status := .accepted v, scan := none }

/-- The running command ends with outcome `e` (R257, R258): ERR is `e`, DONE is 1, BUSY is 0, and no scan is left.
FOUND, DSTATE, LASTOP and OVR stay as they are. -/
def endWith (e : ErrCode) (s : State) : State :=
  { s with seq := .idle, status := s.status.ended e, scan := none }

/-- `complete` (R257). -/
def complete (s : State) : State := endWith .none s

/-- `complete with INCOMPLETE` (R257). -/
def completeIncomplete (s : State) : State := endWith .incomplete s

/-- `raise E` (R258). -/
def raise (e : ErrCode) (s : State) : State := endWith e s

/-- RST (70_reset_and_hazards.md R283): the reset state. The parameters and what the outside world does next are no
state of the block (log entry 12). -/
def assertReset (s : State) : State := State.resetWith s.cfg s.inputs

/-- `for i in i0 .. i0+n-1`, ascending, stopping at the first model fault. -/
def loopFrom {α : Type} (f : Nat → α → Except Fault α) : Nat → Nat → α → Except Fault α
  | 0, _, a => .ok a
  | n + 1, i, a => do
    let b ← f i a
    loopFrom f n (i + 1) b

/-- `for i in 0 .. n-1`. -/
def loop {α : Type} (n : Nat) (f : Nat → α → Except Fault α) (a : α) : Except Fault α := loopFrom f n 0 a

/-- A command rule (60_exceptions.md R259): every check comes before the first write; a check that fails raises, and
otherwise the body runs to completion or to a model fault. -/
def command (check : Option ErrCode) (body : State → Except Fault State) (s : State) :
    Host.Outcome State Fault Refusal :=
  match check with
  | some e => .next (raise e s)
  | none =>
    match body s with
    | .ok t => .next t
    | .error f => .fault f

end Sys2Proof.Machine
end

