-- ==== Sys2Proof/Machine/Operands.lean ====
section
/-! DEFINITION. The implicit operands of the commands (30_encoding.md R83, R84): elements of the buffers
(00_scope.md R13, `MemRead` and `MemWrite`; 20_memory.md R52, R56, R61, R64) and length registers read as naturals. -/

namespace Sys2Proof.Machine

/-- The element of a byte buffer, if written (R61). -/
def Memory.byteAt (m : Memory) (sp : Space) (i : Nat) : Option Byte := m.read (sp.base + i)

/-- The element of BBUF, if written: bit 0 of the byte address that holds it (R55). -/
def Memory.bitAt (m : Memory) (i : Nat) : Option Bool := (m.byteAt .bbuf i).map (fun b => b.getLsbD 0)

/-- Byte lane `l` of a pixel word: B, G, R, X for 0 to 3 (R56, 10_state.md R32). -/
def lane (w : Word) (l : Nat) : Byte := w.extractLsb' (8 * l) 8

/-- The pixel word with lanes B, G, R, X (10_state.md R32). -/
def pixelOf (b g r x : Byte) : Word := x ++ r ++ g ++ b

/-- Byte lane `l` of pixel element `i`, if written (R61). -/
def Memory.laneAt (m : Memory) (sp : Space) (i l : Nat) : Option Byte := m.read (sp.base + 4 * i + l)

/-- The pixel word of SRC or DST, if all four of its byte lanes are written (R61). -/
def Memory.pixelAt (m : Memory) (sp : Space) (i : Nat) : Option Word :=
  match m.laneAt sp i 0, m.laneAt sp i 1, m.laneAt sp i 2, m.laneAt sp i 3 with
  | some b, some g, some r, some x => some (pixelOf b g r x)
  | _, _, _, _ => none

/-- The element, or the model fault for an unwritten one (60_exceptions.md R262). -/
def orUnwritten {α : Type} (sp : Space) (i : Nat) : Option α → Except Fault α
  | some v => .ok v
  | none => .error (.unwrittenRead sp i)

/-- `MemRead` of a byte buffer. -/
def readByte (sp : Space) (i : Nat) (m : Memory) : Except Fault Byte := orUnwritten sp i (m.byteAt sp i)

/-- `MemRead` of BBUF. -/
def readBit (i : Nat) (m : Memory) : Except Fault Bool := orUnwritten .bbuf i (m.bitAt i)

/-- `MemRead` of SRC or DST. -/
def readPixel (sp : Space) (i : Nat) (m : Memory) : Except Fault Word := orUnwritten sp i (m.pixelAt sp i)

/-- `MemWrite` of a byte buffer. -/
def writeByte (sp : Space) (i : Nat) (v : Byte) (m : Memory) : Memory := m.write (sp.base + i) v

/-- The byte that holds a bit in BBUF's window (R55). -/
def bitByte (b : Bool) : Byte := if b then 1 else 0

/-- `MemWrite` of BBUF. -/
def writeBit (i : Nat) (b : Bool) (m : Memory) : Memory := writeByte .bbuf i (bitByte b) m

/-- A write of one byte lane of a pixel word (R56, R61). -/
def writeLane (sp : Space) (i l : Nat) (v : Byte) (m : Memory) : Memory := m.write (sp.base + 4 * i + l) v

/-- `MemWrite` of SRC or DST: the whole pixel word becomes written (R61). -/
def writePixel (sp : Space) (i : Nat) (w : Word) (m : Memory) : Memory :=
  writeLane sp i 3 (lane w 3) (writeLane sp i 2 (lane w 2) (writeLane sp i 1 (lane w 1) (writeLane sp i 0 (lane w 0) m)))

/-- `WIDTH × HEIGHT` on naturals, which never wraps (00_scope.md R12). -/
def State.gridSize (s : State) : Nat := s.width.toNat * s.height.toNat

/-- A length written back to a register. Every length a command writes is below 2^32 (00_scope.md R8). -/
def lengthWord (n : Nat) : Word := BitVec.ofNat 32 n

/-- `acc ← ((acc << 1) | bit) & 0xFF` (42_bit_packer.md R150; 44_pixel_decoder.md R183). -/
def shiftIn (acc : Byte) (bit : Bool) : Byte := (acc <<< 1) ||| bitByte bit

end Sys2Proof.Machine
end

