-- ==== Sys2Proof/Machine/Bus.lean ====
section
/-! DEFINITION. Host accesses (20_memory.md R50 to R65; 10_state.md R20 to R29; 60_exceptions.md R255, R256, R263):
the register window, the buffer windows, and what is refused. -/

namespace Sys2Proof.Machine

/-- The offset of a host address from PLATFORM_BASE (R53), on naturals; below it nothing is mapped (log entry 11). -/
def hostTarget (c : Config) (addr : Word) : Target :=
  if c.platformBase.toNat ≤ addr.toNat then target (addr.toNat - c.platformBase.toNat) else .unmapped

/-- A host read of a register (10_state.md R21, R22, R29): CMD and reserved offsets read 0. -/
def readRegister (off : Nat) (s : State) : Word :=
  match off with
  | 0x04 => s.statusWord
  | 0x08 => s.width
  | 0x0C => s.height
  | 0x10 => s.plen
  | 0x14 => s.klen
  | 0x18 => s.wlen
  | 0x1C => s.blen
  | 0x20 => s.olen
  | _ => 0

/-- A host write of a register while idle (R21, R22, R29): CMD accepts a command (60 R255); STATUS, OLEN and reserved
offsets ignore it. -/
def writeRegister (off : Nat) (v : Word) (s : State) : State :=
  match off with
  | 0x00 => accept v s
  | 0x08 => { s with width := v }
  | 0x0C => { s with height := v }
  | 0x10 => { s with plen := v }
  | 0x14 => { s with klen := v }
  | 0x18 => { s with wlen := v }
  | 0x1C => { s with blen := v }
  | _ => s

/-- An aligned 32-bit access at a byte offset of a window of `used` bytes, all in range (R54, R56, R58). -/
def wordFits (used off : Nat) : Bool := decide (off % 4 = 0) && decide (off + 4 ≤ used)

/-- The element a byte offset of a buffer's window belongs to (R52). -/
def Space.elementOf (sp : Space) (off : Nat) : Nat := off / sp.stride

/-- An 8-bit read of a buffer (R54, R55, R56): the byte; for BBUF the bit in a byte; for SRC and DST a lane of the
pixel word, which is the element and so must be written whole (R61; log entry 10). -/
def busRead8 (sp : Space) (off : Nat) (m : Memory) : Except Fault Byte :=
  match sp with
  | .bbuf => do
    let b ← readBit off m
    .ok (bitByte b)
  | .src | .dst => do
    let w ← readPixel sp (sp.elementOf off) m
    .ok (lane w (off % 4))
  | _ => readByte sp off m

/-- A 32-bit little-endian read of a byte or pixel buffer (R54, R56, R62). -/
def busRead32 (sp : Space) (off : Nat) (m : Memory) : Except Fault Word := do
  let b0 ← busRead8 sp off m
  let b1 ← busRead8 sp (off + 1) m
  let b2 ← busRead8 sp (off + 2) m
  let b3 ← busRead8 sp (off + 3) m
  .ok (pixelOf b0 b1 b2 b3)

/-- An 8-bit write of a buffer: the byte, or for BBUF bit 0 of it (R55, R61). -/
def busWrite8 (sp : Space) (off : Nat) (v : Byte) (m : Memory) : Memory :=
  match sp with
  | .bbuf => writeBit off (v.getLsbD 0) m
  | _ => m.write (sp.base + off) v

/-- A 32-bit little-endian write of a byte or pixel buffer (R54, R56, R61). -/
def busWrite32 (sp : Space) (off : Nat) (v : Word) (m : Memory) : Memory :=
  busWrite8 sp (off + 3) (lane v 3)
    (busWrite8 sp (off + 2) (lane v 2) (busWrite8 sp (off + 1) (lane v 1) (busWrite8 sp off (lane v 0) m)))

/-- Whether an access of this width at this target is allowed while idle (R54 to R58, R65): 16-bit accesses never are,
BBUF takes 8-bit accesses only, the register window aligned 32-bit ones only. -/
def accessAllowed (c : Config) (w : Width) : Target → Bool
  | .unmapped => false
  | .register off => decide (w = .w32) && decide (off % 4 = 0)
  | .buffer sp off =>
    match w with
    | .w8 => decide (off < sp.used c)
    | .w16 => false
    | .w32 => decide (sp ≠ .bbuf) && wordFits (sp.used c) off

/-- An allowed host read while idle. It returns only a reply: no read has a side effect (R64). -/
def busRead (w : Width) (t : Target) (s : State) : Except Fault Reply :=
  match t with
  | .unmapped => .ok .nothing
  | .register off => .ok (.data32 (readRegister off s))
  | .buffer sp off =>
    match w with
    | .w32 => do
      let v ← busRead32 sp off s.mem
      .ok (.data32 v)
    | _ => do
      let v ← busRead8 sp off s.mem
      .ok (.data8 v)

/-- An allowed host write while idle. -/
def busWrite (w : Width) (t : Target) (v : Word) (s : State) : State :=
  match t with
  | .unmapped => s
  | .register off => writeRegister off v s
  | .buffer sp off =>
    match w with
    | .w32 => { s with mem := busWrite32 sp off v s.mem }
    | _ => { s with mem := busWrite8 sp off (lane v 0) s.mem }

/-- A host access while idle (R60): refused ones are BadAccess (R59). -/
def accessIdle (a : Access) (s : State) : Host.Outcome State Fault Refusal :=
  match a with
  | .read w addr =>
    if accessAllowed s.cfg w (hostTarget s.cfg addr) then
      match busRead w (hostTarget s.cfg addr) s with
      | .ok r => .next { s with reply := r }
      | .error f => .fault f
    else .fault (.hostFault .badAccess addr w)
  | .write w addr v =>
    if accessAllowed s.cfg w (hostTarget s.cfg addr) then
      .next { busWrite w (hostTarget s.cfg addr) v s with reply := .written }
    else .fault (.hostFault .badAccess addr w)

/-- A host access while busy (R60): a STATUS read, a CMD write, which is dropped and sets OVR (60 R256), or a protocol
violation. -/
def accessBusy (a : Access) (s : State) : Host.Outcome State Fault Refusal :=
  match a with
  | .read w addr =>
    if w = .w32 ∧ hostTarget s.cfg addr = .register 0x04 then .next { s with reply := .data32 s.statusWord }
    else .fault (.hostFault .accessWhileBusy addr w)
  | .write w addr _ =>
    if w = .w32 ∧ hostTarget s.cfg addr = .register 0x00 then
      .next { s with status := { s.status with ovr := true }, reply := .written }
    else .fault (.hostFault .accessWhileBusy addr w)

/-- One host access. -/
def hostAccess (a : Access) (s : State) : Host.Outcome State Fault Refusal :=
  if s.isBusy then accessBusy a s else accessIdle a s

end Sys2Proof.Machine
end

