-- ==== Sys2Proof/Machine/Frame.lean ====
section
/-! DEFINITION. The FrameCodec unit and the FRAME and UNFRAME commands (41_frame_codec.md R120 to R131). -/

namespace Sys2Proof.Machine

/-- The terminator T (R120). -/
def terminator : List Byte := [0x00#8, 0x00#8, 0x03#8]

/-- `frame(p) = p ++ T` (R121). -/
def frame (p : List Byte) : List Byte := p ++ terminator

/-- The two results of `unframe` (R122; 90_conflicts.md C1: the incomplete case carries the scanned bytes). -/
inductive Unframed where
  | found (q : List Byte)
  | incomplete (s : List Byte)
  deriving DecidableEq, Repr

/-- The test `unframe` makes once byte `j` is available: the last three bytes are T (R122). -/
def matchAt (s : List Byte) (j : Nat) : Bool :=
  decide (2 ≤ j) && decide (s[j - 2]? = some 0x00#8) && decide (s[j - 1]? = some 0x00#8) && decide (s[j]? = some 0x03#8)

/-- `unframe(s)` (R122): the first `j` that matches decides. -/
def unframe (s : List Byte) : Unframed :=
  match (List.range s.length).find? (matchAt s) with
  | some j => .found (s.take (j - 2))
  | none => .incomplete s

/-- The three writes of FRAME (R125), also made by HIDE (45_composite.md R210). -/
def writeTerminator (n : Nat) (m : Memory) : Memory :=
  writeByte .wbuf (n + 2) 0x03#8 (writeByte .wbuf (n + 1) 0x00#8 (writeByte .wbuf n 0x00#8 m))

/-- The check of FRAME (R125). -/
def frameCheck (s : State) : Option ErrCode :=
  if s.cfg.wMax < s.wlen.toNat + 3 then some .length else none

/-- FRAME (R125). -/
def execFrame (s : State) : Host.Outcome State Fault Refusal :=
  command (frameCheck s)
    (fun s => .ok (complete { s with mem := writeTerminator s.wlen.toNat s.mem, wlen := lengthWord (s.wlen.toNat + 3) })) s

/-- Whether bytes `j-2`, `j-1`, `j` just mirrored into OBUF are T, where byte `j` is `b` (R131). -/
def obufMatch (j : Nat) (b : Byte) (m : Memory) : Except Fault Bool :=
  if 2 ≤ j then do
    let b0 ← readByte .obuf (j - 2) m
    let b1 ← readByte .obuf (j - 1) m
    .ok (decide (b0 = 0x00#8) && decide (b1 = 0x00#8) && decide (b = 0x03#8))
  else .ok false

/-- The loop of UNFRAME from byte `j` with `r` bytes left (R131): the matching `j`, if any, and the memory after.
It reads no byte past the match (R123). -/
def unframeLoop : Nat → Nat → Memory → Except Fault (Option Nat × Memory)
  | 0, _, m => .ok (none, m)
  | r + 1, j, m => do
    let b ← readByte .wbuf j m
    let m1 := writeByte .obuf j b m
    let hit ← obufMatch j b m1
    if hit then .ok (some j, m1) else unframeLoop r (j + 1) m1

/-- The check of UNFRAME (R131). -/
def unframeCheck (s : State) : Option ErrCode :=
  if s.cfg.wMax < s.wlen.toNat then some .length else none

/-- The end of UNFRAME (R131): FOUND and the length before the terminator, or INCOMPLETE and all the bytes. -/
def unframeEnd (s : State) : Option Nat × Memory → State
  | (some j, m) =>
    complete { s with mem := m, olen := lengthWord (j - 2), status := { s.status with found := true } }
  | (none, m) => completeIncomplete { s with mem := m, olen := lengthWord s.wlen.toNat }

/-- UNFRAME (R131). -/
def execUnframe (s : State) : Host.Outcome State Fault Refusal :=
  command (unframeCheck s) (fun s => do
    let r ← unframeLoop s.wlen.toNat 0 s.mem
    .ok (unframeEnd s r)) s

end Sys2Proof.Machine
end

