-- ==== Sys2Proof/Machine/Pack.lean ====
section
/-! DEFINITION. The BitPacker unit and the PACK and UNPACK commands (42_bit_packer.md R140 to R150). -/

namespace Sys2Proof.Machine

/-- The bits of one byte, most significant first (R140; 20_memory.md R63). -/
def byteBits (b : Byte) : List Bool := (List.range 8).map (fun t => b.getLsbD (7 - t))

/-- `toBits(d)` (R140). -/
def toBits (d : List Byte) : List Bool := d.flatMap byteBits

/-- Eight bits, the first of them most significant, as a byte (R141). -/
def bitsByte (bits : List Bool) : Byte := bits.foldl shiftIn 0

/-- `fromBits(b)` (R141), defined where the length is a multiple of 8; no rule evaluates it elsewhere, and a last
incomplete group is dropped here. -/
def fromBits : List Bool → List Byte
  | b7 :: b6 :: b5 :: b4 :: b3 :: b2 :: b1 :: b0 :: rest => bitsByte [b7, b6, b5, b4, b3, b2, b1, b0] :: fromBits rest
  | _ => []

/-- Bytes `0 .. n-1` of WBUF as bits into BBUF (the loop of R145 and of 45_composite.md R210). -/
def packLoop (n : Nat) (m : Memory) : Except Fault Memory :=
  loop n (fun i m => do
    let v ← readByte .wbuf i m
    loop 8 (fun t m => .ok (writeBit (8 * i + t) (v.getLsbD (7 - t)) m)) m) m

/-- The check of PACK (R145). -/
def packCheck (s : State) : Option ErrCode :=
  if s.cfg.wMax < s.wlen.toNat then some .length else none

/-- PACK (R145). -/
def execPack (s : State) : Host.Outcome State Fault Refusal :=
  command (packCheck s) (fun s => do
    let m ← packLoop s.wlen.toNat s.mem
    .ok (complete { s with mem := m, blen := lengthWord (8 * s.wlen.toNat) })) s

/-- Bits `8j .. 8j+7` of BBUF as a byte (the inner loop of R150). -/
def gatherByte (j : Nat) (m : Memory) : Except Fault Byte :=
  loop 8 (fun t acc => do
    let b ← readBit (8 * j + t) m
    .ok (shiftIn acc b)) 0x00#8

/-- Bits `0 .. 8n-1` of BBUF as bytes into WBUF (the loop of R150). -/
def unpackLoop (n : Nat) (m : Memory) : Except Fault Memory :=
  loop n (fun j m => do
    let acc ← gatherByte j m
    .ok (writeByte .wbuf j acc m)) m

/-- The checks of UNPACK (R150), in R252's order. -/
def unpackCheck (s : State) : Option ErrCode :=
  if s.cfg.bMax < s.blen.toNat then some .length
  else if s.blen.toNat % 8 ≠ 0 then some .bitAlign
  else none

/-- UNPACK (R150). -/
def execUnpack (s : State) : Host.Outcome State Fault Refusal :=
  command (unpackCheck s) (fun s => do
    let m ← unpackLoop (s.blen.toNat / 8) s.mem
    .ok (complete { s with mem := m, wlen := lengthWord (s.blen.toNat / 8) })) s

end Sys2Proof.Machine
end

