-- ==== Sys2Proof/Machine/Decoder.lean ====
section
/-! DEFINITION. The PixelDecoder unit and the DECODE command (44_pixel_decoder.md R180 to R190). -/

namespace Sys2Proof.Machine

/-- The low bits of the blue channels, in row-major order (R180). -/
def lowBits (src : List Word) : List Bool := src.map (fun w => w.getLsbD 0)

/-- `decodeGrid(src, N)` with `N` the length of `src` (R180). -/
def decodeGrid (src : List Word) : List Byte × Bool :=
  match unframe (fromBits ((lowBits src).take (8 * (src.length / 8)))) with
  | .found q => (q, true)
  | .incomplete s => (s, false)

/-- The scan state a scan starts from (R182). -/
def Scan.start : Scan := { x := 0, y := 0, acc := 0x00#8, nb := 0, bytes := [] }

/-- How one scan step ends (R183): the scan goes on, or it is MATCHED (R185) or EXHAUSTED (R186). -/
inductive ScanStep where
  | running (sc : Scan) (m : Memory)
  | matched (sc : Scan) (m : Memory)
  | exhausted (sc : Scan) (m : Memory)
  deriving DecidableEq, Repr

/-- `|S| ≥ 3 and last3(S) = T` (R183). -/
def endsInTerminator (bytes : List Byte) : Bool :=
  decide (3 ≤ bytes.length) && decide (bytes.drop (bytes.length - 3) = terminator)

/-- The cursor one pixel on in a grid of width `W` (R183). -/
def Scan.advance (sc : Scan) (W : Nat) : Scan :=
  if sc.x + 1 = W then { sc with x := 0, y := sc.y + 1 } else { sc with x := sc.x + 1 }

/-- The part of the scan step after the bit is in `acc` and counted (R183, R184): a full byte is appended to S and
mirrored into OBUF, and the terminator is looked for. -/
def scanByte (sc : Scan) (m : Memory) : ScanStep :=
  if sc.nb = 8 then
    let bytes := sc.bytes ++ [sc.acc]
    let m1 := writeByte .obuf (bytes.length - 1) sc.acc m
    let sc1 := { sc with bytes := bytes, acc := 0x00#8, nb := 0 }
    if endsInTerminator bytes then .matched sc1 m1 else .running sc1 m1
  else .running sc m

/-- One scan step over a grid of width `W` and `N` pixels (R183). -/
def scanStep (W N : Nat) (sc : Scan) (m : Memory) : Except Fault ScanStep :=
  if sc.y * W + sc.x = N then .ok (.exhausted sc m)
  else do
    let w ← readPixel .src (sc.y * W + sc.x) m
    .ok (scanByte { sc.advance W with acc := shiftIn sc.acc (w.getLsbD 0), nb := sc.nb + 1 } m)

/-- The scan, run for at most `fuel` steps: whether the terminator was found, the bytes assembled, and the memory
after (R185, R186). A scan ends within `N + 1` steps (R188). -/
def scanLoop (W N : Nat) : Nat → Scan → Memory → Except Fault (Bool × List Byte × Memory)
  | 0, sc, m => .ok (false, sc.bytes, m)
  | fuel + 1, sc, m => do
    match ← scanStep W N sc m with
    | .running sc1 m1 => scanLoop W N fuel sc1 m1
    | .matched sc1 m1 => .ok (true, sc1.bytes, m1)
    | .exhausted sc1 m1 => .ok (false, sc1.bytes, m1)

/-- The whole scan of the current grid, from its start or from where it stands if it has started already. -/
def runScan (s : State) : Except Fault (Bool × List Byte × Memory) :=
  scanLoop s.width.toNat s.gridSize (s.gridSize + 1) (s.scan.getD Scan.start) s.mem

/-- The check of DECODE (R190). -/
def decodeCheck (s : State) : Option ErrCode :=
  if s.cfg.pixMax < s.gridSize then some .length else none

/-- MATCHED with the memory `m` and `n` bytes before the terminator (R185, R190): FOUND, DONE, OLEN. -/
def scanMatched (n : Nat) (m : Memory) (s : State) : State :=
  complete { s with mem := m, olen := lengthWord n, status := { s.status with found := true, dstate := .done } }

/-- EXHAUSTED with the memory `m` and `n` bytes assembled (R186, R190): INCOMPLETE, OLEN. -/
def scanExhausted (n : Nat) (m : Memory) (s : State) : State :=
  completeIncomplete { s with mem := m, olen := lengthWord n, status := { s.status with dstate := .incomplete } }

/-- The end of DECODE (R190). -/
def decodeEnd (s : State) : Bool × List Byte × Memory → State
  | (true, bytes, m) => scanMatched (bytes.length - 3) m s
  | (false, bytes, m) => scanExhausted bytes.length m s

/-- DECODE (R190). -/
def execDecode (s : State) : Host.Outcome State Fault Refusal :=
  command (decodeCheck s) (fun s => do
    let r ← runScan s
    .ok (decodeEnd s r)) s

end Sys2Proof.Machine
end

