-- ==== Sys2Proof/Machine/Encode.lean ====
section
/-! DEFINITION. The PixelEncoder unit and the ENCODE command (43_pixel_encoder.md R160 to R165). -/

namespace Sys2Proof.Machine

/-- One bit into the low bit of a pixel word's blue channel (R161, R162). -/
def embed (w : Word) (bit : Bool) : Word := (w &&& 0xFFFFFFFE#32) ||| (BitVec.ofBool bit).setWidth 32

/-- `encodeGrid(src, bits, N)` with `N` the length of `src`, for `|bits| ≤ N` (R161). -/
def encodeGrid (src : List Word) (bits : List Bool) : List Word :=
  src.mapIdx (fun p w => match bits[p]? with
    | some b => embed w b
    | none => w)

/-- The pixel loop of R165 and of 45_composite.md R210: pixels `0 .. N-1` of SRC into DST, the first `n` of them with
a bit of BBUF. -/
def embedLoop (N n : Nat) (m : Memory) : Except Fault Memory :=
  loop N (fun p m => do
    let w ← readPixel .src p m
    if p < n then do
      let b ← readBit p m
      .ok (writePixel .dst p (embed w b) m)
    else .ok (writePixel .dst p w m)) m

/-- The checks of ENCODE (R164, R165). -/
def encodeCheck (s : State) : Option ErrCode :=
  if s.cfg.pixMax < s.gridSize ∨ s.cfg.bMax < s.blen.toNat then some .length
  else if s.gridSize < s.blen.toNat then some .capacity
  else none

/-- ENCODE (R165). -/
def execEncode (s : State) : Host.Outcome State Fault Refusal :=
  command (encodeCheck s) (fun s => do
    let m ← embedLoop s.gridSize s.blen.toNat s.mem
    .ok (complete { s with mem := m })) s

end Sys2Proof.Machine
end

