-- ==== Sys2Proof/Machine/Xor.lean ====
section
/-! DEFINITION. The XorCipher unit and the XOR command (40_xor_cipher.md R100 to R105). -/

namespace Sys2Proof.Machine

/-- `xorT(d, k)`, defined for a non-empty key only (R100, R101): byte `i` is `d[i] ^ k[i mod |k|]`. -/
def xorT (d k : List Byte) (hk : 0 < k.length) : List Byte :=
  d.mapIdx (fun i b => b ^^^ k[i % k.length]'(Nat.mod_lt i hk))

/-- Bytes `0 .. n-1` of PBUF XORed with the key into WBUF (the loop of R105 and R210). -/
def xorLoop (n k : Nat) (m : Memory) : Except Fault Memory :=
  loop n (fun i m => do
    let p ← readByte .pbuf i m
    let q ← readByte .kbuf (i % k) m
    .ok (writeByte .wbuf i (p ^^^ q) m)) m

/-- The checks of R105, in R252's order. -/
def xorCheck (s : State) : Option ErrCode :=
  if s.cfg.pMax < s.plen.toNat ∨ s.cfg.kMax < s.klen.toNat then some .length
  else if s.klen.toNat = 0 then some .invalidKey
  else none

/-- XOR (R105). -/
def execXor (s : State) : Host.Outcome State Fault Refusal :=
  command (xorCheck s) (fun s => do
    let m ← xorLoop s.plen.toNat s.klen.toNat s.mem
    .ok (complete { s with mem := m, wlen := lengthWord s.plen.toNat })) s

end Sys2Proof.Machine
end

