-- ==== Sys2Proof/Machine/Composite.lean ====
section
/-! DEFINITION. The composite commands HIDE and SHOW (45_composite.md R210 to R218). -/

namespace Sys2Proof.Machine

/-- The checks of HIDE (R210), in R252's order. -/
def hideCheck (s : State) : Option ErrCode :=
  if s.cfg.pMax < s.plen.toNat ∨ s.cfg.kMax < s.klen.toNat ∨ s.cfg.pixMax < s.gridSize then some .length
  else if s.klen.toNat = 0 then some .invalidKey
  else if s.gridSize < 8 * (s.plen.toNat + 3) then some .capacity
  else none

/-- HIDE (R210): XorCipher, FrameCodec, BitPacker, PixelEncoder. -/
def execHide (s : State) : Host.Outcome State Fault Refusal :=
  let n := s.plen.toNat
  command (hideCheck s) (fun s => do
    let m1 ← xorLoop n s.klen.toNat s.mem
    let m2 ← packLoop (n + 3) (writeTerminator n m1)
    let m3 ← embedLoop s.gridSize (8 * (n + 3)) m2
    .ok (complete { s with mem := m3, wlen := lengthWord (n + 3), blen := lengthWord (8 * (n + 3)) })) s

/-- Bytes `0 .. n-1` of OBUF XORed with the key in place (R215; 20_memory.md R72). -/
def decipherLoop (n k : Nat) (m : Memory) : Except Fault Memory :=
  loop n (fun i m => do
    let p ← readByte .obuf i m
    let q ← readByte .kbuf (i % k) m
    .ok (writeByte .obuf i (p ^^^ q) m)) m

/-- The checks of SHOW (R215), in R252's order; the key is checked before the scan starts. -/
def showCheck (s : State) : Option ErrCode :=
  if s.cfg.kMax < s.klen.toNat ∨ s.cfg.pixMax < s.gridSize then some .length
  else if s.klen.toNat = 0 then some .invalidKey
  else none

/-- The end of SHOW (R215): a match is deciphered; without one the raw bytes stay (92_eei_decisions.md D16). -/
def showEnd (s : State) : Bool × List Byte × Memory → Except Fault State
  | (true, bytes, m) => do
    let m1 ← decipherLoop (bytes.length - 3) s.klen.toNat m
    .ok (scanMatched (bytes.length - 3) m1 s)
  | (false, bytes, m) => .ok (scanExhausted bytes.length m s)

/-- SHOW (R215). -/
def execShow (s : State) : Host.Outcome State Fault Refusal :=
  command (showCheck s) (fun s => do
    let r ← runScan s
    showEnd s r) s

end Sys2Proof.Machine
end

