-- ==== Sys2Proof/Machine/Control.lean ====
section
/-! DEFINITION. The control and data-movement commands NOP, MOVE and COPY (46_control.md R230 to R236). -/

namespace Sys2Proof.Machine

/-- NOP (R230). -/
def execNop (s : State) : Host.Outcome State Fault Refusal := command none (fun s => .ok (complete s)) s

/-- Bytes `0 .. n-1` of PBUF into WBUF (R233). -/
def moveLoop (n : Nat) (m : Memory) : Except Fault Memory :=
  loop n (fun i m => do
    let b ← readByte .pbuf i m
    .ok (writeByte .wbuf i b m)) m

/-- The check of MOVE (R233). -/
def moveCheck (s : State) : Option ErrCode :=
  if s.cfg.pMax < s.plen.toNat then some .length else none

/-- MOVE (R233). -/
def execMove (s : State) : Host.Outcome State Fault Refusal :=
  command (moveCheck s) (fun s => do
    let m ← moveLoop s.plen.toNat s.mem
    .ok (complete { s with mem := m, wlen := lengthWord s.plen.toNat })) s

/-- Pixels `0 .. N-1` of DST into SRC (R236). -/
def copyLoop (N : Nat) (m : Memory) : Except Fault Memory :=
  loop N (fun p m => do
    let w ← readPixel .dst p m
    .ok (writePixel .src p w m)) m

/-- The check of COPY (R236). -/
def copyCheck (s : State) : Option ErrCode :=
  if s.cfg.pixMax < s.gridSize then some .length else none

/-- COPY (R236). -/
def execCopy (s : State) : Host.Outcome State Fault Refusal :=
  command (copyCheck s) (fun s => do
    let m ← copyLoop s.gridSize s.mem
    .ok (complete { s with mem := m })) s

end Sys2Proof.Machine
end

