-- ==== Sys2Proof/Machine/Dispatch.lean ====
section
/-! DEFINITION. The meaning of each command, one arm per constructor of `Instr`: the completion transition of an
accepted command (60_exceptions.md R255, R257, R258; 70_reset_and_hazards.md R291). -/

namespace Sys2Proof.Machine

def exec (i : Instr) (s : State) : Host.Outcome State Fault Refusal :=
  match i with
  | .nop => Sys2Proof.Machine.execNop s
  | .xor => Sys2Proof.Machine.execXor s
  | .frame => Sys2Proof.Machine.execFrame s
  | .unframe => Sys2Proof.Machine.execUnframe s
  | .pack => Sys2Proof.Machine.execPack s
  | .unpack => Sys2Proof.Machine.execUnpack s
  | .encode => Sys2Proof.Machine.execEncode s
  | .decode => Sys2Proof.Machine.execDecode s
  | .move => Sys2Proof.Machine.execMove s
  | .copy => Sys2Proof.Machine.execCopy s
  | .hide => Sys2Proof.Machine.execHide s
  | .show_ => Sys2Proof.Machine.execShow s

end Sys2Proof.Machine
end

