-- ==== Sys2Proof/Machine/Engine.lean ====
section
/-! DEFINITION. The engine's own transitions (60_exceptions.md R255 to R258; 70_reset_and_hazards.md R291): completing
the running command, and starting and advancing a decoder scan before that. -/

namespace Sys2Proof.Machine

/-- The engine's completion transition. An idle engine does nothing (60 R270); a busy one decodes the latched word
(R255): a legal word runs its rule, an illegal one ends with ILLEGAL (30_encoding.md R85). -/
def engineTurn (s : State) : Host.Outcome State Fault Refusal :=
  match s.seq with
  | .idle => .next s
  | .busy w =>
    match decode w with
    | .ok i => exec i s
    | .error _ => .next (raise .illegal s)

/-- The check a command makes before its scan, for the two commands that scan (44_pixel_decoder.md R181). -/
def scanCheck (s : State) : Instr → Option (Option ErrCode)
  | .decode => some (decodeCheck s)
  | .show_ => some (showCheck s)
  | _ => none

/-- A DECODE or SHOW is running and its checks let it scan (R181, 10_state.md R24). -/
def scanDue (s : State) : Bool :=
  match s.seq with
  | .idle => false
  | .busy w =>
    match decode w with
    | .ok i => decide (scanCheck s i = some none)
    | .error _ => false

/-- A scan transition between acceptance and completion. The first starts the scan, so that DSTATE reads SCANNING
(R182); each later one is a scan step of R183 that does not end the scan. The step that ends it belongs to
completion. -/
def scanTurn (s : State) : Host.Outcome State Fault Refusal :=
  if scanDue s then
    match s.scan with
    | none => .next { s with scan := some Scan.start, status := { s.status with dstate := .scanning } }
    | some sc =>
      match scanStep s.width.toNat s.gridSize sc s.mem with
      | .ok (.running sc1 m) => .next { s with scan := some sc1, mem := m }
      | .ok _ => .next s
      | .error f => .fault f
  else .next s

end Sys2Proof.Machine
end

