-- ==== Sys2Proof/Machine/Step.lean ====
section
/-! DEFINITION. One step of the machine: the next input happens; with no input left the engine takes its turn, which
completes a running command (70_reset_and_hazards.md R292) and does nothing when idle (60_exceptions.md R270). -/

namespace Sys2Proof.Machine

/-- What one input does to the machine. -/
def onInput (e : Input) (s : State) : Host.Outcome State Fault Refusal :=
  match e with
  | .access a => hostAccess a s
  | .engine => engineTurn s
  | .scan => scanTurn s
  | .rst => .next (assertReset s)

/-- One step. -/
def step (s : State) : Host.Outcome State Fault Refusal :=
  match s.inputs with
  | [] => engineTurn s
  | e :: rest => onInput e { s with inputs := rest }

/-- The state in which the word whose low `nbits` bits are those of `w` has just been accepted (60 R255) and the engine
moves next, so that the very next step runs it (log entry 14). -/
def State.withFetchWord (s : State) (nbits w : Nat) : State :=
  { accept (tableWord nbits w) s with inputs := if s.inputs = [] then [] else .engine :: s.inputs }

end Sys2Proof.Machine
end

