-- ==== Sys2Proof/Machine/HostAsm.lean ====
section
/-! DEFINITION. The host assembly of 30_encoding.md R88 and R89, as functions to the bus accesses each form stands for
(log entry 16). A host program is the concatenation of its lines; the text form itself is not modelled. -/

namespace Sys2Proof.Machine

/-- The registers of 10_state.md R21. -/
inductive Reg where
  | cmd | status | width | height | plen | klen | wlen | blen | olen
  deriving DecidableEq, Repr

/-- The offset of a register (R21). -/
def Reg.offset : Reg → Nat
  | .cmd => 0x00
  | .status => 0x04
  | .width => 0x08
  | .height => 0x0C
  | .plen => 0x10
  | .klen => 0x14
  | .wlen => 0x18
  | .blen => 0x1C
  | .olen => 0x20

/-- The host address at an offset from PLATFORM_BASE (20_memory.md R53). -/
def hostAddr (c : Config) (off : Nat) : Word := c.platformBase + BitVec.ofNat 32 off

/-- `CMDW <word>`. -/
def asmCmdw (c : Config) (w : Word) : List Input := [.access (.write .w32 (hostAddr c 0x00) w)]

/-- `<MNEMONIC>`. -/
def asmIssue (c : Config) (i : Instr) : List Input := asmCmdw c (encode i)

/-- `WR <REG>, <value>`. -/
def asmWr (c : Config) (r : Reg) (v : Word) : List Input := [.access (.write .w32 (hostAddr c r.offset) v)]

/-- `RD <REG>`. -/
def asmRd (c : Config) (r : Reg) : List Input := [.access (.read .w32 (hostAddr c r.offset))]

/-- `WRB <BUF>, <index>, <b0> <b1> …`. -/
def asmWrb (c : Config) (sp : Space) (index : Nat) (bytes : List Byte) : List Input :=
  bytes.mapIdx (fun k b => .access (.write .w8 (hostAddr c (sp.base + index + k)) (b.setWidth 32)))

/-- `WRPIX <SRC|DST>, <index>, <w0> <w1> …`. -/
def asmWrpix (c : Config) (sp : Space) (index : Nat) (words : List Word) : List Input :=
  words.mapIdx (fun k w => .access (.write .w32 (hostAddr c (sp.base + 4 * (index + k))) w))

/-- `RDB <BUF>, <index>, <n>`. -/
def asmRdb (c : Config) (sp : Space) (index n : Nat) : List Input :=
  (List.range n).map (fun k => .access (.read .w8 (hostAddr c (sp.base + index + k))))

/-- `RDPIX <SRC|DST>, <index>, <n>`. -/
def asmRdpix (c : Config) (sp : Space) (index n : Nat) : List Input :=
  (List.range n).map (fun k => .access (.read .w32 (hostAddr c (sp.base + 4 * (index + k)))))

/-- `WAIT` (R89), where `polls` reads see BUSY = 1 before the engine completes: any number is allowed
(93_implementation_defined.md M8). DESIGN CHOICE (log entry 23): the list takes no scan turn, so the polls of a running
DECODE or SHOW read DSTATE as NONE, where M5 and 70_reset_and_hazards.md R291 also let them read SCANNING. -/
def asmWait (c : Config) (polls : Nat) : List Input :=
  (List.replicate polls (asmRd c .status)).flatten ++ [.engine] ++ asmRd c .status

/-- `LOADP <b0> … <bn-1>` (R89). -/
def asmLoadp (c : Config) (bytes : List Byte) : List Input :=
  asmWr c .plen (BitVec.ofNat 32 bytes.length) ++ asmWrb c .pbuf 0 bytes

/-- `LOADK <b0> … <bk-1>` (R89). -/
def asmLoadk (c : Config) (bytes : List Byte) : List Input :=
  asmWr c .klen (BitVec.ofNat 32 bytes.length) ++ asmWrb c .kbuf 0 bytes

/-- `GRID <w>, <h>` (R89). -/
def asmGrid (c : Config) (w h : Word) : List Input := asmWr c .width w ++ asmWr c .height h

/-- `FILL <SRC|DST>, <n>, <f>` (R89). -/
def asmFill (c : Config) (sp : Space) (n : Nat) (f : Nat → Word) : List Input :=
  asmWrpix c sp 0 ((List.range n).map f)

/-- `RUN <MNEMONIC>` (R89). -/
def asmRun (c : Config) (polls : Nat) (i : Instr) : List Input := asmIssue c i ++ asmWait c polls

/-- `HIDEPLAIN` (R89). Each of its four `WAIT`s has its own number of polls. -/
def asmHideplain (c : Config) (n1 n2 n3 n4 : Nat) : List Input :=
  asmRun c n1 .move ++ asmRun c n2 .frame ++ asmRun c n3 .pack ++ asmRun c n4 .encode

end Sys2Proof.Machine
end

