-- ==== Sys2Proof/Safety.lean ====
section
/-! DEFINITION. The terms statements are made in: what a buffer holds, what a transition leaves alone, which errors the
spec says a command reports (60_exceptions.md R251, R252), and what is true of every reachable state. -/

namespace Sys2Proof.Machine

/-! ### What a buffer holds -/

/-- Elements `0 .. |d|-1` of a byte buffer are written and are `d`. -/
def Memory.HoldsBytes (m : Memory) (sp : Space) (d : List Byte) : Prop :=
  ∀ i, i < d.length → m.byteAt sp i = d[i]?

/-- Elements `0 .. |b|-1` of BBUF are written and are `b`. -/
def Memory.HoldsBits (m : Memory) (b : List Bool) : Prop :=
  ∀ i, i < b.length → m.bitAt i = b[i]?

/-- Elements `0 .. |px|-1` of SRC or DST are written and are `px`. -/
def Memory.HoldsPixels (m : Memory) (sp : Space) (px : List Word) : Prop :=
  ∀ i, i < px.length → m.pixelAt sp i = px[i]?

/-- Element `j` of a buffer is written (10_state.md R33): for a pixel word, all four of its lanes (20_memory.md R61). -/
def Memory.Written (m : Memory) (sp : Space) (j : Nat) : Prop :=
  match sp with
  | .bbuf => m.bitAt j ≠ none
  | .src | .dst => m.pixelAt sp j ≠ none
  | _ => m.byteAt sp j ≠ none

/-- The bytes `unframe` looks at (41_frame_codec.md R123): up to and including the first terminator, or all. -/
def scannedBytes (s : List Byte) : List Byte :=
  match unframe s with
  | .found q => q ++ terminator
  | .incomplete t => t

/-- The pixels a scan reads (44_pixel_decoder.md R187): `8·|S|` on a match, and all of them without one. -/
def pixelsRead (px : List Word) : Nat :=
  match unframe (fromBits (lowBits px)) with
  | .found q => 8 * (q.length + 3)
  | .incomplete _ => px.length

/-- The least index at which the terminator occurs in `p`, or `|p|` where it does not (41_frame_codec.md R124). -/
def terminatorIndex (p : List Byte) : Nat :=
  ((List.range p.length).find? (fun q => decide ((p.drop q).take 3 = terminator))).getD p.length

/-! ### What is left alone -/

/-- The addresses of elements `lo .. hi-1` of a buffer. -/
def Space.Elems (sp : Space) (lo hi : Nat) (a : Nat) : Prop :=
  sp.base + sp.stride * lo ≤ a ∧ a < sp.base + sp.stride * hi

/-- Every byte outside `R` reads as before, written or not. -/
def Memory.SameExcept (R : Nat → Prop) (m m' : Memory) : Prop := ∀ a, ¬ R a → m'.read a = m.read a

/-- How many bytes of OBUF a search for the terminator has mirrored once it has ended in `t`: OLEN of them, and the
terminator's three on a match (41_frame_codec.md R131; 44_pixel_decoder.md R190; 45_composite.md R215). -/
def scannedCount (t : State) : Nat := t.olen.toNat + if t.status.found then 3 else 0

/-- The elements a command may write, from `s` to `t` (30_encoding.md R83): the addresses are those its rule
computes. -/
def MayWrite (i : Instr) (s t : State) (a : Nat) : Prop :=
  match i with
  | .nop => False
  | .xor | .move => Space.Elems .wbuf 0 s.plen.toNat a
  | .frame => Space.Elems .wbuf s.wlen.toNat (s.wlen.toNat + 3) a
  | .unframe | .decode | .show_ => Space.Elems .obuf 0 (scannedCount t) a
  | .pack => Space.Elems .bbuf 0 (8 * s.wlen.toNat) a
  | .unpack => Space.Elems .wbuf 0 (s.blen.toNat / 8) a
  | .encode => Space.Elems .dst 0 s.gridSize a
  | .copy => Space.Elems .src 0 s.gridSize a
  | .hide =>
    Space.Elems .wbuf 0 (s.plen.toNat + 3) a ∨ Space.Elems .bbuf 0 (8 * (s.plen.toNat + 3)) a
      ∨ Space.Elems .dst 0 s.gridSize a

/-- The buffers a command reads (R83). SHOW reads back from OBUF only what it has itself written there (45_composite.md
R215). -/
def readsBuffers : Instr → List Space
  | .nop | .frame => []
  | .xor => [.pbuf, .kbuf]
  | .unframe | .pack => [.wbuf]
  | .unpack => [.bbuf]
  | .encode => [.src, .bbuf]
  | .decode => [.src]
  | .move => [.pbuf]
  | .copy => [.dst]
  | .hide => [.pbuf, .kbuf, .src]
  | .show_ => [.src, .kbuf]

/-- No beginning of WBUF, of at most `j` written bytes, holds the terminator: UNFRAME goes on to byte `j`
(41_frame_codec.md R123). -/
def Memory.UnframeReaches (m : Memory) (j : Nat) : Prop :=
  ∀ d : List Byte, d.length ≤ j → m.HoldsBytes .wbuf d → ∀ q, unframe d ≠ .found q

/-- No beginning of SRC, of at most `j` written pixels, holds the terminator: a scan goes on to pixel `j`
(44_pixel_decoder.md R187). -/
def Memory.ScanReaches (m : Memory) (j : Nat) : Prop :=
  ∀ px : List Word, px.length ≤ j → m.HoldsPixels .src px → ∀ q, unframe (fromBits (lowBits px)) ≠ .found q

/-- What SHOW recovers from SRC has more than `j` bytes (45_composite.md R215). -/
def State.Recovers (s : State) (j : Nat) : Prop :=
  ∃ (px : List Word) (q : List Byte), px.length ≤ s.gridSize ∧ s.mem.HoldsPixels .src px
    ∧ unframe (fromBits (lowBits px)) = .found q ∧ j < q.length

/-- The elements that must be written before a command whose checks pass (70_reset_and_hazards.md R286). -/
def Needs (i : Instr) (s : State) (sp : Space) (j : Nat) : Prop :=
  match i with
  | .nop | .frame => False
  | .xor => sp = .pbuf ∧ j < s.plen.toNat ∨ sp = .kbuf ∧ j < min s.klen.toNat s.plen.toNat
  | .move => sp = .pbuf ∧ j < s.plen.toNat
  | .unframe => sp = .wbuf ∧ j < s.wlen.toNat ∧ s.mem.UnframeReaches j
  | .pack => sp = .wbuf ∧ j < s.wlen.toNat
  | .unpack => sp = .bbuf ∧ j < s.blen.toNat
  | .encode => sp = .src ∧ j < s.gridSize ∨ sp = .bbuf ∧ j < s.blen.toNat
  | .decode => sp = .src ∧ j < s.gridSize ∧ s.mem.ScanReaches j
  | .copy => sp = .dst ∧ j < s.gridSize
  | .hide =>
    sp = .pbuf ∧ j < s.plen.toNat ∨ sp = .kbuf ∧ j < min s.klen.toNat s.plen.toNat ∨ sp = .src ∧ j < s.gridSize
  | .show_ =>
    sp = .src ∧ j < s.gridSize ∧ s.mem.ScanReaches j ∨ sp = .kbuf ∧ j < s.klen.toNat ∧ s.Recovers j

/-! ### Which error a command reports -/

/-- The LENGTH table (R251). -/
def lengthViolated (s : State) : Instr → Bool
  | .nop => false
  | .xor => decide (s.plen.toNat > s.cfg.pMax ∨ s.klen.toNat > s.cfg.kMax)
  | .frame => decide (s.wlen.toNat + 3 > s.cfg.wMax)
  | .unframe => decide (s.wlen.toNat > s.cfg.wMax)
  | .pack => decide (s.wlen.toNat > s.cfg.wMax)
  | .unpack => decide (s.blen.toNat > s.cfg.bMax)
  | .encode => decide (s.gridSize > s.cfg.pixMax ∨ s.blen.toNat > s.cfg.bMax)
  | .decode => decide (s.gridSize > s.cfg.pixMax)
  | .move => decide (s.plen.toNat > s.cfg.pMax)
  | .copy => decide (s.gridSize > s.cfg.pixMax)
  | .hide => decide (s.plen.toNat > s.cfg.pMax ∨ s.klen.toNat > s.cfg.kMax ∨ s.gridSize > s.cfg.pixMax)
  | .show_ => decide (s.klen.toNat > s.cfg.kMax ∨ s.gridSize > s.cfg.pixMax)

/-- The cause of INVALID_KEY (R250). -/
def keyEmpty (s : State) (i : Instr) : Bool := [Instr.xor, .hide, .show_].contains i && decide (s.klen.toNat = 0)

/-- The cause of BITALIGN (R250). -/
def bitsMisaligned (s : State) (i : Instr) : Bool := decide (i = .unpack) && decide (s.blen.toNat % 8 ≠ 0)

/-- The cause of CAPACITY (R250). -/
def overCapacity (s : State) : Instr → Bool
  | .encode => decide (s.blen.toNat > s.gridSize)
  | .hide => decide (8 * (s.plen.toNat + 3) > s.gridSize)
  | _ => false

/-- The first error of a legal command that applies, in R252's order, of those that abort it (R258). -/
def firstError (s : State) (i : Instr) : Option ErrCode :=
  if lengthViolated s i then some .length
  else if keyEmpty s i then some .invalidKey
  else if bitsMisaligned s i then some .bitAlign
  else if overCapacity s i then some .capacity
  else none

/-- `t` is `s` with its command ended by outcome `e`, and nothing else changed (R258). -/
def EndedWith (e : ErrCode) (s t : State) : Prop :=
  t = { s with seq := .idle, status := { s.status with done := true, err := e }, scan := none }

/-! ### What is true of every reachable state -/

/-- The memory has its canonical form, lists only bytes of elements that exist (20_memory.md R51, R58), and a byte of
BBUF's window holds one bit (R55). -/
def State.MemOk (s : State) : Prop :=
  s.mem.wf ∧ ∀ c ∈ s.mem, ∃ sp : Space, sp.base ≤ c.1 ∧ c.1 < sp.base + sp.used s.cfg ∧ (sp = .bbuf → c.2.toNat < 2)

/-- The opcodes of the commands that look for a terminator (10_state.md R24). -/
def findsTerminator (op : Byte) : Prop := op = 0x03#8 ∨ op = 0x07#8 ∨ op = 0x11#8

/-- The opcodes of the commands that scan (10_state.md R24). -/
def scans (op : Byte) : Prop := op = 0x07#8 ∨ op = 0x11#8

/-- How the fields of STATUS go together (10_state.md R23, R24, R28; 44_pixel_decoder.md R181; 60_exceptions.md R255 to
R258). While busy: DONE, FOUND and ERR are 0, LASTOP is the running word's, DSTATE is NONE or SCANNING. While idle: all
fields are 0 before the first command has completed; FOUND comes with ERR = NONE and only from a command that looks for
a terminator; DSTATE DONE and INCOMPLETE come only from a scan, with FOUND and with INCOMPLETE. -/
def State.StatusOk (s : State) : Prop :=
  match s.seq with
  | .busy w =>
    s.status.done = false ∧ s.status.found = false ∧ s.status.err = .none ∧ s.status.lastop = opField w
      ∧ (s.status.dstate = .none ∧ s.scan = none ∨ s.status.dstate = .scanning ∧ s.scan ≠ none ∧ scans (opField w))
  | .idle =>
    s.scan = none ∧ s.status.dstate ≠ .scanning
      ∧ (s.status.done = false → s.status = .reset)
      ∧ (s.status.found = true → s.status.err = .none ∧ findsTerminator s.status.lastop)
      ∧ (s.status.err = .incomplete → findsTerminator s.status.lastop)
      ∧ (s.status.dstate = .done ↔ s.status.found = true ∧ scans s.status.lastop)
      ∧ (s.status.dstate = .incomplete ↔ s.status.err = .incomplete ∧ scans s.status.lastop)

/-- A running scan (10_state.md R34; 44_pixel_decoder.md R181 to R186): a DECODE or SHOW that passed its checks is
running; the cursor stands where `8·|S| + nb` pixels have been read, inside the grid or at its end; nb is 0 to 7; the
bytes assembled are mirrored in OBUF and hold no terminator. -/
def State.ScanOk (s : State) : Prop :=
  ∀ sc, s.scan = some sc →
    scanDue s = true ∧ sc.nb < 8 ∧ sc.y * s.width.toNat + sc.x = 8 * sc.bytes.length + sc.nb
      ∧ sc.y * s.width.toNat + sc.x ≤ s.gridSize ∧ (sc.x < s.width.toNat ∨ sc.x = 0 ∧ sc.y = 0)
      ∧ s.mem.HoldsBytes .obuf sc.bytes ∧ unframe sc.bytes = .incomplete sc.bytes

/-- The invariant of the machine. -/
def State.Inv (s : State) : Prop := s.cfg.Valid ∧ s.MemOk ∧ s.StatusOk ∧ s.ScanOk

/-! ### Which host accesses are refused -/

/-- The refusals of 20_memory.md R54 to R58 and R65, for an access of one width at one target while idle. -/
def Refused (c : Config) (w : Width) : Target → Prop
  | .unmapped => True
  | .register off => w ≠ .w32 ∨ off % 4 ≠ 0
  | .buffer sp off =>
    w = .w16 ∨ (w = .w8 ∧ sp.used c ≤ off) ∨ (w = .w32 ∧ (sp = .bbuf ∨ off % 4 ≠ 0 ∨ sp.used c < off + 4))

/-- The elements an access at a target belongs to (20_memory.md R52, R54, R56): from that of its first byte to that of
its last. -/
def Covers (w : Width) (t : Target) (sp : Space) (j : Nat) : Prop :=
  match t with
  | .buffer sp' off => sp = sp' ∧ sp.elementOf off ≤ j ∧ j ≤ sp.elementOf (off + if w = .w32 then 3 else 0)
  | _ => False

/-! ### Runs without a model fault -/

/-- The next `k` steps all answer a next state: no unwritten read and no host fault (60_exceptions.md R262, R263). -/
def State.SafeFor (k : Nat) (s : State) : Prop := ∃ t, Sys2Proof.core.run k s = .next t

end Sys2Proof.Machine
end

