-- ==== Sys2Proof/Certificates/Slice0/Obligations.lean ====
section
/-! DEFINITION. The statements put to the provers, each from the rules of spec/ its docstring names. Conventions of the
model's own that a statement rests on are named with their log entry. -/

section

open Sys2Proof Sys2Proof.Machine

/-! ### Command words (30_encoding.md) -/

/-- R82, R85: the word of each row of the opcode map decodes to its command; the reserved bits and an unassigned opcode
are refused by name. -/
def Obligations.SpecWordsDecode : Prop :=
  decode 0x00000000#32 = .ok .nop ∧ decode 0x00000001#32 = .ok .xor ∧ decode 0x00000002#32 = .ok .frame
    ∧ decode 0x00000003#32 = .ok .unframe ∧ decode 0x00000004#32 = .ok .pack ∧ decode 0x00000005#32 = .ok .unpack
    ∧ decode 0x00000006#32 = .ok .encode ∧ decode 0x00000007#32 = .ok .decode ∧ decode 0x00000008#32 = .ok .move
    ∧ decode 0x00000009#32 = .ok .copy ∧ decode 0x00000010#32 = .ok .hide ∧ decode 0x00000011#32 = .ok .show_
    ∧ decode 0x00000101#32 = .error .reservedBits ∧ decode 0x0000000A#32 = .error (.unassignedOpcode 0x0A#8)

/-- R82 ("Mask 0xFFFF_FFFF selects every row"), R87: a word is a command exactly when it is that command's word, every
bit of it. -/
def Obligations.DecodeInvertsEncode : Prop := ∀ (w : Word) (i : Instr), decode w = .ok i ↔ w = encode i

/-- R81: which words are legal; any other completes with ERR = ILLEGAL. -/
def Obligations.LegalWordsExactly : Prop :=
  ∀ w : Word,
    ((∃ i, decode w = .ok i) ↔
      w.extractLsb' 8 24 = 0#24 ∧ w.extractLsb' 0 8 ∈ [0x00#8, 0x01#8, 0x02#8, 0x03#8, 0x04#8, 0x05#8, 0x06#8, 0x07#8,
        0x08#8, 0x09#8, 0x10#8, 0x11#8])
      ∧ ((¬ ∃ i, decode w = .ok i) →
        ∀ s : State, s.seq = .busy w → ∃ t, engineTurn s = .next t ∧ EndedWith .illegal s t)

/-- R85, R86: an illegal word written to CMD of an idle engine is accepted, sets LASTOP, and completes with
ERR = ILLEGAL, reading and writing nothing else. -/
def Obligations.IllegalWordsAbort : Prop :=
  ∀ (s : State) (addr w : Word) (rest : List Input), s.seq = .idle → hostTarget s.cfg addr = .register 0x00 →
    s.inputs = .access (.write .w32 addr w) :: .engine :: rest →
    (w.extractLsb' 8 24 ≠ 0#24 ∨ (0x0A#8 ≤ w.extractLsb' 0 8 ∧ w.extractLsb' 0 8 ≤ 0x0F#8) ∨ 0x12#8 ≤ w.extractLsb' 0 8) →
    Sys2Proof.core.run 2 s = .next { s with
      inputs := rest, scan := none, reply := .written,
      status := { done := true, found := false, ovr := false, err := .illegal, lastop := w.extractLsb' 0 8, dstate := .none } }

/-! ### Steps (60_exceptions.md R255 to R258; 70_reset_and_hazards.md R291, R292) -/

/-- R255: when the latched word decodes to `i`, the step that completes the command is exec of `i`. It is the next step
when no input is left, or when the next input is the engine's turn (log entries 4 and 13). -/
def Obligations.StepRunsDecodedInstruction : Prop :=
  ∀ (s : State) (w : Word) (i : Instr), s.seq = .busy w → decode w = .ok i →
    (s.inputs = [] → step s = exec i s)
      ∧ ∀ rest, s.inputs = .engine :: rest → step s = exec i { s with inputs := rest }

/-- R70, R255: the state in which a table word has just been accepted runs that word's command in the very next step
(log entry 14). -/
def Obligations.AcceptedTableWordRunsNext : Prop :=
  ∀ (s : State) (nbits w : Nat) (i : Instr), decodeTableWord nbits w = some i →
    step (s.withFetchWord nbits w) = exec i (accept (tableWord nbits w) s)

/-- R293: a step lets the next input happen, and removes it (log entry 4). -/
def Obligations.StepTakesNextInput : Prop :=
  ∀ (s : State) (rest : List Input),
    (∀ a, s.inputs = .access a :: rest → step s = hostAccess a { s with inputs := rest })
      ∧ (s.inputs = .scan :: rest → step s = scanTurn { s with inputs := rest })
      ∧ (s.inputs = .engine :: rest → step s = engineTurn { s with inputs := rest })
      ∧ (s.inputs = .rst :: rest → step s = .next (State.resetWith s.cfg rest))

/-- R270, R284: an idle engine does nothing, whatever turn it is given. -/
def Obligations.IdleEngineWaits : Prop :=
  ∀ s : State, s.seq = .idle →
    engineTurn s = .next s ∧ scanTurn s = .next s ∧ (s.inputs = [] → step s = .next s)

/-- R255: acceptance. That the sequencer holds the whole word (20_memory.md R70), where R255 names only its opcode, is
the model's inference (log entry 3). The last three clauses are 30_encoding.md R81 and R85, and R256. -/
def Obligations.CommandAcceptance : Prop :=
  ∀ (s : State) (addr v : Word) (rest : List Input), s.seq = .idle → hostTarget s.cfg addr = .register 0x00 →
    s.inputs = .access (.write .w32 addr v) :: rest →
    ∃ t, step s = .next t
      ∧ t = { s with
        inputs := rest, seq := .busy v, scan := none, reply := .written,
        status := { done := false, found := false, ovr := false, err := .none, lastop := v.extractLsb' 0 8, dstate := .none } }
      ∧ t.statusWord.getLsbD 0 = true
      ∧ (∀ i, decode v = .ok i → engineTurn t = exec i t)
      ∧ (∀ e, decode v = .error e → ∃ u, engineTurn t = .next u ∧ EndedWith .illegal t u)
      ∧ ∀ v', ∃ u, hostAccess (.write .w32 addr v') t = .next u ∧ u.seq = .busy v

/-- R256: a CMD write while busy is dropped; the running command goes on unaffected; OVR is set until the next
acceptance. -/
def Obligations.CommandWriteWhileBusyDropped : Prop :=
  ∀ (s : State) (w addr v : Word) (rest : List Input), s.seq = .busy w → hostTarget s.cfg addr = .register 0x00 →
    s.inputs = .access (.write .w32 addr v) :: rest →
    ∃ t, step s = .next t ∧ t = { s with inputs := rest, reply := .written, status := { s.status with ovr := true } }
      ∧ ∀ u : State, u.seq = .idle → u.cfg = s.cfg →
        ∀ v', ∃ u', hostAccess (.write .w32 addr v') u = .next u' ∧ u'.status.ovr = false

/-- R291, 93_implementation_defined.md M5: before a DECODE or SHOW that passes its checks completes, DSTATE may read
NONE, and a scan transition makes it read SCANNING (log entry 5). -/
def Obligations.ScanningIsVisible : Prop :=
  ∀ s : State, scanDue s = true → s.scan = none → s.status.dstate = .none →
    s.statusWord.extractLsb' 16 2 = 0#2 ∧ ∃ t, scanTurn s = .next t ∧ t.statusWord.extractLsb' 16 2 = 1#2

/-! ### The host's view (10_state.md, 20_memory.md) -/

/-- 10 R23, R28, 60 R250, 44 R181: where each field of STATUS stands, the codes of ERR and DSTATE, and BUSY as the
sequencer's state. -/
def Obligations.StatusWordFields : Prop :=
  (∀ s : State,
    (s.statusWord.getLsbD 0 = true ↔ s.seq ≠ .idle) ∧ s.statusWord.getLsbD 1 = s.status.done
      ∧ s.statusWord.getLsbD 2 = s.status.found ∧ s.statusWord.getLsbD 3 = s.status.ovr
      ∧ s.statusWord.extractLsb' 4 4 = s.status.err.code ∧ s.statusWord.extractLsb' 8 8 = s.status.lastop
      ∧ s.statusWord.extractLsb' 16 2 = s.status.dstate.code ∧ s.statusWord.extractLsb' 18 14 = 0#14)
    ∧ (ErrCode.none.code = 0#4 ∧ ErrCode.invalidKey.code = 1#4 ∧ ErrCode.capacity.code = 2#4
      ∧ ErrCode.incomplete.code = 3#4 ∧ ErrCode.illegal.code = 4#4 ∧ ErrCode.length.code = 5#4
      ∧ ErrCode.bitAlign.code = 6#4)
    ∧ DState.none.code = 0#2 ∧ DState.scanning.code = 1#2 ∧ DState.done.code = 2#2 ∧ DState.incomplete.code = 3#2

/-- 20 R60: while busy the host reads STATUS, as often as it likes, and writes CMD; every other access is a protocol
violation. -/
def Obligations.AccessWhileBusyFaults : Prop :=
  ∀ (s : State) (word : Word) (w : Width) (addr : Word), s.seq = .busy word →
    ((w = .w32 ∧ hostTarget s.cfg addr = .register 0x04) →
        hostAccess (.read w addr) s = .next { s with reply := .data32 s.statusWord })
      ∧ (¬ (w = .w32 ∧ hostTarget s.cfg addr = .register 0x04) →
        hostAccess (.read w addr) s = .fault (.hostFault .accessWhileBusy addr w))
      ∧ ∀ v, ((w = .w32 ∧ hostTarget s.cfg addr = .register 0x00) →
          ∃ t, hostAccess (.write w addr v) s = .next t)
        ∧ (¬ (w = .w32 ∧ hostTarget s.cfg addr = .register 0x00) →
          hostAccess (.write w addr v) s = .fault (.hostFault .accessWhileBusy addr w))

/-- 20 R57 to R60, 60 R262, R263, 70 R293: while idle, an access of a refused width, alignment or address is BadAccess;
every other write is taken; every other read is answered where the elements it covers are written, and otherwise stops
at one of them that is not. That a 16-bit or misaligned access is refused at unmapped addresses too, of which R58 does
not speak, is the model's inference (log entry 18), and so is that a read stops with UnwrittenRead (log entry 22). The
statement leaves open which of several unwritten elements is named (log entry 9). -/
def Obligations.RefusedAccessIsBadAccess : Prop :=
  ∀ (s : State) (w : Width) (addr : Word), s.seq = .idle →
    (Refused s.cfg w (hostTarget s.cfg addr) →
        hostAccess (.read w addr) s = .fault (.hostFault .badAccess addr w)
          ∧ ∀ v, hostAccess (.write w addr v) s = .fault (.hostFault .badAccess addr w))
      ∧ (¬ Refused s.cfg w (hostTarget s.cfg addr) →
        (∀ v, ∃ t, hostAccess (.write w addr v) s = .next t)
          ∧ ((∀ sp j, Covers w (hostTarget s.cfg addr) sp j → s.mem.Written sp j) →
            ∃ t, hostAccess (.read w addr) s = .next t)
          ∧ ∀ sp j, Covers w (hostTarget s.cfg addr) sp j → ¬ s.mem.Written sp j →
            ∃ j', hostAccess (.read w addr) s = .fault (.unwrittenRead sp j')
              ∧ Covers w (hostTarget s.cfg addr) sp j' ∧ ¬ s.mem.Written sp j')

/-- 20 R52, R53: the address map, as offsets from PLATFORM_BASE; an offset in none of the windows is unmapped, and no
offset is in two. -/
def Obligations.AddressMapWindows : Prop :=
  (∀ off j, target off = .register j ↔ off = j ∧ j < 0x1000)
    ∧ (∀ r ∈ [(Space.pbuf, 0x01000000, 2 ^ 24), (Space.kbuf, 0x02000000, 2 ^ 24), (Space.wbuf, 0x03000000, 2 ^ 24),
        (Space.bbuf, 0x04000000, 2 ^ 24), (Space.obuf, 0x05000000, 2 ^ 24), (Space.src, 0x08000000, 2 ^ 26),
        (Space.dst, 0x0C000000, 2 ^ 26)],
        ∀ off j, target off = .buffer r.1 j ↔ off = r.2.1 + j ∧ j < r.2.2)
    ∧ ∀ (c : Config) (off : Nat), c.platformBase.toNat + off < 2 ^ 32 →
        hostTarget c (c.platformBase + BitVec.ofNat 32 off) = target off

/-- 10 R21, R22, R25, R26, R29: what an idle engine's registers read as. -/
def Obligations.RegisterReads : Prop :=
  ∀ (s : State) (addr : Word), s.seq = .idle →
    (∀ r ∈ [(0x00, 0#32), (0x04, s.statusWord), (0x08, s.width), (0x0C, s.height), (0x10, s.plen), (0x14, s.klen),
        (0x18, s.wlen), (0x1C, s.blen), (0x20, s.olen)],
        hostTarget s.cfg addr = .register r.1 → hostAccess (.read .w32 addr) s = .next { s with reply := .data32 r.2 })
      ∧ ∀ off, 0x24 ≤ off → off % 4 = 0 → hostTarget s.cfg addr = .register off →
        hostAccess (.read .w32 addr) s = .next { s with reply := .data32 0#32 }

/-- 10 R25, R26: every 32-bit value can be written to WIDTH, HEIGHT, PLEN, KLEN, WLEN and BLEN, and nothing else
changes. -/
def Obligations.RegisterWrites : Prop :=
  ∀ (s : State) (addr v : Word), s.seq = .idle →
    ∀ r ∈ [(0x08, { s with width := v }), (0x0C, { s with height := v }), (0x10, { s with plen := v }),
        (0x14, { s with klen := v }), (0x18, { s with wlen := v }), (0x1C, { s with blen := v })],
      hostTarget s.cfg addr = .register r.1 →
        hostAccess (.write .w32 addr v) s = .next { r.2 with reply := .written }

/-- 10 R29: host writes to STATUS, to OLEN and to reserved offsets are ignored and raise no error; reserved offsets read
as 0. -/
def Obligations.ReadOnlyWritesIgnored : Prop :=
  ∀ (s : State) (addr v : Word) (off : Nat), s.seq = .idle → hostTarget s.cfg addr = .register off → off % 4 = 0 →
    off = 0x04 ∨ 0x20 ≤ off →
    hostAccess (.write .w32 addr v) s = .next { s with reply := .written }
      ∧ (0x24 ≤ off → hostAccess (.read .w32 addr) s = .next { s with reply := .data32 0#32 })

/-- 20 R64: a host read changes nothing but what the host gets back, and may be repeated; no host write but one to CMD
starts anything. -/
def Obligations.ReadsHaveNoSideEffect : Prop :=
  (∀ (s t : State) (w : Width) (addr : Word), hostAccess (.read w addr) s = .next t →
      t = { s with reply := t.reply } ∧ hostAccess (.read w addr) t = .next t)
    ∧ ∀ (s t : State) (w : Width) (addr v : Word), hostTarget s.cfg addr ≠ .register 0x00 →
      hostAccess (.write w addr v) s = .next t → t.seq = s.seq ∧ t.status = s.status ∧ t.scan = s.scan

/-- 20 R54, R61, R67, 10 R33, 70 R293: an 8-bit host write of a byte buffer makes that byte written, and only that
byte; an 8-bit read returns the byte of every written element, whoever wrote it, and stops at an unwritten one
(log entry 22). -/
def Obligations.ByteAccessReadsBack : Prop :=
  ∀ (s : State) (addr v : Word) (sp : Space) (off : Nat), s.seq = .idle → sp ∈ [Space.pbuf, .kbuf, .wbuf, .obuf] →
    hostTarget s.cfg addr = .buffer sp off → off < sp.cap s.cfg →
    (∃ t, hostAccess (.write .w8 addr v) s = .next t ∧ t = { s with mem := t.mem, reply := .written }
        ∧ t.mem.byteAt sp off = some (v.extractLsb' 0 8) ∧ s.mem.SameExcept (· = sp.base + off) t.mem
        ∧ hostAccess (.read .w8 addr) t = .next { t with reply := .data8 (v.extractLsb' 0 8) })
      ∧ (∀ b, s.mem.byteAt sp off = some b → hostAccess (.read .w8 addr) s = .next { s with reply := .data8 b })
      ∧ (s.mem.byteAt sp off = none → hostAccess (.read .w8 addr) s = .fault (.unwrittenRead sp off))

/-- 20 R54, R61, R62: a 32-bit host access of a byte buffer covers four elements, least significant byte first. -/
def Obligations.WordAccessIsLittleEndian : Prop :=
  ∀ (s : State) (addr v : Word) (sp : Space) (off : Nat), s.seq = .idle → sp ∈ [Space.pbuf, .kbuf, .wbuf, .obuf] →
    hostTarget s.cfg addr = .buffer sp off → off % 4 = 0 → off + 3 < sp.cap s.cfg →
    (∃ t, hostAccess (.write .w32 addr v) s = .next t ∧ t = { s with mem := t.mem, reply := .written }
        ∧ t.mem.byteAt sp off = some (v.extractLsb' 0 8) ∧ t.mem.byteAt sp (off + 1) = some (v.extractLsb' 8 8)
        ∧ t.mem.byteAt sp (off + 2) = some (v.extractLsb' 16 8) ∧ t.mem.byteAt sp (off + 3) = some (v.extractLsb' 24 8)
        ∧ s.mem.SameExcept (sp.Elems off (off + 4)) t.mem)
      ∧ ∀ b0 b1 b2 b3, s.mem.byteAt sp off = some b0 → s.mem.byteAt sp (off + 1) = some b1 →
        s.mem.byteAt sp (off + 2) = some b2 → s.mem.byteAt sp (off + 3) = some b3 →
        hostAccess (.read .w32 addr) s = .next { s with reply := .data32 (b3 ++ b2 ++ b1 ++ b0) }

/-- 20 R55: BBUF takes 8-bit accesses only; a write keeps bit 0, a read returns the bit. -/
def Obligations.BitBufferHoldsOneBit : Prop :=
  ∀ (s : State) (addr v : Word) (off : Nat), s.seq = .idle → hostTarget s.cfg addr = .buffer .bbuf off →
    off < s.cfg.bMax →
    (∃ t, hostAccess (.write .w8 addr v) s = .next t ∧ t = { s with mem := t.mem, reply := .written }
        ∧ t.mem.bitAt off = some (v.getLsbD 0) ∧ s.mem.SameExcept (· = Space.bbuf.base + off) t.mem)
      ∧ (∀ b, s.mem.bitAt off = some b →
        hostAccess (.read .w8 addr) s = .next { s with reply := .data8 (if b then 1#8 else 0#8) })
      ∧ ∀ w ∈ [Width.w16, Width.w32],
        hostAccess (.read w addr) s = .fault (.hostFault .badAccess addr w)
          ∧ hostAccess (.write w addr v) s = .fault (.hostFault .badAccess addr w)

/-- 20 R56, R61, 10 R32, 70 R293: a pixel word is written once its four lanes B, G, R, X are, lowest address first; a
32-bit access takes the word whole, an 8-bit one a lane. A read of either width answers where the pixel word is written,
and stops where it is not (log entry 22; for a lane the host has written, log entry 10). -/
def Obligations.PixelAccessLanes : Prop :=
  ∀ (s : State) (addr v : Word) (sp : Space) (i : Nat), s.seq = .idle → sp ∈ [Space.src, .dst] → i < s.cfg.pixMax →
    (hostTarget s.cfg addr = .buffer sp (4 * i) →
        ∃ t, hostAccess (.write .w32 addr v) s = .next t ∧ t = { s with mem := t.mem, reply := .written }
          ∧ t.mem.pixelAt sp i = some v ∧ s.mem.SameExcept (sp.Elems i (i + 1)) t.mem
          ∧ hostAccess (.read .w32 addr) t = .next { t with reply := .data32 v })
      ∧ (∀ l < 4, hostTarget s.cfg addr = .buffer sp (4 * i + l) →
        ∃ t, hostAccess (.write .w8 addr v) s = .next t ∧ t = { s with mem := t.mem, reply := .written }
          ∧ t.mem.laneAt sp i l = some (v.extractLsb' 0 8) ∧ s.mem.SameExcept (· = sp.base + 4 * i + l) t.mem)
      ∧ (∀ w, s.mem.pixelAt sp i = some w →
        (hostTarget s.cfg addr = .buffer sp (4 * i) →
            hostAccess (.read .w32 addr) s = .next { s with reply := .data32 w })
          ∧ ∀ l < 4, hostTarget s.cfg addr = .buffer sp (4 * i + l) →
            hostAccess (.read .w8 addr) s = .next { s with reply := .data8 (w.extractLsb' (8 * l) 8) })
      ∧ (s.mem.pixelAt sp i = none →
        (hostTarget s.cfg addr = .buffer sp (4 * i) →
            hostAccess (.read .w32 addr) s = .fault (.unwrittenRead sp i))
          ∧ ∀ l < 4, hostTarget s.cfg addr = .buffer sp (4 * i + l) →
            hostAccess (.read .w8 addr) s = .fault (.unwrittenRead sp i))
      ∧ (s.mem.Written sp i ↔ ∀ l < 4, s.mem.laneAt sp i l ≠ none)
      ∧ ∀ w : Word, s.mem.pixelAt sp i = some w → ∀ l < 4, s.mem.laneAt sp i l = some (w.extractLsb' (8 * l) 8)

/-! ### What each command leaves (40 to 46; 60 R257) -/

/-- 46 R230: NOP. Accepted and completed, it leaves STATUS with DONE and nothing else, and every buffer and register
alone; with any of bits 31:8 set the word is no NOP. -/
def Obligations.NopClearsStatus : Prop :=
  (∀ s : State, ∃ t, exec .nop s = .next t ∧ EndedWith .none s t)
    ∧ (∀ (s : State) (addr : Word) (rest : List Input), s.seq = .idle → hostTarget s.cfg addr = .register 0x00 →
      s.inputs = .access (.write .w32 addr 0x00000000#32) :: .engine :: rest →
      Sys2Proof.core.run 2 s = .next { s with
        inputs := rest, scan := none, reply := .written,
        status := { done := true, found := false, ovr := false, err := .none, lastop := 0x00#8, dstate := .none } })
    ∧ ∀ w : Word, w.extractLsb' 0 8 = 0x00#8 → w.extractLsb' 8 24 ≠ 0#24 → ∃ e, decode w = .error e

/-- 40 R105: XOR leaves `xorT(P, K)` in WBUF and PLEN in WLEN, and changes nothing else. It reads only the key bytes
that matter. -/
def Obligations.XorCiphersPayload : Prop :=
  ∀ (s : State) (p k : List Byte) (hk : 0 < k.length), s.cfg.Valid →
    s.plen.toNat = p.length → p.length ≤ s.cfg.pMax → s.klen.toNat = k.length → k.length ≤ s.cfg.kMax →
    s.mem.HoldsBytes .pbuf p → s.mem.HoldsBytes .kbuf (k.take p.length) →
    ∃ t, exec .xor s = .next t ∧ EndedWith .none { s with mem := t.mem, wlen := s.plen } t
      ∧ t.mem.HoldsBytes .wbuf (xorT p k hk) ∧ s.mem.SameExcept (Space.Elems .wbuf 0 p.length) t.mem

/-- 41 R125: FRAME appends the terminator to WBUF in place. -/
def Obligations.FrameAppendsTerminator : Prop :=
  ∀ (s : State) (d : List Byte), s.cfg.Valid → s.wlen.toNat = d.length → d.length + 3 ≤ s.cfg.wMax →
    (∃ t, exec .frame s = .next t
        ∧ EndedWith .none { s with mem := t.mem, wlen := BitVec.ofNat 32 (d.length + 3) } t
        ∧ t.mem.byteAt .wbuf d.length = some 0x00#8 ∧ t.mem.byteAt .wbuf (d.length + 1) = some 0x00#8
        ∧ t.mem.byteAt .wbuf (d.length + 2) = some 0x03#8
        ∧ s.mem.SameExcept (Space.Elems .wbuf d.length (d.length + 3)) t.mem)
      ∧ ∀ t, exec .frame s = .next t → s.mem.HoldsBytes .wbuf d → t.mem.HoldsBytes .wbuf (frame d)

/-- 41 R131, R123: UNFRAME looks at the bytes of WBUF up to the first terminator, mirrors them into OBUF, and leaves
FOUND and the length before the terminator, or INCOMPLETE and the length of all. -/
def Obligations.UnframeStripsOrReports : Prop :=
  ∀ (s : State) (d : List Byte), s.cfg.Valid → s.wlen.toNat = d.length → d.length ≤ s.cfg.wMax →
    s.mem.HoldsBytes .wbuf (scannedBytes d) →
    (∀ q, unframe d = .found q → ∃ t, exec .unframe s = .next t
        ∧ EndedWith .none { s with
          mem := t.mem, olen := BitVec.ofNat 32 q.length, status := { s.status with found := true } } t
        ∧ t.mem.HoldsBytes .obuf (q ++ [0x00#8, 0x00#8, 0x03#8])
        ∧ s.mem.SameExcept (Space.Elems .obuf 0 (q.length + 3)) t.mem)
      ∧ (unframe d = .incomplete d → ∃ t, exec .unframe s = .next t
        ∧ EndedWith .incomplete { s with mem := t.mem, olen := s.wlen } t
        ∧ t.mem.HoldsBytes .obuf d ∧ s.mem.SameExcept (Space.Elems .obuf 0 d.length) t.mem)

/-- 42 R145: PACK leaves `toBits` of WBUF in BBUF and its length in BLEN. -/
def Obligations.PackSerialisesBits : Prop :=
  ∀ (s : State) (d : List Byte), s.cfg.Valid → s.wlen.toNat = d.length → d.length ≤ s.cfg.wMax →
    s.mem.HoldsBytes .wbuf d →
    ∃ t, exec .pack s = .next t ∧ EndedWith .none { s with mem := t.mem, blen := BitVec.ofNat 32 (8 * d.length) } t
      ∧ t.mem.HoldsBits (toBits d) ∧ s.mem.SameExcept (Space.Elems .bbuf 0 (8 * d.length)) t.mem

/-- 42 R150: UNPACK leaves `fromBits` of BBUF in WBUF and its length in WLEN. -/
def Obligations.UnpackDeserialisesBits : Prop :=
  ∀ (s : State) (b : List Bool), s.cfg.Valid → s.blen.toNat = b.length → b.length ≤ s.cfg.bMax → b.length % 8 = 0 →
    s.mem.HoldsBits b →
    ∃ t, exec .unpack s = .next t ∧ EndedWith .none { s with mem := t.mem, wlen := BitVec.ofNat 32 (b.length / 8) } t
      ∧ t.mem.HoldsBytes .wbuf (fromBits b) ∧ s.mem.SameExcept (Space.Elems .wbuf 0 (b.length / 8)) t.mem

/-- 43 R165, R160, R163: ENCODE leaves `encodeGrid` of SRC and BBUF in DST, where the bits fit the grid. -/
def Obligations.EncodeEmbedsBits : Prop :=
  ∀ (s : State) (px : List Word) (b : List Bool), s.cfg.Valid → px.length = s.width.toNat * s.height.toNat →
    px.length ≤ s.cfg.pixMax → s.blen.toNat = b.length → b.length ≤ s.cfg.bMax → b.length ≤ px.length →
    s.mem.HoldsPixels .src px → s.mem.HoldsBits b →
    ∃ t, exec .encode s = .next t ∧ EndedWith .none { s with mem := t.mem } t
      ∧ t.mem.HoldsPixels .dst (encodeGrid px b) ∧ s.mem.SameExcept (Space.Elems .dst 0 px.length) t.mem

/-- 44 R190, R180, R187: DECODE leaves `decodeGrid` of SRC in OBUF: FOUND and the payload before its terminator, or
INCOMPLETE and every whole byte of the grid. It needs only the pixels up to the terminator written. -/
def Obligations.DecodeRecoversOrReports : Prop :=
  ∀ (s : State) (px : List Word), s.cfg.Valid → s.scan = none → px.length = s.width.toNat * s.height.toNat →
    px.length ≤ s.cfg.pixMax → s.mem.HoldsPixels .src (px.take (pixelsRead px)) →
    (∀ q, decodeGrid px = (q, true) → ∃ t, exec .decode s = .next t
        ∧ EndedWith .none { s with
          mem := t.mem, olen := BitVec.ofNat 32 q.length,
          status := { s.status with found := true, dstate := .done } } t
        ∧ t.mem.HoldsBytes .obuf (q ++ [0x00#8, 0x00#8, 0x03#8])
        ∧ s.mem.SameExcept (Space.Elems .obuf 0 (q.length + 3)) t.mem)
      ∧ ∀ b, decodeGrid px = (b, false) → b.length = px.length / 8 ∧ ∃ t, exec .decode s = .next t
        ∧ EndedWith .incomplete { s with
          mem := t.mem, olen := BitVec.ofNat 32 b.length, status := { s.status with dstate := .incomplete } } t
        ∧ t.mem.HoldsBytes .obuf b ∧ s.mem.SameExcept (Space.Elems .obuf 0 b.length) t.mem

/-- 46 R233: MOVE copies PBUF to WBUF. -/
def Obligations.MoveCopiesPayload : Prop :=
  ∀ (s : State) (p : List Byte), s.cfg.Valid → s.plen.toNat = p.length → p.length ≤ s.cfg.pMax →
    s.mem.HoldsBytes .pbuf p →
    ∃ t, exec .move s = .next t ∧ EndedWith .none { s with mem := t.mem, wlen := s.plen } t
      ∧ t.mem.HoldsBytes .wbuf p ∧ s.mem.SameExcept (Space.Elems .wbuf 0 p.length) t.mem

/-- 46 R236: COPY copies the grid in DST to SRC. -/
def Obligations.CopyMovesGrid : Prop :=
  ∀ (s : State) (px : List Word), s.cfg.Valid → px.length = s.width.toNat * s.height.toNat →
    px.length ≤ s.cfg.pixMax → s.mem.HoldsPixels .dst px →
    ∃ t, exec .copy s = .next t ∧ EndedWith .none { s with mem := t.mem } t
      ∧ t.mem.HoldsPixels .src px ∧ s.mem.SameExcept (Space.Elems .src 0 px.length) t.mem

/-- 45 R210, R218: HIDE leaves `frame(xorT(P, K))` in WBUF, its bits in BBUF, and SRC with those bits embedded in DST. -/
def Obligations.HideEmbedsCipheredPayload : Prop :=
  ∀ (s : State) (p k : List Byte) (hk : 0 < k.length) (px : List Word), s.cfg.Valid →
    s.plen.toNat = p.length → p.length ≤ s.cfg.pMax → s.klen.toNat = k.length → k.length ≤ s.cfg.kMax →
    px.length = s.width.toNat * s.height.toNat → px.length ≤ s.cfg.pixMax → 8 * (p.length + 3) ≤ px.length →
    s.mem.HoldsBytes .pbuf p → s.mem.HoldsBytes .kbuf (k.take p.length) → s.mem.HoldsPixels .src px →
    ∃ t, exec .hide s = .next t
      ∧ EndedWith .none { s with
        mem := t.mem, wlen := BitVec.ofNat 32 (p.length + 3), blen := BitVec.ofNat 32 (8 * (p.length + 3)) } t
      ∧ t.mem.HoldsBytes .wbuf (frame (xorT p k hk)) ∧ t.mem.HoldsBits (toBits (frame (xorT p k hk)))
      ∧ t.mem.HoldsPixels .dst (encodeGrid px (toBits (frame (xorT p k hk))))
      ∧ s.mem.SameExcept (fun a => Space.Elems .wbuf 0 (p.length + 3) a ∨ Space.Elems .bbuf 0 (8 * (p.length + 3)) a
          ∨ Space.Elems .dst 0 px.length a) t.mem

/-- 45 R215: SHOW leaves the payload before the terminator in OBUF, deciphered, and FOUND; or, without a terminator, the
raw bytes and INCOMPLETE. -/
def Obligations.ShowDeciphersOrReports : Prop :=
  ∀ (s : State) (k : List Byte) (hk : 0 < k.length) (px : List Word), s.cfg.Valid → s.scan = none →
    s.klen.toNat = k.length → k.length ≤ s.cfg.kMax →
    px.length = s.width.toNat * s.height.toNat → px.length ≤ s.cfg.pixMax →
    s.mem.HoldsPixels .src (px.take (pixelsRead px)) →
    (∀ q, decodeGrid px = (q, true) → s.mem.HoldsBytes .kbuf (k.take q.length) → ∃ t, exec .show_ s = .next t
        ∧ EndedWith .none { s with
          mem := t.mem, olen := BitVec.ofNat 32 q.length,
          status := { s.status with found := true, dstate := .done } } t
        ∧ t.mem.HoldsBytes .obuf (xorT q k hk ++ [0x00#8, 0x00#8, 0x03#8])
        ∧ s.mem.SameExcept (Space.Elems .obuf 0 (q.length + 3)) t.mem)
      ∧ ∀ b, decodeGrid px = (b, false) → ∃ t, exec .show_ s = .next t
        ∧ EndedWith .incomplete { s with
          mem := t.mem, olen := BitVec.ofNat 32 b.length, status := { s.status with dstate := .incomplete } } t
        ∧ t.mem.HoldsBytes .obuf b ∧ s.mem.SameExcept (Space.Elems .obuf 0 b.length) t.mem

/-! ### Errors, faults and frames (60_exceptions.md; 30_encoding.md R83) -/

/-- 60 R251, R252, R258, R259: the first cause that applies, in the order LENGTH, INVALID_KEY, BITALIGN, CAPACITY, ends
the command with that code, and nothing but STATUS changes. -/
def Obligations.ErrorsAbortWithFirstCause : Prop :=
  ∀ (s : State) (i : Instr),
    (lengthViolated s i = true → ∃ t, exec i s = .next t ∧ EndedWith .length s t)
      ∧ (lengthViolated s i = false → keyEmpty s i = true → ∃ t, exec i s = .next t ∧ EndedWith .invalidKey s t)
      ∧ (lengthViolated s i = false → keyEmpty s i = false → bitsMisaligned s i = true →
        ∃ t, exec i s = .next t ∧ EndedWith .bitAlign s t)
      ∧ (lengthViolated s i = false → keyEmpty s i = false → bitsMisaligned s i = false → overCapacity s i = true →
        ∃ t, exec i s = .next t ∧ EndedWith .capacity s t)

/-- 45 R218 (4): HIDE, on operands that are written, succeeds if and only if its LENGTH and INVALID_KEY checks pass and
the framed payload fits. -/
def Obligations.HideSucceedsIffItFits : Prop :=
  ∀ (s t : State), exec .hide s = .next t →
    (t.status.err = .none ↔
      s.plen.toNat ≤ s.cfg.pMax ∧ s.klen.toNat ≤ s.cfg.kMax ∧ s.width.toNat * s.height.toNat ≤ s.cfg.pixMax
        ∧ 1 ≤ s.klen.toNat ∧ 8 * (s.plen.toNat + 3) ≤ s.width.toNat * s.height.toNat)

/-- 60 R262, 20 R51: a command stops only at an element of a buffer it reads, below that buffer's capacity, that was
unwritten; and no command is refused. -/
def Obligations.FaultsNameUnwrittenElements : Prop :=
  ∀ (s : State) (i : Instr), s.cfg.Valid → s.ScanOk →
    (∀ f, exec i s = .fault f →
        ∃ sp j, f = .unwrittenRead sp j ∧ sp ∈ readsBuffers i ∧ j < sp.cap s.cfg ∧ ¬ s.mem.Written sp j)
      ∧ ∀ r, exec i s ≠ .refused r

/-- 10 R33, 60 R262, 70 R286: a command whose checks pass completes when every element R286 lists for it is written,
and stops at one of them that is unwritten when any is. The clauses after that say where MOVE, XOR, PACK, COPY and ENCODE
stop: that it is at the first unwritten element, and in XOR and ENCODE at the payload byte and the pixel before the key
byte and the bit, is the model's choice (log entry 9). -/
def Obligations.UnwrittenOperandStops : Prop :=
  ∀ s : State, s.cfg.Valid →
    (∀ i : Instr, s.scan = none → firstError s i = none →
        ((∀ sp j, Needs i s sp j → s.mem.Written sp j) → ∃ t, exec i s = .next t)
          ∧ ∀ sp j, Needs i s sp j → ¬ s.mem.Written sp j →
            ∃ sp' j', exec i s = .fault (.unwrittenRead sp' j') ∧ Needs i s sp' j' ∧ ¬ s.mem.Written sp' j')
      ∧ (∀ p : List Byte, s.mem.HoldsBytes .pbuf p → p.length < s.plen.toNat → s.mem.byteAt .pbuf p.length = none →
        s.plen.toNat ≤ s.cfg.pMax →
        exec .move s = .fault (.unwrittenRead .pbuf p.length)
          ∧ ∀ k : List Byte, 0 < k.length → s.klen.toNat = k.length → k.length ≤ s.cfg.kMax →
            s.mem.HoldsBytes .kbuf (k.take p.length) → exec .xor s = .fault (.unwrittenRead .pbuf p.length))
      ∧ (∀ d : List Byte, s.mem.HoldsBytes .wbuf d → d.length < s.wlen.toNat → s.mem.byteAt .wbuf d.length = none →
        s.wlen.toNat ≤ s.cfg.wMax → exec .pack s = .fault (.unwrittenRead .wbuf d.length))
      ∧ (∀ px : List Word, s.mem.HoldsPixels .dst px → px.length < s.width.toNat * s.height.toNat →
        s.mem.pixelAt .dst px.length = none → s.width.toNat * s.height.toNat ≤ s.cfg.pixMax →
        exec .copy s = .fault (.unwrittenRead .dst px.length))
      ∧ ∀ (px : List Word) (b : List Bool), s.mem.HoldsPixels .src px → s.mem.HoldsBits b →
        px.length < s.width.toNat * s.height.toNat → s.mem.pixelAt .src px.length = none →
        s.width.toNat * s.height.toNat ≤ s.cfg.pixMax → s.blen.toNat = b.length → b.length ≤ s.cfg.bMax →
        b.length ≤ s.width.toNat * s.height.toNat →
        exec .encode s = .fault (.unwrittenRead .src px.length)

/-- 30 R83, 10 R21: a command never writes WIDTH, HEIGHT, PLEN or KLEN; only XOR, MOVE, FRAME, UNPACK and HIDE write
WLEN, only PACK and HIDE BLEN, only UNFRAME, DECODE and SHOW OLEN; the parameters, the inputs to come and what the host
last got back are no command's. -/
def Obligations.RegisterFrame : Prop :=
  ∀ (s t : State) (i : Instr), exec i s = .next t →
    t.width = s.width ∧ t.height = s.height ∧ t.plen = s.plen ∧ t.klen = s.klen
      ∧ (i ∉ [Instr.xor, .move, .frame, .unpack, .hide] → t.wlen = s.wlen)
      ∧ (i ∉ [Instr.pack, .hide] → t.blen = s.blen)
      ∧ (i ∉ [Instr.unframe, .decode, .show_] → t.olen = s.olen)
      ∧ t.cfg = s.cfg ∧ t.inputs = s.inputs ∧ t.reply = s.reply

/-- 30 R83, 43 R163, 20 R72: a command changes no byte outside the elements its rule writes, whose addresses `MayWrite`
computes from the registers; one that raises changes none. -/
def Obligations.MemoryFrame : Prop :=
  ∀ (s t : State) (i : Instr), s.cfg.Valid → s.ScanOk → exec i s = .next t →
    s.mem.SameExcept (MayWrite i s t) t.mem ∧ (firstError s i ≠ none → t.mem = s.mem)

/-- 10 R24, 60 R250, R257, R258: what the end of a command writes of STATUS. BUSY is 0 and DONE 1; LASTOP and OVR stay;
only UNFRAME, DECODE and SHOW write FOUND or report INCOMPLETE; only DECODE and SHOW write DSTATE; a command whose checks
pass reports NONE or INCOMPLETE. -/
def Obligations.StatusFrame : Prop :=
  ∀ (s t : State) (i : Instr), exec i s = .next t →
    t.seq = .idle ∧ t.scan = none ∧ t.status.done = true ∧ t.status.lastop = s.status.lastop
      ∧ t.status.ovr = s.status.ovr
      ∧ (i ∉ [Instr.unframe, .decode, .show_] → t.status.found = s.status.found ∧ t.status.err ≠ .incomplete)
      ∧ (i ∉ [Instr.decode, .show_] → t.status.dstate = s.status.dstate)
      ∧ (firstError s i = none → t.status.err = .none ∨ t.status.err = .incomplete)
      ∧ t.status.err ≠ .illegal

/-- 10 R30: no command reads STATUS: from any other STATUS it leaves the same registers, buffers and error, or stops at
the same fault. -/
def Obligations.CommandsIgnoreStatus : Prop :=
  ∀ (s : State) (i : Instr) (st : Status),
    (∀ t, exec i s = .next t →
        ∃ u, exec i { s with status := st } = .next u ∧ u = { t with status := u.status }
          ∧ u.status.err = t.status.err)
      ∧ ∀ f, exec i s = .fault f → exec i { s with status := st } = .fault f

/-! ### The units' functions (40 to 44) -/

/-- 40 R100: the transform, byte by byte. -/
def Obligations.XorTransformBytes : Prop :=
  ∀ (d k : List Byte) (hk : 0 < k.length), (xorT d k hk).length = d.length
    ∧ ∀ (i : Nat) (hi : i < d.length),
      (xorT d k hk)[i]? = some (d[i] ^^^ k[i % k.length]'(Nat.mod_lt i hk))

/-- 40 R102: the transform is its own inverse. -/
def Obligations.XorTransformSelfInverse : Prop :=
  ∀ (d k : List Byte) (hk : 0 < k.length), xorT (xorT d k hk) k hk = d

/-- 41 R122: `unframe` returns the bytes before the first `j` at which the last three are the terminator; with no such
`j`, all the bytes. -/
def Obligations.UnframeFirstMatch : Prop :=
  ∀ s : List Byte,
    (∀ q, unframe s = .found q ↔
        ∃ j, j < s.length ∧ 2 ≤ j ∧ s[j - 2]? = some 0x00#8 ∧ s[j - 1]? = some 0x00#8 ∧ s[j]? = some 0x03#8
          ∧ q = s.take (j - 2)
          ∧ ∀ j', j' < j → ¬ (2 ≤ j' ∧ s[j' - 2]? = some 0x00#8 ∧ s[j' - 1]? = some 0x00#8 ∧ s[j']? = some 0x03#8))
      ∧ ∀ q, unframe s = .incomplete q ↔
        q = s ∧ ∀ j, j < s.length →
          ¬ (2 ≤ j ∧ s[j - 2]? = some 0x00#8 ∧ s[j - 1]? = some 0x00#8 ∧ s[j]? = some 0x03#8)

/-- 41 R124, R121: the framing law, with `q0` the least index at which the terminator occurs in `p`, or `|p|`. -/
def Obligations.FramingLaw : Prop :=
  ∀ p : List Byte, frame p = p ++ [0x00#8, 0x00#8, 0x03#8]
    ∧ (∀ q0, (q0 + 3 ≤ p.length ∧ (p.drop q0).take 3 = [0x00#8, 0x00#8, 0x03#8] ∨ q0 = p.length) →
      (∀ q, q < q0 → (p.drop q).take 3 ≠ [0x00#8, 0x00#8, 0x03#8]) → unframe (frame p) = .found (p.take q0))
    ∧ (unframe (frame p) = .found p ↔ ∀ q, (p.drop q).take 3 ≠ [0x00#8, 0x00#8, 0x03#8])

/-- 42 R140, R141, 20 R63: bit `8i + t` of `toBits(d)` is bit `7 - t` of byte `i`; byte `j` of `fromBits(b)` is the sum of
its eight bits, the first weighted 128; UNPACK refuses a length that is no multiple of 8. -/
def Obligations.BitOrder : Prop :=
  (∀ d : List Byte, (toBits d).length = 8 * d.length
      ∧ ∀ (i t : Nat) (hi : i < d.length), t < 8 → (toBits d)[8 * i + t]? = some (d[i].getLsbD (7 - t)))
    ∧ (∀ b : List Bool, b.length % 8 = 0 → (fromBits b).length = b.length / 8
      ∧ ∀ j, j < b.length / 8 →
        ((fromBits b)[j]?.map BitVec.toNat)
          = some (((List.range 8).map (fun t => if b[8 * j + t]? = some true then 2 ^ (7 - t) else 0)).sum))
    ∧ ∀ s : State, s.blen.toNat ≤ s.cfg.bMax → s.blen.toNat % 8 ≠ 0 →
      ∃ t, exec .unpack s = .next t ∧ EndedWith .bitAlign s t

/-- 42 R142: the laws of `toBits` and `fromBits`. -/
def Obligations.BitRoundTrip : Prop :=
  (∀ d : List Byte, fromBits (toBits d) = d)
    ∧ (∀ b : List Bool, b.length % 8 = 0 → toBits (fromBits b) = b)
    ∧ (∀ d e : List Byte, toBits (d ++ e) = toBits d ++ toBits e)
    ∧ (∀ a b : List Bool, a.length % 8 = 0 → b.length % 8 = 0 → fromBits (a ++ b) = fromBits a ++ fromBits b)
    ∧ ∀ p : List Byte, (toBits (frame p)).length = 8 * (p.length + 3)
      ∧ (toBits (frame p)).drop (8 * p.length) = List.replicate 22 false ++ [true, true]

/-- 43 R161, R162: embedding sets bit 0 of the pixel word to the bit and leaves the 31 others, so R, G, X and the rest
of the blue channel are unchanged; pixels past the bits are copied. -/
def Obligations.EmbedChangesOnlyLowBit : Prop :=
  ∀ (src : List Word) (bits : List Bool), bits.length ≤ src.length → (encodeGrid src bits).length = src.length
    ∧ (∀ (p : Nat) (hp : p < bits.length) (hs : p < src.length),
      ∃ w, (encodeGrid src bits)[p]? = some w ∧ w.getLsbD 0 = bits[p]
        ∧ (∀ n, 1 ≤ n → w.getLsbD n = src[p].getLsbD n) ∧ (src[p].getLsbD 0 = bits[p] → w = src[p]))
    ∧ ∀ p, bits.length ≤ p → (encodeGrid src bits)[p]? = src[p]?

/-- 44 R188: the scan of R182 to R186 ends within N + 1 steps, and its result is `decodeGrid`. -/
def Obligations.ScanComputesDecodeGrid : Prop :=
  ∀ (s : State) (px : List Word) (fuel : Nat), s.cfg.Valid → px.length = s.width.toNat * s.height.toNat →
    px.length ≤ s.cfg.pixMax → s.mem.HoldsPixels .src (px.take (pixelsRead px)) → px.length + 1 ≤ fuel →
    ∃ S m, scanLoop s.width.toNat (s.width.toNat * s.height.toNat) fuel Scan.start s.mem
        = .ok ((decodeGrid px).2, S, m)
      ∧ decodeGrid px = (if (decodeGrid px).2 then (S.take (S.length - 3), true) else (S, false))
      ∧ m.HoldsBytes .obuf S

/-- 44 R187: a DECODE or SHOW gives the same result, or the same model fault, whatever stands in the pixels after the
terminator, and whether they are written. -/
def Obligations.PixelsAfterTerminatorUnread : Prop :=
  ∀ (s : State) (m' : Memory) (px : List Word) (i : Instr), i ∈ [Instr.decode, .show_] → s.cfg.Valid → s.scan = none →
    px.length = s.width.toNat * s.height.toNat → px.length ≤ s.cfg.pixMax →
    s.mem.HoldsPixels .src (px.take (pixelsRead px)) →
    s.mem.SameExcept (Space.Elems .src (pixelsRead px) s.cfg.pixMax) m' →
    (∀ t, exec i s = .next t → ∃ t', exec i { s with mem := m' } = .next t' ∧ t' = { t with mem := t'.mem }
        ∧ t.mem.SameExcept (Space.Elems .src (pixelsRead px) s.cfg.pixMax) t'.mem)
      ∧ ∀ f, exec i s = .fault f → exec i { s with mem := m' } = .fault f

/-! ### The composite datapaths (45_composite.md) -/

/-- 45 R211: without an error HIDE leaves the buffers and lengths as XOR, FRAME, PACK and ENCODE would; on CAPACITY it
leaves them alone, where the sequence has written WBUF and BBUF before ENCODE reports CAPACITY. -/
def Obligations.HideIsComponentSequence : Prop :=
  (∀ s t : State, s.cfg.Valid → firstError s .hide = none → exec .hide s = .next t →
      ∃ t1 t2 t3 t4, exec .xor (accept (encode .xor) s) = .next t1 ∧ exec .frame (accept (encode .frame) t1) = .next t2
        ∧ exec .pack (accept (encode .pack) t2) = .next t3 ∧ exec .encode (accept (encode .encode) t3) = .next t4
        ∧ t4.mem = t.mem ∧ t4.wlen = t.wlen ∧ t4.blen = t.blen ∧ t4.status.err = .none)
    ∧ ∀ s t1 t2 t3 : State, s.cfg.Valid → firstError s .hide = some .capacity →
      exec .xor (accept (encode .xor) s) = .next t1 → exec .frame (accept (encode .frame) t1) = .next t2 →
      exec .pack (accept (encode .pack) t2) = .next t3 →
      (∃ t, exec .hide s = .next t ∧ EndedWith .capacity s t)
        ∧ t1.status.err = .none ∧ t2.status.err = .none ∧ t3.status.err = .none
        ∧ (∀ j, j < s.plen.toNat + 3 → t3.mem.Written .wbuf j)
        ∧ (∀ j, j < 8 * (s.plen.toNat + 3) → t3.mem.Written .bbuf j)
        ∧ ∃ t4, exec .encode (accept (encode .encode) t3) = .next t4
          ∧ EndedWith .capacity (accept (encode .encode) t3) t4

/-- 45 R218 (1), 30 R89: RUN HIDE, RUN COPY, RUN SHOW, however often the host polls in each, gives back the payload up to
the first terminator in its ciphertext. The premise on PLATFORM_BASE puts the register window inside the host's address
space (log entry 11). The run takes no scan turn between the polls, so DSTATE reads NONE there (log entry 23). -/
def Obligations.KeyedRoundTrip : Prop :=
  ∀ (s : State) (p k : List Byte) (hk : 0 < k.length) (px : List Word) (n1 n2 n3 : Nat) (rest : List Input),
    s.cfg.Valid → s.cfg.platformBase.toNat + 0x1000 ≤ 2 ^ 32 → s.seq = .idle →
    s.plen.toNat = p.length → p.length ≤ s.cfg.pMax → s.klen.toNat = k.length → k.length ≤ s.cfg.kMax →
    px.length = s.width.toNat * s.height.toNat → px.length ≤ s.cfg.pixMax → 8 * (p.length + 3) ≤ px.length →
    s.mem.HoldsBytes .pbuf p → s.mem.HoldsBytes .kbuf (k.take p.length) → s.mem.HoldsPixels .src px →
    s.inputs = asmRun s.cfg n1 .hide ++ asmRun s.cfg n2 .copy ++ asmRun s.cfg n3 .show_ ++ rest →
    ∃ t, Sys2Proof.core.run (n1 + n2 + n3 + 9) s = .next t ∧ t.inputs = rest ∧ t.seq = .idle
      ∧ t.status.found = true ∧ t.status.err = .none ∧ t.olen.toNat = terminatorIndex (xorT p k hk)
      ∧ t.mem.HoldsBytes .obuf (p.take (terminatorIndex (xorT p k hk))) ∧ t.reply = .data32 t.statusWord

/-- 45 R218 (2), 30 R89: HIDEPLAIN, RUN COPY, RUN DECODE, however often the host polls in each of the six WAITs, gives back
the payload up to the first terminator in it. The premise on PLATFORM_BASE is as above (log entry 11), and no scan turn
comes between the polls here either (log entry 23). -/
def Obligations.UnkeyedRoundTrip : Prop :=
  ∀ (s : State) (p : List Byte) (px : List Word) (n1 n2 n3 n4 n5 n6 : Nat) (rest : List Input),
    s.cfg.Valid → s.cfg.platformBase.toNat + 0x1000 ≤ 2 ^ 32 → s.seq = .idle →
    s.plen.toNat = p.length → p.length ≤ s.cfg.pMax →
    px.length = s.width.toNat * s.height.toNat → px.length ≤ s.cfg.pixMax → 8 * (p.length + 3) ≤ px.length →
    s.mem.HoldsBytes .pbuf p → s.mem.HoldsPixels .src px →
    s.inputs = asmHideplain s.cfg n1 n2 n3 n4 ++ asmRun s.cfg n5 .copy ++ asmRun s.cfg n6 .decode ++ rest →
    ∃ t, Sys2Proof.core.run (n1 + n2 + n3 + n4 + n5 + n6 + 18) s = .next t ∧ t.inputs = rest ∧ t.seq = .idle
      ∧ t.status.found = true ∧ t.status.err = .none ∧ t.olen.toNat = terminatorIndex p
      ∧ t.mem.HoldsBytes .obuf (p.take (terminatorIndex p)) ∧ t.reply = .data32 t.statusWord

/-! ### The whole machine -/

/-- 70 R280, R281, 10 R21, R28: what reset leaves, whatever the parameters are. -/
def Obligations.ResetState : Prop :=
  ∀ s : State, (s = State.reset ∨ ∃ c inp, s = State.resetWith c inp) →
    s.width = 0 ∧ s.height = 0 ∧ s.plen = 0 ∧ s.klen = 0 ∧ s.wlen = 0 ∧ s.blen = 0 ∧ s.olen = 0
      ∧ s.statusWord = 0x00000000#32 ∧ s.seq = .idle
      ∧ s.status = { done := false, found := false, ovr := false, err := .none, lastop := 0x00#8, dstate := .none }
      ∧ ∀ sp j, ¬ s.mem.Written sp j

/-- The invariant holds after reset: for every valid choice of the parameters, and so for the one `State.reset` takes
(log entry 1). -/
def Obligations.InvariantAtReset : Prop :=
  State.reset = State.resetWith defaultConfig [] ∧ State.reset.Inv ∧ ∀ (c : Config) (inp : List Input), c.Valid → (State.resetWith c inp).Inv

/-- Every step keeps the invariant: the memory canonical, every written byte an element's, one bit in each byte of BBUF
(20 R51, R55, R58); the fields of STATUS going together as 10 R23, R24 and 44 R181 say; the scan's cursor inside the
grid, its bytes mirrored in OBUF and free of the terminator (10 R34). -/
def Obligations.InvariantKept : Prop := ∀ s t : State, s.Inv → step s = .next t → t.Inv

/-- 44 R188, 70 R291: scan transitions before completion change nothing of what completion answers (log entry 5). -/
def Obligations.ScanTurnsInvisible : Prop :=
  ∀ s : State, s.Inv →
    (∀ t, scanTurn s = .next t → engineTurn t = engineTurn s)
      ∧ ∀ f, scanTurn s = .fault f → engineTurn s = .fault f

/-- 70 R290, R292, 60 R257, R258: the engine's turn ends the running command, with BUSY = 0 and DONE = 1, or stops at an
unwritten element of a buffer that command reads. -/
def Obligations.RunningCommandCompletes : Prop :=
  ∀ (s : State) (w : Word), s.Inv → s.seq = .busy w →
    (∃ t, engineTurn s = .next t ∧ t.statusWord.getLsbD 0 = false ∧ t.statusWord.getLsbD 1 = true)
      ∨ ∃ i sp j, decode w = .ok i ∧ engineTurn s = .fault (.unwrittenRead sp j) ∧ sp ∈ readsBuffers i
        ∧ j < sp.cap s.cfg ∧ ¬ s.mem.Written sp j

end
end

