-- ==== Sys2Proof/Laws/Memory.lean ====
section
/-! SUPPORT. Memory: reads after writes, the canonical form, and what a sequence of writes can do. -/

namespace Sys2Proof.Machine

theorem Memory.read_write_same (m : Memory) (a : Nat) (b : Byte) : (m.write a b).read a = some b := by
  induction m with
  | nil => simp [Memory.write, Memory.read]
  | cons c rest ih =>
    obtain ⟨k, v⟩ := c
    simp only [Memory.write]
    split
    · simp [Memory.read]
    · split
      · simp [Memory.read]
      · simp [Memory.read, *]

theorem Memory.read_write_ne (m : Memory) {a a' : Nat} (b : Byte) (h : a' ≠ a) :
    (m.write a b).read a' = m.read a' := by
  induction m with
  | nil => simp [Memory.write, Memory.read, h]
  | cons c rest ih =>
    obtain ⟨k, v⟩ := c
    simp only [Memory.write]
    split
    · simp [Memory.read, h]
    · split
      · subst_vars; simp [Memory.read, h]
      · simp [Memory.read, ih]

theorem Memory.read_write (m : Memory) (a a' : Nat) (b : Byte) :
    (m.write a b).read a' = if a' = a then some b else m.read a' := by
  split
  · subst_vars; exact m.read_write_same _ b
  · exact m.read_write_ne b ‹_›

/-- A cell of the memory after a write is the one written or was there before. -/
theorem Memory.mem_write {m : Memory} {a : Nat} {b : Byte} {c : Host.Cell} (h : c ∈ m.write a b) :
    c = (a, b) ∨ c ∈ m := by
  induction m with
  | nil => simpa [Memory.write] using h
  | cons d rest ih =>
    obtain ⟨k, v⟩ := d
    simp only [Memory.write] at h
    split at h
    · simpa using h
    · split at h
      · rcases List.mem_cons.1 h with h | h
        · exact .inl h
        · exact .inr (List.mem_cons_of_mem _ h)
      · rcases List.mem_cons.1 h with h | h
        · exact .inr (by simp [h])
        · exact (ih h).imp_right (List.mem_cons_of_mem _)

theorem Memory.wf_nil : Memory.wf [] := List.Pairwise.nil

/-- Every write keeps the canonical form. -/
theorem Memory.wf_write {m : Memory} (h : m.wf) (a : Nat) (b : Byte) : (m.write a b).wf := by
  induction m with
  | nil => simp [Memory.write, Memory.wf]
  | cons c rest ih =>
    obtain ⟨k, v⟩ := c
    obtain ⟨h1, h2⟩ := List.pairwise_cons.1 h
    simp only [Memory.write]
    split
    · refine List.pairwise_cons.2 ⟨fun c hc => ?_, h⟩
      rcases List.mem_cons.1 hc with rfl | hc
      · assumption
      · exact Nat.lt_trans ‹a < k› (h1 c hc)
    · split
      · subst_vars; exact List.pairwise_cons.2 ⟨h1, h2⟩
      · refine List.pairwise_cons.2 ⟨fun c hc => ?_, ih h2⟩
        rcases Memory.mem_write hc with rfl | hc
        · show k < a; omega
        · exact h1 c hc

/-- Two memories in canonical form that read the same everywhere are the same data. -/
theorem Memory.ext_of_wf {m m' : Memory} (h : m.wf) (h' : m'.wf) (hr : ∀ a, m.read a = m'.read a) : m = m' := by
  have above : ∀ {l : Memory} {a : Nat}, (∀ c ∈ l, a < c.1) → l.read a = none := by
    intro l a hl
    induction l with
    | nil => rfl
    | cons c rest ih =>
      have := hl c (by simp)
      simp only [Memory.read, if_neg (Nat.ne_of_lt this)]
      exact ih fun c hc => hl c (List.mem_cons_of_mem _ hc)
  induction m generalizing m' with
  | nil =>
    cases m' with
    | nil => rfl
    | cons c rest => have := hr c.1; simp [Memory.read] at this
  | cons c rest ih =>
    obtain ⟨k, v⟩ := c
    obtain ⟨h1, h2⟩ := List.pairwise_cons.1 h
    cases m' with
    | nil => have := hr k; simp [Memory.read] at this
    | cons c' rest' =>
      obtain ⟨k', v'⟩ := c'
      obtain ⟨h1', h2'⟩ := List.pairwise_cons.1 h'
      have hk : k = k' := by
        by_contra hne
        rcases Nat.lt_or_gt_of_ne hne with hlt | hlt
        · have := hr k
          simp only [Memory.read, if_true, if_neg hne] at this
          rw [above (fun c hc => Nat.lt_trans hlt (h1' c hc))] at this
          cases this
        · have := hr k'
          simp only [Memory.read, if_true, if_neg (Ne.symm hne)] at this
          rw [above (fun c hc => Nat.lt_trans hlt (h1 c hc))] at this
          cases this
      subst hk
      have hv : v = v' := by have := hr k; simpa [Memory.read] using this
      subst hv
      refine congrArg _ (ih h2 h2' fun a => ?_)
      by_cases ha : a = k
      · subst ha; rw [above h1, above h1']
      · simpa [Memory.read, ha] using hr a

/-! ### Sequences of writes -/

/-- `m'` comes from `m` by writes of bytes that `R` allows at their addresses. -/
inductive Writes (R : Nat → Byte → Prop) (m : Memory) : Memory → Prop where
  | refl : Writes R m m
  | step {m' : Memory} {a : Nat} {b : Byte} : Writes R m m' → R a b → Writes R m (m'.write a b)

theorem Writes.trans {R : Nat → Byte → Prop} {m m' m'' : Memory} (h : Writes R m m') (h' : Writes R m' m'') :
    Writes R m m'' := by
  induction h' with
  | refl => exact h
  | step _ hr ih => exact .step ih hr

theorem Writes.one {R : Nat → Byte → Prop} {m : Memory} {a : Nat} {b : Byte} (h : R a b) : Writes R m (m.write a b) :=
  .step .refl h

theorem Writes.mono {R Q : Nat → Byte → Prop} {m m' : Memory} (h : Writes R m m') (hq : ∀ a b, R a b → Q a b) :
    Writes Q m m' := by
  induction h with
  | refl => exact .refl
  | step _ hr ih => exact .step ih (hq _ _ hr)

/-- A sequence of writes leaves every other address as it was. -/
theorem Writes.same {R : Nat → Byte → Prop} {P : Nat → Prop} {m m' : Memory} (h : Writes R m m')
    (hp : ∀ a b, R a b → P a) : m.SameExcept P m' := by
  induction h with
  | refl => exact fun _ _ => rfl
  | @step m' a b _ hr ih =>
    intro x hx
    rw [Memory.read_write_ne _ _ (by rintro rfl; exact hx (hp _ _ hr)), ih x hx]

theorem Writes.wf {R : Nat → Byte → Prop} {m m' : Memory} (h : Writes R m m') (hm : m.wf) : m'.wf := by
  induction h with
  | refl => exact hm
  | step _ _ ih => exact Memory.wf_write ih _ _

/-- Every cell after a sequence of writes was there before or is allowed by `R`. -/
theorem Writes.cells {R : Nat → Byte → Prop} {m m' : Memory} (h : Writes R m m') {c : Host.Cell} (hc : c ∈ m') :
    c ∈ m ∨ R c.1 c.2 := by
  induction h with
  | refl => exact .inl hc
  | step _ hr ih =>
    rcases Memory.mem_write hc with rfl | hc
    · exact .inr hr
    · exact ih hc

end Sys2Proof.Machine
end

