-- ==== Sys2Proof/Laws/Loop.lean ====
section
/-! SUPPORT. The ascending loop and the shape of a command: what each can answer. -/

namespace Sys2Proof.Machine

variable {α β ε : Type}

@[simp] theorem ok_bind (a : α) (f : α → Except ε β) : (Except.ok a >>= f) = f a := rfl
@[simp] theorem error_bind (e : ε) (f : α → Except ε β) : ((Except.error e : Except ε α) >>= f) = .error e := rfl

theorem bind_eq_ok {x : Except ε α} {f : α → Except ε β} {b : β} :
    (x >>= f) = .ok b ↔ ∃ a, x = .ok a ∧ f a = .ok b := by
  cases x <;> simp

theorem bind_eq_error {x : Except ε α} {f : α → Except ε β} {e : ε} :
    (x >>= f) = .error e ↔ x = .error e ∨ ∃ a, x = .ok a ∧ f a = .error e := by
  cases x <;> simp

theorem loopFrom_succ (f : Nat → α → Except Fault α) (n i : Nat) (a : α) :
    loopFrom f (n + 1) i a = (loopFrom f n i a >>= f (i + n)) := by
  induction n generalizing i a with
  | zero => simp only [loopFrom, ok_bind, Nat.add_zero]; cases f i a <;> rfl
  | succ n ih =>
    have e : i + 1 + n = i + (n + 1) := by omega
    calc loopFrom f (n + 1 + 1) i a = (f i a >>= loopFrom f (n + 1) (i + 1)) := rfl
      _ = (f i a >>= fun b => loopFrom f n (i + 1) b >>= f (i + (n + 1))) := by
        congr 1; funext b; rw [ih, e]
      _ = (loopFrom f (n + 1) i a >>= f (i + (n + 1))) := by
        rw [loopFrom]; cases f i a <;> rfl

@[simp] theorem loop_zero (f : Nat → α → Except Fault α) (a : α) : loop 0 f a = .ok a := rfl

/-- A loop of one more round runs the shorter loop and then that round. -/
theorem loop_succ (f : Nat → α → Except Fault α) (n : Nat) (a : α) :
    loop (n + 1) f a = (loop n f a >>= f n) := by
  simp [loop, loopFrom_succ]

/-- What a loop answers: if every round goes from `P i` to `P (i+1)`, the loop runs through and ends in `P n`. -/
theorem loop_total {P : Nat → α → Prop} {f : Nat → α → Except Fault α} {a : α} (n : Nat) (h0 : P 0 a)
    (hs : ∀ i b, i < n → P i b → ∃ c, f i b = .ok c ∧ P (i + 1) c) : ∃ b, loop n f a = .ok b ∧ P n b := by
  induction n with
  | zero => exact ⟨a, rfl, h0⟩
  | succ n ih =>
    obtain ⟨b, hb, hP⟩ := ih fun i c hi => hs i c (by omega)
    obtain ⟨c, hc, hP'⟩ := hs n b (by omega) hP
    exact ⟨c, by rw [loop_succ, hb, ok_bind, hc], hP'⟩

/-- If a loop runs through, every property its rounds keep holds at its end. -/
theorem loop_inv {P : Nat → α → Prop} {f : Nat → α → Except Fault α} {a b : α} {n : Nat} (h : loop n f a = .ok b)
    (h0 : P 0 a) (hs : ∀ i c d, i < n → P i c → f i c = .ok d → P (i + 1) d) : P n b := by
  induction n generalizing b with
  | zero => cases h; exact h0
  | succ n ih =>
    rw [loop_succ, bind_eq_ok] at h
    obtain ⟨c, hc, hb⟩ := h
    exact hs n c b (by omega) (ih hc fun i c d hi => hs i c d (by omega)) hb

/-- If a loop stops at a fault, one of its rounds raised it, after earlier rounds that ran through. -/
theorem loop_error {f : Nat → α → Except Fault α} {a : α} {n : Nat} {e : Fault} (h : loop n f a = .error e) :
    ∃ i b, i < n ∧ loop i f a = .ok b ∧ f i b = .error e := by
  induction n with
  | zero => cases h
  | succ n ih =>
    rw [loop_succ, bind_eq_error] at h
    rcases h with h | ⟨b, hb, he⟩
    · obtain ⟨i, b, hi, h⟩ := ih h
      exact ⟨i, b, by omega, h⟩
    · exact ⟨n, b, by omega, hb, he⟩

/-- A loop whose first `j` rounds run through and whose round `j` faults answers that fault. -/
theorem loop_fault {f : Nat → α → Except Fault α} {a b : α} {n j : Nat} {e : Fault} (hj : j < n)
    (h : loop j f a = .ok b) (he : f j b = .error e) : loop n f a = .error e := by
  induction n with
  | zero => omega
  | succ n ih =>
    rw [loop_succ]
    rcases Nat.lt_succ_iff_lt_or_eq.1 hj with h' | rfl
    · rw [ih h', error_bind]
    · rw [h, ok_bind, he]

/-- If a loop runs through, so did each of its rounds. -/
theorem loop_round {f : Nat → α → Except Fault α} {a b : α} {n i : Nat} (h : loop n f a = .ok b) (hi : i < n) :
    ∃ c d, loop i f a = .ok c ∧ f i c = .ok d := by
  induction n generalizing b with
  | zero => omega
  | succ n ih =>
    rw [loop_succ, bind_eq_ok] at h
    obtain ⟨c, hc, hb⟩ := h
    rcases Nat.lt_succ_iff_lt_or_eq.1 hi with h | rfl
    · exact ih hc h
    · exact ⟨c, b, hc, hb⟩

/-- If a loop over memory runs through and each of its rounds only makes allowed writes, so does the loop. -/
theorem loop_writes {R : Nat → Byte → Prop} {f : Nat → Memory → Except Fault Memory} {m m' : Memory} {n : Nat}
    (h : loop n f m = .ok m') (hf : ∀ i m m', i < n → f i m = .ok m' → Writes R m m') : Writes R m m' :=
  loop_inv (P := fun _ m' => Writes R m m') h .refl fun _ _ _ hi hP hd => hP.trans (hf _ _ _ hi hd)

/-- What a command answers: it raises its check's error, completes in its body's state, or stops at its body's fault. -/
theorem command_cases (check : Option ErrCode) (body : State → Except Fault State) (s : State) :
    (∃ e, check = some e ∧ command check body s = .next (endWith e s))
      ∨ (check = none ∧ ∃ t, body s = .ok t ∧ command check body s = .next t)
      ∨ (check = none ∧ ∃ f, body s = .error f ∧ command check body s = .fault f) := by
  cases check with
  | some e => exact .inl ⟨e, rfl, rfl⟩
  | none =>
    cases h : body s with
    | ok t => exact .inr (.inl ⟨rfl, t, rfl, by simp [command, h]⟩)
    | error f => exact .inr (.inr ⟨rfl, f, rfl, by simp [command, h]⟩)

theorem command_next {check : Option ErrCode} {body : State → Except Fault State} {s t : State} :
    command check body s = .next t ↔ (∃ e, check = some e ∧ t = endWith e s) ∨ check = none ∧ body s = .ok t := by
  cases check with
  | some e => simp [command, eq_comm, raise]
  | none => cases h : body s <;> simp [command, h, eq_comm]

theorem command_fault {check : Option ErrCode} {body : State → Except Fault State} {s : State} {f : Fault} :
    command check body s = .fault f ↔ check = none ∧ body s = .error f := by
  cases check with
  | some e => simp [command]
  | none => cases h : body s <;> simp [command, h]

/-- A command answers no refusal. -/
theorem command_not_refused {check : Option ErrCode} {body : State → Except Fault State} {s : State} {r : Refusal} :
    command check body s ≠ .refused r := by
  rcases command_cases check body s with ⟨e, _, h⟩ | ⟨_, t, _, h⟩ | ⟨_, f, _, h⟩ <;> simp [h]

end Sys2Proof.Machine
end

