-- ==== Sys2Proof/Laws/Elements.lean ====
section
/-! SUPPORT. Elements of the buffers: reading what was written, what a write leaves alone, and when a read faults. -/

namespace Sys2Proof.Machine

/-! ### Reads -/

theorem orUnwritten_ok {α : Type} {sp : Space} {i : Nat} {o : Option α} {v : α} :
    orUnwritten sp i o = .ok v ↔ o = some v := by
  cases o <;> simp [orUnwritten]

theorem orUnwritten_error {α : Type} {sp : Space} {i : Nat} {o : Option α} {f : Fault} :
    orUnwritten sp i o = .error f ↔ o = none ∧ f = .unwrittenRead sp i := by
  cases o <;> simp [orUnwritten, eq_comm]

theorem readByte_ok {sp : Space} {i : Nat} {m : Memory} {v : Byte} : readByte sp i m = .ok v ↔ m.byteAt sp i = some v :=
  orUnwritten_ok

theorem readByte_error {sp : Space} {i : Nat} {m : Memory} {f : Fault} :
    readByte sp i m = .error f ↔ m.byteAt sp i = none ∧ f = .unwrittenRead sp i :=
  orUnwritten_error

theorem readBit_ok {i : Nat} {m : Memory} {v : Bool} : readBit i m = .ok v ↔ m.bitAt i = some v := orUnwritten_ok

theorem readBit_error {i : Nat} {m : Memory} {f : Fault} :
    readBit i m = .error f ↔ m.bitAt i = none ∧ f = .unwrittenRead .bbuf i :=
  orUnwritten_error

theorem readPixel_ok {sp : Space} {i : Nat} {m : Memory} {v : Word} :
    readPixel sp i m = .ok v ↔ m.pixelAt sp i = some v :=
  orUnwritten_ok

theorem readPixel_error {sp : Space} {i : Nat} {m : Memory} {f : Fault} :
    readPixel sp i m = .error f ↔ m.pixelAt sp i = none ∧ f = .unwrittenRead sp i :=
  orUnwritten_error

/-! ### Bits and lanes -/

@[simp] theorem bitByte_getLsbD_zero (b : Bool) : (bitByte b).getLsbD 0 = b := by cases b <;> rfl

theorem bitByte_toNat_lt (b : Bool) : (bitByte b).toNat < 2 := by cases b <;> decide

/-- A pixel word is its four lanes. -/
@[simp] theorem pixelOf_lanes (w : Word) : pixelOf (lane w 0) (lane w 1) (lane w 2) (lane w 3) = w := by
  apply BitVec.eq_of_getLsbD_eq
  intro i hi
  simp only [pixelOf, lane, BitVec.getLsbD_append, BitVec.getLsbD_extractLsb']
  rcases (by omega : i < 8 ∨ 8 ≤ i ∧ i < 16 ∨ 16 ≤ i ∧ i < 24 ∨ 24 ≤ i ∧ i < 32) with h | h | h | h
  · simp [h]
  · have : ¬ i < 8 := by omega
    have : i - 8 < 8 := by omega
    simp [*]
  · have : ¬ i < 8 := by omega
    have : ¬ i - 8 < 8 := by omega
    have : i - 8 - 8 < 8 := by omega
    have : 16 + (i - 8 - 8) = i := by omega
    simp [*]
  · have : ¬ i < 8 := by omega
    have : ¬ i - 8 < 8 := by omega
    have : ¬ i - 8 - 8 < 8 := by omega
    have : i - 8 - 8 - 8 < 8 := by omega
    have : 24 + (i - 8 - 8 - 8) = i := by omega
    simp [*]

theorem getLsbD_lane (w : Word) (l i : Nat) : (lane w l).getLsbD i = (decide (i < 8) && w.getLsbD (8 * l + i)) := by
  simp only [lane, BitVec.getLsbD_extractLsb']

theorem getLsbD_pixelOf (b g r x : Byte) (i : Nat) :
    (pixelOf b g r x).getLsbD i
      = if i < 8 then b.getLsbD i else if i < 16 then g.getLsbD (i - 8)
        else if i < 24 then r.getLsbD (i - 16) else x.getLsbD (i - 24) := by
  simp only [pixelOf, BitVec.getLsbD_append]
  rcases (by omega : i < 8 ∨ 8 ≤ i ∧ i < 16 ∨ 16 ≤ i ∧ i < 24 ∨ 24 ≤ i) with h | h | h | h
  · simp [h]
  · rw [if_neg (by omega), if_pos (by omega), if_neg (by omega), if_pos (by omega)]
  · rw [if_neg (by omega), if_neg (by omega), if_pos (by omega), if_neg (by omega), if_neg (by omega), if_pos (by omega)]
    congr 1
  · rw [if_neg (by omega), if_neg (by omega), if_neg (by omega), if_neg (by omega), if_neg (by omega), if_neg (by omega)]
    congr 1

@[simp] theorem lane_pixelOf_zero (b g r x : Byte) : lane (pixelOf b g r x) 0 = b := by
  apply BitVec.eq_of_getLsbD_eq; intro i hi
  rw [getLsbD_lane, getLsbD_pixelOf, if_pos (by omega)]; simp [hi]

@[simp] theorem lane_pixelOf_one (b g r x : Byte) : lane (pixelOf b g r x) 1 = g := by
  apply BitVec.eq_of_getLsbD_eq; intro i hi
  rw [getLsbD_lane, getLsbD_pixelOf, if_neg (by omega), if_pos (by omega)]; simp [hi]

@[simp] theorem lane_pixelOf_two (b g r x : Byte) : lane (pixelOf b g r x) 2 = r := by
  apply BitVec.eq_of_getLsbD_eq; intro i hi
  rw [getLsbD_lane, getLsbD_pixelOf, if_neg (by omega), if_neg (by omega), if_pos (by omega)]; simp [hi]

@[simp] theorem lane_pixelOf_three (b g r x : Byte) : lane (pixelOf b g r x) 3 = x := by
  apply BitVec.eq_of_getLsbD_eq; intro i hi
  rw [getLsbD_lane, getLsbD_pixelOf, if_neg (by omega), if_neg (by omega), if_neg (by omega)]; simp [hi]

/-! ### Reads after writes -/

theorem byteAt_writeByte (sp sp' : Space) (i j : Nat) (v : Byte) (m : Memory) :
    (writeByte sp j v m).byteAt sp' i = if sp'.base + i = sp.base + j then some v else m.byteAt sp' i := by
  simp [writeByte, Memory.byteAt, Memory.read_write]

@[simp] theorem byteAt_writeByte_same (sp : Space) (i : Nat) (v : Byte) (m : Memory) :
    (writeByte sp i v m).byteAt sp i = some v := by
  simp [byteAt_writeByte]

theorem byteAt_writeByte_ne {sp : Space} {i j : Nat} (h : i ≠ j) (v : Byte) (m : Memory) :
    (writeByte sp j v m).byteAt sp i = m.byteAt sp i := by
  simp [byteAt_writeByte, h]

@[simp] theorem bitAt_writeBit_same (i : Nat) (b : Bool) (m : Memory) : (writeBit i b m).bitAt i = some b := by
  simp only [writeBit, Memory.bitAt, byteAt_writeByte_same, Option.map_some, bitByte_getLsbD_zero]

theorem bitAt_writeBit_ne {i j : Nat} (h : i ≠ j) (b : Bool) (m : Memory) :
    (writeBit j b m).bitAt i = m.bitAt i := by
  simp [writeBit, Memory.bitAt, byteAt_writeByte_ne h]

@[simp] theorem pixelAt_writePixel_same (sp : Space) (i : Nat) (w : Word) (m : Memory) :
    (writePixel sp i w m).pixelAt sp i = some w := by
  have h0 : (writePixel sp i w m).laneAt sp i 0 = some (lane w 0) := by
    simp [writePixel, writeLane, Memory.laneAt, Memory.read_write]
  have h1 : (writePixel sp i w m).laneAt sp i 1 = some (lane w 1) := by
    simp [writePixel, writeLane, Memory.laneAt, Memory.read_write]
  have h2 : (writePixel sp i w m).laneAt sp i 2 = some (lane w 2) := by
    simp [writePixel, writeLane, Memory.laneAt, Memory.read_write]
  have h3 : (writePixel sp i w m).laneAt sp i 3 = some (lane w 3) := by
    simp [writePixel, writeLane, Memory.laneAt, Memory.read_write]
  simp [Memory.pixelAt, h0, h1, h2, h3]

/-! ### What a set of writes leaves alone -/

theorem Memory.SameExcept.refl {R : Nat → Prop} (m : Memory) : m.SameExcept R m := fun _ _ => rfl

theorem Memory.SameExcept.trans {R : Nat → Prop} {m m' m'' : Memory} (h : m.SameExcept R m') (h' : m'.SameExcept R m'') :
    m.SameExcept R m'' := fun a ha => (h' a ha).trans (h a ha)

theorem Memory.SameExcept.mono {R Q : Nat → Prop} {m m' : Memory} (h : m.SameExcept R m') (hq : ∀ a, R a → Q a) :
    m.SameExcept Q m' := fun a ha => h a fun hr => ha (hq a hr)

theorem Memory.SameExcept.byteAt {R : Nat → Prop} {m m' : Memory} (h : m.SameExcept R m') {sp : Space} {i : Nat}
    (hi : ¬ R (sp.base + i)) : m'.byteAt sp i = m.byteAt sp i := h _ hi

theorem Memory.SameExcept.bitAt {R : Nat → Prop} {m m' : Memory} (h : m.SameExcept R m') {i : Nat}
    (hi : ¬ R (Space.base .bbuf + i)) : m'.bitAt i = m.bitAt i := by
  simp [Memory.bitAt, h.byteAt hi]

theorem Memory.SameExcept.pixelAt {R : Nat → Prop} {m m' : Memory} (h : m.SameExcept R m') {sp : Space} {i : Nat}
    (hi : ∀ l, l < 4 → ¬ R (sp.base + 4 * i + l)) : m'.pixelAt sp i = m.pixelAt sp i := by
  have hl : ∀ l, l < 4 → m'.laneAt sp i l = m.laneAt sp i l := fun l h' => h _ (hi l h')
  simp [Memory.pixelAt, hl]

theorem Memory.SameExcept.holdsBytes {R : Nat → Prop} {m m' : Memory} (h : m.SameExcept R m') {sp : Space} {d : List Byte}
    (hd : m.HoldsBytes sp d) (hi : ∀ i, i < d.length → ¬ R (sp.base + i)) : m'.HoldsBytes sp d :=
  fun i hl => (h.byteAt (hi i hl)).trans (hd i hl)

theorem Memory.SameExcept.holdsBits {R : Nat → Prop} {m m' : Memory} (h : m.SameExcept R m') {b : List Bool}
    (hd : m.HoldsBits b) (hi : ∀ i, i < b.length → ¬ R (Space.base .bbuf + i)) : m'.HoldsBits b :=
  fun i hl => (h.bitAt (hi i hl)).trans (hd i hl)

theorem Memory.SameExcept.holdsPixels {R : Nat → Prop} {m m' : Memory} (h : m.SameExcept R m') {sp : Space}
    {px : List Word} (hd : m.HoldsPixels sp px) (hi : ∀ i l, i < px.length → l < 4 → ¬ R (sp.base + 4 * i + l)) :
    m'.HoldsPixels sp px :=
  fun i hl => (h.pixelAt fun l => hi i l hl).trans (hd i hl)

/-- The bytes a command may write into elements `lo .. hi-1` of a buffer: any byte, but one bit in BBUF. -/
def Allowed (sp : Space) (lo hi : Nat) (a : Nat) (b : Byte) : Prop :=
  sp.Elems lo hi a ∧ (sp = .bbuf → b.toNat < 2)

theorem Allowed.elems {sp : Space} {lo hi a : Nat} {b : Byte} (h : Allowed sp lo hi a b) : sp.Elems lo hi a := h.1

theorem Allowed.mono {sp : Space} {lo hi lo' hi' : Nat} (hl : lo' ≤ lo) (hh : hi ≤ hi') (a : Nat) (b : Byte)
    (h : Allowed sp lo hi a b) : Allowed sp lo' hi' a b :=
  ⟨⟨le_trans (Nat.add_le_add_left (Nat.mul_le_mul_left _ hl) _) h.1.1,
    lt_of_lt_of_le h.1.2 (Nat.add_le_add_left (Nat.mul_le_mul_left _ hh) _)⟩, h.2⟩

theorem writeByte_writes {sp : Space} {lo hi i : Nat} (hsp : sp.stride = 1) (hb : sp ≠ .bbuf) (hl : lo ≤ i) (hi' : i < hi)
    (v : Byte) (m : Memory) : Writes (Allowed sp lo hi) m (writeByte sp i v m) := by
  refine .one ⟨?_, fun h => absurd h hb⟩
  simp only [Space.Elems, hsp, Nat.one_mul]
  omega

theorem writeBit_writes {lo hi i : Nat} (hl : lo ≤ i) (hi' : i < hi) (b : Bool) (m : Memory) :
    Writes (Allowed .bbuf lo hi) m (writeBit i b m) := by
  refine .one ⟨?_, fun _ => bitByte_toNat_lt b⟩
  simp only [Space.Elems, Space.stride, Nat.one_mul]
  omega

theorem writePixel_writes {sp : Space} {lo hi i : Nat} (hsp : sp.stride = 4) (hl : lo ≤ i) (hi' : i < hi)
    (w : Word) (m : Memory) : Writes (Allowed sp lo hi) m (writePixel sp i w m) := by
  have hb : ∀ b : Byte, sp = .bbuf → b.toNat < 2 := by rintro b rfl; exact absurd hsp (by decide)
  have hw : ∀ l b m, l < 4 → Writes (Allowed sp lo hi) m (writeLane sp i l b m) := fun l b m h =>
    .one ⟨by simp only [Space.Elems, hsp]; omega, hb b⟩
  exact (((hw 0 _ _ (by omega)).trans (hw 1 _ _ (by omega))).trans (hw 2 _ _ (by omega))).trans (hw 3 _ _ (by omega))

end Sys2Proof.Machine
end

