-- ==== Sys2Proof/Laws/Functions.lean ====
section
/-! SUPPORT. The pure functions of the five units: lengths, elements, and how they behave on longer sequences. -/

namespace Sys2Proof.Machine

/-! ### XorCipher -/

@[simp] theorem length_xorT (d k : List Byte) (hk : 0 < k.length) : (xorT d k hk).length = d.length := by
  simp [xorT]

theorem getElem?_xorT {d k : List Byte} {hk : 0 < k.length} {i : Nat} {b c : Byte} (hb : d[i]? = some b)
    (hc : k[i % k.length]? = some c) : (xorT d k hk)[i]? = some (b ^^^ c) := by
  obtain ⟨_, rfl⟩ := List.getElem?_eq_some_iff.1 hc
  simp [xorT, List.getElem?_mapIdx, hb]

/-! ### FrameCodec -/

@[simp] theorem length_terminator : terminator.length = 3 := rfl

@[simp] theorem length_frame (p : List Byte) : (frame p).length = p.length + 3 := by simp [frame]

theorem matchAt_append {s t : List Byte} {j : Nat} (h : j < s.length) : matchAt (s ++ t) j = matchAt s j := by
  have h1 : j - 1 < s.length := by omega
  have h2 : j - 2 < s.length := by omega
  simp only [matchAt, List.getElem?_append_left h, List.getElem?_append_left h1, List.getElem?_append_left h2]

@[simp] theorem unframe_nil : unframe [] = .incomplete [] := rfl

/-- `unframe` of one more byte: an earlier match stands, and otherwise the new byte is looked at. -/
theorem unframe_snoc (s : List Byte) (b : Byte) :
    unframe (s ++ [b]) = match unframe s with
      | .found q => .found q
      | .incomplete _ =>
        if matchAt (s ++ [b]) s.length then .found (s.take (s.length - 2)) else .incomplete (s ++ [b]) := by
  have hfind : (List.range s.length).find? (matchAt (s ++ [b])) = (List.range s.length).find? (matchAt s) := by
    have hpt : ∀ j ∈ List.range s.length, matchAt (s ++ [b]) j = matchAt s j :=
      fun j hj => matchAt_append (List.mem_range.1 hj)
    generalize List.range s.length = l at hpt
    induction l with
    | nil => rfl
    | cons j l ih =>
      simp only [List.find?_cons, hpt j (by simp), ih fun j hj => hpt j (List.mem_cons_of_mem _ hj)]
  simp only [unframe, List.length_append, List.length_singleton, List.range_succ, List.find?_append, hfind]
  cases h : (List.range s.length).find? (matchAt s) with
  | some j =>
    have hj : j < s.length := List.mem_range.1 (List.mem_of_find?_eq_some h)
    simp [List.take_append_of_le_length (by omega : j - 2 ≤ s.length)]
  | none =>
    by_cases hm : matchAt (s ++ [b]) s.length = true
    · simp [hm, List.take_append_of_le_length (by omega : s.length - 2 ≤ s.length)]
    · simp [hm]

/-- The incomplete case carries the scanned bytes. -/
theorem unframe_incomplete {s t : List Byte} (h : unframe s = .incomplete t) : t = s := by
  unfold unframe at h; split at h <;> simp_all

/-- An earlier match stands on every longer sequence. -/
theorem unframe_append {s q : List Byte} (t : List Byte) (h : unframe s = .found q) : unframe (s ++ t) = .found q := by
  induction t generalizing s with
  | nil => simpa using h
  | cons b t ih =>
    have := ih (s := s ++ [b]) (by rw [unframe_snoc, h])
    simpa using this

/-- A sequence with no match has none in any of its beginnings. -/
theorem unframe_take {s : List Byte} (h : unframe s = .incomplete s) (n : Nat) :
    unframe (s.take n) = .incomplete (s.take n) := by
  cases hu : unframe (s.take n) with
  | found q =>
    have := unframe_append (s.drop n) hu
    rw [List.take_append_drop, h] at this
    cases this
  | incomplete t => rw [unframe_incomplete hu]

/-- The test of the scan is the test of `unframe` at the last byte. -/
theorem matchAt_last (s : List Byte) (b : Byte) : matchAt (s ++ [b]) s.length = endsInTerminator (s ++ [b]) := by
  rcases Nat.lt_or_ge s.length 2 with h | h
  · have h1 : ¬ 2 ≤ s.length := by omega
    have h2 : ¬ 3 ≤ (s ++ [b]).length := by simp; omega
    simp only [matchAt, endsInTerminator, h1, h2, decide_false, Bool.false_and]
  · obtain ⟨r, x, y, rfl⟩ : ∃ r x y, s = r ++ [x, y] := by
      refine ⟨s.take (s.length - 2), s[s.length - 2], s[s.length - 1], ?_⟩
      have hd : s.drop (s.length - 2) = [s[s.length - 2], s[s.length - 1]] := by
        apply List.ext_getElem
        · simp; omega
        · intro i h1 h2
          have : i < 2 := by simpa using h2
          interval_cases i
          · simp
          · simp; congr 1; omega
      rw [← hd, List.take_append_drop]
    simp [matchAt, endsInTerminator, terminator, Bool.decide_and, Bool.and_assoc]

theorem endsInTerminator_iff {s : List Byte} : endsInTerminator s = true ↔ ∃ q, s = q ++ terminator := by
  simp only [endsInTerminator, Bool.and_eq_true, decide_eq_true_eq]
  constructor
  · rintro ⟨_, h⟩
    exact ⟨s.take (s.length - 3), by rw [← h, List.take_append_drop]⟩
  · rintro ⟨q, rfl⟩
    simp

/-- Where nothing matched before, the next byte either completes the first terminator or leaves the sequence
incomplete. -/
theorem unframe_next {s : List Byte} (b : Byte) (h : unframe s = .incomplete s) :
    (∃ q, s ++ [b] = q ++ terminator ∧ endsInTerminator (s ++ [b]) = true ∧ unframe (s ++ [b]) = .found q)
      ∨ endsInTerminator (s ++ [b]) = false ∧ unframe (s ++ [b]) = .incomplete (s ++ [b]) := by
  rw [unframe_snoc, h, matchAt_last]
  cases he : endsInTerminator (s ++ [b]) with
  | false => exact .inr ⟨rfl, by simp⟩
  | true =>
    obtain ⟨q, hq⟩ := endsInTerminator_iff.1 he
    refine .inl ⟨q, hq, rfl, ?_⟩
    have hl : s.length + 1 = q.length + 3 := by simpa using congrArg List.length hq
    have hs : (s ++ [b]).take (s.length - 2) = s.take (s.length - 2) :=
      List.take_append_of_le_length (by omega)
    have ht : (s ++ [b]).take (s.length - 2) = q := by
      rw [hq, show s.length - 2 = q.length by omega, List.take_left]
    simp [← hs, ht]

/-- What a match says: the sequence begins with the bytes found and the terminator, and no shorter beginning
matches. -/
theorem unframe_found {s q : List Byte} (h : unframe s = .found q) :
    s.take (q.length + 3) = q ++ terminator ∧ q.length + 3 ≤ s.length ∧ unframe (s.take (q.length + 3)) = .found q
      ∧ ∀ n, n < q.length + 3 → unframe (s.take n) = .incomplete (s.take n) := by
  induction s using List.reverseRecOn with
  | nil => cases h
  | append_singleton s b ih =>
    cases hu : unframe s with
    | found q' =>
      rw [unframe_snoc, hu] at h
      cases h
      obtain ⟨h1, h2, h3, h4⟩ := ih hu
      refine ⟨by rw [List.take_append_of_le_length h2, h1], by simp; omega,
        by rw [List.take_append_of_le_length h2, h3], fun n hn => ?_⟩
      rw [List.take_append_of_le_length (by omega)]
      exact h4 n hn
    | incomplete t =>
      obtain rfl := unframe_incomplete hu
      rcases unframe_next b hu with ⟨q', hq, _, hf⟩ | ⟨_, hi⟩
      · rw [h] at hf
        cases hf
        have hl : t.length + 1 = q.length + 3 := by simpa using congrArg List.length hq
        refine ⟨by rw [← hl, hq]; simp [List.take_of_length_le, hl], by simp [hl],
          by rw [List.take_of_length_le (by simp [hl]), h], fun n hn => ?_⟩
        rw [List.take_append_of_le_length (by omega)]
        exact unframe_take hu n
      · rw [h] at hi; cases hi

/-! ### BitPacker -/

@[simp] theorem length_byteBits (b : Byte) : (byteBits b).length = 8 := by simp [byteBits]

theorem getElem?_byteBits {b : Byte} {t : Nat} (ht : t < 8) : (byteBits b)[t]? = some (b.getLsbD (7 - t)) := by
  simp [byteBits, ht]

@[simp] theorem length_toBits (d : List Byte) : (toBits d).length = 8 * d.length := by
  induction d with
  | nil => rfl
  | cons b d ih => simp only [toBits, List.flatMap_cons, List.length_append, length_byteBits] at *; simp; omega

theorem toBits_append (d e : List Byte) : toBits (d ++ e) = toBits d ++ toBits e := by simp [toBits]

theorem getElem?_toBits {d : List Byte} {i t : Nat} {b : Byte} (hb : d[i]? = some b) (ht : t < 8) :
    (toBits d)[8 * i + t]? = some (b.getLsbD (7 - t)) := by
  induction d generalizing i with
  | nil => simp at hb
  | cons c d ih =>
    have hc : toBits (c :: d) = byteBits c ++ toBits d := by simp [toBits]
    cases i with
    | zero =>
      obtain rfl : c = b := by simpa using hb
      rw [hc, List.getElem?_append_left (by simp; omega)]
      simpa using getElem?_byteBits ht
    | succ i =>
      rw [hc, List.getElem?_append_right (by simp; omega), length_byteBits,
        show 8 * (i + 1) + t - 8 = 8 * i + t by omega]
      exact ih (by simpa using hb)

/-- `fromBits` takes one group of eight bits after another. -/
theorem fromBits_append {g b : List Bool} (hg : g.length = 8) : fromBits (g ++ b) = bitsByte g :: fromBits b := by
  match g, hg with
  | [b7, b6, b5, b4, b3, b2, b1, b0], _ => rfl

theorem fromBits_short {b : List Bool} (h : b.length < 8) : fromBits b = [] := by
  match b, h with
  | [], _ => rfl
  | [_], _ => rfl
  | [_, _], _ => rfl
  | [_, _, _], _ => rfl
  | [_, _, _, _], _ => rfl
  | [_, _, _, _, _], _ => rfl
  | [_, _, _, _, _, _], _ => rfl
  | [_, _, _, _, _, _, _], _ => rfl
  | _ :: _ :: _ :: _ :: _ :: _ :: _ :: _ :: _, h => simp at h; omega

theorem fromBits_step {b : List Bool} (h : 8 ≤ b.length) : fromBits b = bitsByte (b.take 8) :: fromBits (b.drop 8) := by
  have := fromBits_append (g := b.take 8) (b := b.drop 8) (by simp; omega)
  rwa [List.take_append_drop] at this

theorem length_fromBits (b : List Bool) : (fromBits b).length = b.length / 8 := by
  induction hn : b.length using Nat.strongRecOn generalizing b with
  | _ n ih =>
    rcases Nat.lt_or_ge n 8 with h | h
    · rw [fromBits_short (by omega)]; simp; omega
    · rw [fromBits_step (by omega), List.length_cons, ih (n - 8) (by omega) _ (by simp [hn])]
      omega

theorem getElem?_fromBits {b : List Bool} {j : Nat} (h : 8 * j + 8 ≤ b.length) :
    (fromBits b)[j]? = some (bitsByte ((b.drop (8 * j)).take 8)) := by
  induction j generalizing b with
  | zero => rw [fromBits_step (by omega)]; simp
  | succ j ih =>
    rw [fromBits_step (by omega), List.getElem?_cons_succ, ih (by simp; omega), List.drop_drop]
    congr 4; omega

/-- Whole groups in front are taken as they are. -/
theorem fromBits_append_of_dvd {a b : List Bool} (n : Nat) (ha : a.length = 8 * n) :
    fromBits (a ++ b) = fromBits a ++ fromBits b := by
  induction n generalizing a with
  | zero => simp [List.length_eq_zero_iff.1 (by omega : a.length = 0), fromBits]
  | succ n ih =>
    rw [fromBits_step (b := a) (by omega), fromBits_step (by simp; omega),
      List.take_append_of_le_length (by omega), List.drop_append_of_le_length (by omega),
      ih (by simp; omega), List.cons_append]

/-- A last incomplete group does not count. -/
theorem fromBits_take (b : List Bool) : fromBits (b.take (8 * (b.length / 8))) = fromBits b := by
  conv_rhs => rw [← List.take_append_drop (8 * (b.length / 8)) b]
  rw [fromBits_append_of_dvd (b.length / 8) (by simp; omega), fromBits_short (b := b.drop _) (by simp; omega),
    List.append_nil]

theorem bitsByte_append (a b : List Bool) : bitsByte (a ++ b) = b.foldl shiftIn (bitsByte a) := by
  simp [bitsByte]

@[simp] theorem bitsByte_byteBits (b : Byte) : bitsByte (byteBits b) = b := by
  revert b; decide +kernel

@[simp] theorem byteBits_bitsByte {g : List Bool} (hg : g.length = 8) : byteBits (bitsByte g) = g := by
  match g, hg with
  | [b7, b6, b5, b4, b3, b2, b1, b0], _ =>
    revert b7 b6 b5 b4 b3 b2 b1 b0; decide +kernel

/-! ### PixelEncoder and PixelDecoder -/

@[simp] theorem length_encodeGrid (src : List Word) (bits : List Bool) : (encodeGrid src bits).length = src.length := by
  simp [encodeGrid]

theorem getElem?_encodeGrid {src : List Word} {bits : List Bool} {p : Nat} {w : Word} (hw : src[p]? = some w) :
    (encodeGrid src bits)[p]? = some (match bits[p]? with | some b => embed w b | none => w) := by
  cases h : bits[p]? <;> simp [encodeGrid, List.getElem?_mapIdx, hw, h]

@[simp] theorem length_lowBits (src : List Word) : (lowBits src).length = src.length := by simp [lowBits]

/-- The embedded bit is the low bit, and every other bit of the pixel word stays. -/
theorem getLsbD_embed (w : Word) (b : Bool) (i : Nat) :
    (embed w b).getLsbD i = if i = 0 then b else w.getLsbD i := by
  have hmask : ∀ j : Fin 32, (0xFFFFFFFE#32).getLsbD j = decide ((j : Nat) ≠ 0) := by decide
  have hbit : ∀ b : Bool, ∀ j : Fin 32, ((BitVec.ofBool b).setWidth 32).getLsbD j = (decide ((j : Nat) = 0) && b) := by
    decide
  by_cases hi : i < 32
  · have h1 := hmask ⟨i, hi⟩
    have h2 := hbit b ⟨i, hi⟩
    simp only at h1 h2
    simp only [embed, BitVec.getLsbD_or, BitVec.getLsbD_and, h1, h2]
    by_cases h0 : i = 0 <;> simp [h0]
  · rw [BitVec.getLsbD_of_ge _ _ (by omega), BitVec.getLsbD_of_ge _ _ (by omega), if_neg (by omega)]

theorem decodeGrid_eq (src : List Word) :
    decodeGrid src = match unframe (fromBits (lowBits src)) with
      | .found q => (q, true)
      | .incomplete s => (s, false) := by
  have h : fromBits ((lowBits src).take (8 * (src.length / 8))) = fromBits (lowBits src) := by
    rw [← length_lowBits src, fromBits_take]
  exact congrArg (fun b => match unframe b with
    | .found q => (q, true)
    | .incomplete s => (s, false)) h

end Sys2Proof.Machine
end

