-- ==== Sys2Proof/Laws/Datapath.lean ====
section
/-! SUPPORT. The loops of the command rules: where their operands are written, each runs through and leaves in its
buffer what the unit's function says, and changes nothing else; whatever it reads, it writes nowhere else; and where it
faults. -/

namespace Sys2Proof.Machine

/-! ### Loops that write one element a round -/

theorem Space.elems_succ {sp : Space} {i a : Nat} (h : ¬ sp.Elems 0 (i + 1) a) : ¬ sp.Elems 0 i a := fun ha =>
  h ⟨ha.1, lt_of_lt_of_le ha.2 (Nat.add_le_add_left (Nat.mul_le_mul_left _ (Nat.le_succ i)) _)⟩

theorem byteLoop_total {sp : Space} (hsp : sp.stride = 1) {f : Nat → Memory → Except Fault Memory} {m : Memory}
    (d : List Byte)
    (hf : ∀ i m' v, d[i]? = some v → m.SameExcept (sp.Elems 0 i) m' → f i m' = .ok (writeByte sp i v m')) :
    ∃ m', loop d.length f m = .ok m' ∧ m'.HoldsBytes sp d ∧ m.SameExcept (sp.Elems 0 d.length) m' := by
  refine loop_total (P := fun i m' => (∀ k, k < i → m'.byteAt sp k = d[k]?) ∧ m.SameExcept (sp.Elems 0 i) m')
    d.length ⟨fun k hk => absurd hk (by omega), .refl m⟩ fun i m' hi hP => ?_
  obtain ⟨v, hv⟩ : ∃ v, d[i]? = some v := ⟨_, List.getElem?_eq_getElem hi⟩
  refine ⟨_, hf i m' v hv hP.2, fun k hk => ?_, fun a ha => ?_⟩
  · rcases Nat.lt_succ_iff_lt_or_eq.1 hk with h | rfl
    · rw [byteAt_writeByte_ne (by omega), hP.1 k h]
    · rw [byteAt_writeByte_same, hv]
  · rw [writeByte, Memory.read_write_ne, hP.2 a (Space.elems_succ ha)]
    rintro rfl
    exact ha ⟨by omega, by rw [hsp]; omega⟩

theorem pixelLoop_total {sp : Space} (hsp : sp.stride = 4) {f : Nat → Memory → Except Fault Memory} {m : Memory}
    (px : List Word)
    (hf : ∀ i m' w, px[i]? = some w → m.SameExcept (sp.Elems 0 i) m' → f i m' = .ok (writePixel sp i w m')) :
    ∃ m', loop px.length f m = .ok m' ∧ m'.HoldsPixels sp px ∧ m.SameExcept (sp.Elems 0 px.length) m' := by
  have hne : ∀ i k w m', k < i → (writePixel sp i w m').pixelAt sp k = m'.pixelAt sp k := fun i k w m' hk =>
    ((writePixel_writes hsp (Nat.le_refl i) (Nat.lt_succ_self i) w m').same (P := sp.Elems i (i + 1))
      fun _ _ h => h.1).pixelAt fun l hl he => by
        have := he.1; rw [hsp] at this; omega
  refine loop_total (P := fun i m' => (∀ k, k < i → m'.pixelAt sp k = px[k]?) ∧ m.SameExcept (sp.Elems 0 i) m')
    px.length ⟨fun k hk => absurd hk (by omega), .refl m⟩ fun i m' hi hP => ?_
  obtain ⟨w, hw⟩ : ∃ w, px[i]? = some w := ⟨_, List.getElem?_eq_getElem hi⟩
  refine ⟨_, hf i m' w hw hP.2, fun k hk => ?_, ?_⟩
  · rcases Nat.lt_succ_iff_lt_or_eq.1 hk with h | rfl
    · rw [hne _ _ _ _ h, hP.1 k h]
    · rw [pixelAt_writePixel_same, hw]
  · exact (hP.2.mono fun a ha => by_contra fun h => Space.elems_succ h ha).trans
      ((writePixel_writes hsp (Nat.zero_le i) (Nat.lt_succ_self i) w m').same fun _ _ h => h.1)

/-- What one buffer's elements say once another buffer's have been written. -/
theorem Memory.SameExcept.byteAt_of_elems {sp sp' : Space} {lo hi i : Nat} {m m' : Memory}
    (h : m.SameExcept (sp'.Elems lo hi) m') (hd : sp.base + i < sp'.base + sp'.stride * lo ∨ sp'.base + sp'.stride * hi ≤ sp.base + i) :
    m'.byteAt sp i = m.byteAt sp i :=
  h.byteAt fun he => by have := he.1; have := he.2; omega

/-! ### MOVE, XOR and deciphering -/

theorem moveLoop_total {m : Memory} {p : List Byte} (hp : m.HoldsBytes .pbuf p) (hn : p.length ≤ 2 ^ 24) :
    ∃ m', moveLoop p.length m = .ok m' ∧ m'.HoldsBytes .wbuf p ∧ m.SameExcept (Space.Elems .wbuf 0 p.length) m' := by
  refine byteLoop_total rfl p fun i m' v hv hm => ?_
  have hi : i < p.length := (List.getElem?_eq_some_iff.1 hv).1
  have h1 : readByte .pbuf i m' = .ok v := readByte_ok.2 <| by
    rw [hm.byteAt_of_elems (.inl (by simp only [Space.base]; omega)), hp i hi, hv]
  simp [h1]

/-- A byte of the key, where the key's bytes that matter are written. -/
theorem keyByte {k : List Byte} (hk : 0 < k.length) {n i : Nat} (hi : i < n) :
    ∃ c, k[i % k.length]? = some c ∧ (k.take n)[i % k.length]? = some c ∧ i % k.length < (k.take n).length := by
  have h1 := Nat.mod_lt i hk
  have h2 : i % k.length < n := lt_of_le_of_lt (Nat.mod_le _ _) hi
  exact ⟨k[i % k.length], List.getElem?_eq_getElem h1, by rw [List.getElem?_take_of_lt h2, List.getElem?_eq_getElem h1],
    by simp; omega⟩

theorem xorLoop_total {m : Memory} {p k : List Byte} (hk : 0 < k.length) (hp : m.HoldsBytes .pbuf p)
    (hkey : m.HoldsBytes .kbuf (k.take p.length)) (hn : p.length ≤ 2 ^ 24) (hkn : k.length ≤ 2 ^ 24) :
    ∃ m', xorLoop p.length k.length m = .ok m' ∧ m'.HoldsBytes .wbuf (xorT p k hk)
      ∧ m.SameExcept (Space.Elems .wbuf 0 p.length) m' := by
  have := byteLoop_total (sp := .wbuf) rfl (m := m) (f := fun i m => do
    let p ← readByte .pbuf i m
    let q ← readByte .kbuf (i % k.length) m
    .ok (writeByte .wbuf i (p ^^^ q) m)) (xorT p k hk) fun i m' v hv hm => by
      have hi : i < p.length := by simpa using (List.getElem?_eq_some_iff.1 hv).1
      obtain ⟨c, hc, hc', hlt⟩ := keyByte hk hi
      have hm' : i % k.length < k.length := Nat.mod_lt i hk
      have h1 : readByte .pbuf i m' = .ok p[i] := readByte_ok.2 <| by
        rw [hm.byteAt_of_elems (.inl (by simp only [Space.base]; omega)), hp i hi, List.getElem?_eq_getElem hi]
      have h2 : readByte .kbuf (i % k.length) m' = .ok c := readByte_ok.2 <| by
        rw [hm.byteAt_of_elems (.inl (by simp only [Space.base]; omega)), hkey _ hlt, hc']
      have h3 := getElem?_xorT (hk := hk) (List.getElem?_eq_getElem hi) hc
      obtain rfl : v = p[i] ^^^ c := by rw [h3] at hv; exact (Option.some.inj hv).symm
      simp [h1, h2]
  simpa [xorLoop] using this

theorem decipherLoop_total {m : Memory} {p k : List Byte} (hk : 0 < k.length) (hp : m.HoldsBytes .obuf p)
    (hkey : m.HoldsBytes .kbuf (k.take p.length)) (hkn : k.length ≤ 2 ^ 24) :
    ∃ m', decipherLoop p.length k.length m = .ok m' ∧ m'.HoldsBytes .obuf (xorT p k hk)
      ∧ m.SameExcept (Space.Elems .obuf 0 p.length) m' := by
  have := byteLoop_total (sp := .obuf) rfl (m := m) (f := fun i m => do
    let p ← readByte .obuf i m
    let q ← readByte .kbuf (i % k.length) m
    .ok (writeByte .obuf i (p ^^^ q) m)) (xorT p k hk) fun i m' v hv hm => by
      have hi : i < p.length := by simpa using (List.getElem?_eq_some_iff.1 hv).1
      obtain ⟨c, hc, hc', hlt⟩ := keyByte hk hi
      have hm' : i % k.length < k.length := Nat.mod_lt i hk
      have h1 : readByte .obuf i m' = .ok p[i] := readByte_ok.2 <| by
        rw [hm.byteAt_of_elems (.inr (by simp only [Space.base, Space.stride]; omega)), hp i hi,
          List.getElem?_eq_getElem hi]
      have h2 : readByte .kbuf (i % k.length) m' = .ok c := readByte_ok.2 <| by
        rw [hm.byteAt_of_elems (.inl (by simp only [Space.base]; omega)), hkey _ hlt, hc']
      have h3 := getElem?_xorT (hk := hk) (List.getElem?_eq_getElem hi) hc
      obtain rfl : v = p[i] ^^^ c := by rw [h3] at hv; exact (Option.some.inj hv).symm
      simp [h1, h2]
  simpa [decipherLoop] using this

/-! ### FRAME -/

theorem writeTerminator_holds {m : Memory} {d : List Byte} (hd : m.HoldsBytes .wbuf d) :
    (writeTerminator d.length m).HoldsBytes .wbuf (frame d) := by
  intro i hi
  simp only [writeTerminator, byteAt_writeByte, Nat.add_left_cancel_iff, frame]
  rcases Nat.lt_or_ge i d.length with h | h
  · rw [if_neg (by omega), if_neg (by omega), if_neg (by omega), List.getElem?_append_left h, hd i h]
  · rw [List.getElem?_append_right h]
    have : i - d.length < 3 := by simp at hi; omega
    obtain h | h | h : i = d.length ∨ i = d.length + 1 ∨ i = d.length + 2 := by omega
    all_goals subst h; simp [terminator]

theorem writeTerminator_writes (n : Nat) (m : Memory) :
    Writes (Allowed .wbuf n (n + 3)) m (writeTerminator n m) := by
  have h : ∀ i v m, n ≤ i → i < n + 3 → Writes (Allowed .wbuf n (n + 3)) m (writeByte .wbuf i v m) :=
    fun i v m h1 h2 => writeByte_writes rfl (by decide) h1 h2 v m
  exact ((h _ _ _ (by omega) (by omega)).trans (h _ _ _ (by omega) (by omega))).trans (h _ _ _ (by omega) (by omega))

/-! ### PACK and UNPACK -/

theorem packByte_total (i : Nat) (v : Byte) (m : Memory) :
    ∃ m', loop 8 (fun t m => .ok (writeBit (8 * i + t) (v.getLsbD (7 - t)) m)) m = .ok m'
      ∧ (∀ t, t < 8 → m'.bitAt (8 * i + t) = (byteBits v)[t]?)
      ∧ m.SameExcept (Space.Elems .bbuf (8 * i) (8 * i + 8)) m' := by
  have := loop_total (f := fun t m => Except.ok (writeBit (8 * i + t) (v.getLsbD (7 - t)) m)) (a := m)
    (P := fun t m' => (∀ u, u < t → m'.bitAt (8 * i + u) = (byteBits v)[u]?)
      ∧ Writes (Allowed .bbuf (8 * i) (8 * i + 8)) m m') 8 ⟨fun u hu => absurd hu (by omega), .refl⟩ fun t m' ht hP => ?_
  · obtain ⟨m', h1, h2, h3⟩ := this
    exact ⟨m', h1, h2, h3.same fun _ _ h => h.1⟩
  refine ⟨_, rfl, fun u hu => ?_, hP.2.trans (writeBit_writes (by omega) (by omega) _ _)⟩
  rcases Nat.lt_succ_iff_lt_or_eq.1 hu with h | rfl
  · rw [bitAt_writeBit_ne (by omega), hP.1 u h]
  · rw [bitAt_writeBit_same, getElem?_byteBits ht]

theorem packLoop_total {m : Memory} {d : List Byte} (hd : m.HoldsBytes .wbuf d) (hn : d.length ≤ 2 ^ 24) :
    ∃ m', packLoop d.length m = .ok m' ∧ m'.HoldsBits (toBits d) ∧ m.SameExcept (Space.Elems .bbuf 0 (8 * d.length)) m' := by
  have := loop_total (a := m) (f := fun i m => do
      let v ← readByte .wbuf i m
      loop 8 (fun t m => .ok (writeBit (8 * i + t) (v.getLsbD (7 - t)) m)) m)
    (P := fun i m' => (∀ k, k < 8 * i → m'.bitAt k = (toBits d)[k]?) ∧ m.SameExcept (Space.Elems .bbuf 0 (8 * i)) m')
    d.length ⟨fun k hk => absurd hk (by omega), .refl m⟩ fun i m' hi hP => ?_
  · obtain ⟨m', h1, h2, h3⟩ := this
    exact ⟨m', h1, fun k hk => h2 k (by simpa using hk), h3⟩
  have hv : readByte .wbuf i m' = .ok d[i] := readByte_ok.2 <| by
    rw [hP.2.byteAt_of_elems (.inl (by simp only [Space.base]; omega)), hd i hi, List.getElem?_eq_getElem hi]
  obtain ⟨m'', h1, h2, h3⟩ := packByte_total i d[i] m'
  refine ⟨m'', by simp only [hv, ok_bind, h1], fun k hk => ?_, ?_⟩
  · rcases Nat.lt_or_ge k (8 * i) with h | h
    · rw [h3.bitAt fun he => by have := he.1; simp only [Space.stride] at this; omega, hP.1 k h]
    · obtain ⟨t, rfl⟩ := Nat.exists_eq_add_of_le h
      rw [h2 t (by omega), getElem?_byteBits (by omega), getElem?_toBits (List.getElem?_eq_getElem hi) (by omega)]
  · have e1 : ∀ a, Space.Elems .bbuf 0 (8 * i) a → Space.Elems .bbuf 0 (8 * (i + 1)) a := by
      simp only [Space.Elems, Space.stride]; omega
    have e2 : ∀ a, Space.Elems .bbuf (8 * i) (8 * i + 8) a → Space.Elems .bbuf 0 (8 * (i + 1)) a := by
      simp only [Space.Elems, Space.stride]; omega
    exact (hP.2.mono e1).trans (h3.mono e2)

theorem gatherByte_total {m : Memory} {b : List Bool} (hb : m.HoldsBits b) {j : Nat} (hj : 8 * j + 8 ≤ b.length) :
    gatherByte j m = .ok (bitsByte ((b.drop (8 * j)).take 8)) := by
  have := loop_total (a := (0x00#8 : Byte)) (f := fun t acc => do
      let x ← readBit (8 * j + t) m
      .ok (shiftIn acc x))
    (P := fun t acc => acc = bitsByte ((b.drop (8 * j)).take t)) 8 rfl fun t acc ht hP => by
      have hlt : 8 * j + t < b.length := by omega
      have hx : readBit (8 * j + t) m = .ok b[8 * j + t] := readBit_ok.2 <| by
        rw [hb _ hlt, List.getElem?_eq_getElem hlt]
      refine ⟨shiftIn acc b[8 * j + t], by simp only [hx, ok_bind], ?_⟩
      have hlt' : t < (b.drop (8 * j)).length := by simp; omega
      rw [List.take_add_one, List.getElem?_eq_getElem hlt', bitsByte_append, ← hP]
      simp
  obtain ⟨acc, h1, h2⟩ := this
  rw [gatherByte, h1, h2]

theorem unpackLoop_total {m : Memory} {b : List Bool} (hb : m.HoldsBits b) {n : Nat} (hn : b.length = 8 * n)
    (hl : n ≤ 2 ^ 24) :
    ∃ m', unpackLoop n m = .ok m' ∧ m'.HoldsBytes .wbuf (fromBits b) ∧ m.SameExcept (Space.Elems .wbuf 0 n) m' := by
  have hlen : (fromBits b).length = n := by rw [length_fromBits]; omega
  have := byteLoop_total (sp := .wbuf) rfl (m := m) (f := fun j m => do
      let acc ← gatherByte j m
      .ok (writeByte .wbuf j acc m)) (fromBits b) fun i m' v hv hm => by
        have hi : i < n := by rw [← hlen]; exact (List.getElem?_eq_some_iff.1 hv).1
        have hb' : m'.HoldsBits b := by
          intro k hk
          rw [Memory.bitAt, hm.byteAt_of_elems (.inr (by simp only [Space.base, Space.stride]; omega))]
          exact hb k hk
        have := getElem?_fromBits (b := b) (j := i) (by omega)
        rw [hv] at this
        rw [gatherByte_total hb' (by omega), ← Option.some.inj this]
        rfl
  rw [hlen] at this
  exact this

/-! ### ENCODE and COPY -/

theorem copyLoop_total {m : Memory} {px : List Word} (hp : m.HoldsPixels .dst px) :
    ∃ m', copyLoop px.length m = .ok m' ∧ m'.HoldsPixels .src px
      ∧ m.SameExcept (Space.Elems .src 0 px.length) m' := by
  refine pixelLoop_total rfl px fun i m' w hw hm => ?_
  have hi : i < px.length := (List.getElem?_eq_some_iff.1 hw).1
  have h1 : readPixel .dst i m' = .ok w := readPixel_ok.2 <| by
    rw [hm.pixelAt fun l hl he => by
      have := he.2; simp only [Space.base, Space.stride] at this; omega, hp i hi, hw]
  simp [h1]

theorem embedLoop_total {m : Memory} {px : List Word} {b : List Bool} (hp : m.HoldsPixels .src px) (hb : m.HoldsBits b)
    (hn : px.length ≤ 2 ^ 24) :
    ∃ m', embedLoop px.length b.length m = .ok m' ∧ m'.HoldsPixels .dst (encodeGrid px b)
      ∧ m.SameExcept (Space.Elems .dst 0 px.length) m' := by
  have := pixelLoop_total (sp := .dst) rfl (m := m) (f := fun p m => do
      let w ← readPixel .src p m
      if p < b.length then do
        let x ← readBit p m
        .ok (writePixel .dst p (embed w x) m)
      else .ok (writePixel .dst p w m)) (encodeGrid px b) fun i m' w hw hm => by
        have hi : i < px.length := by simpa using (List.getElem?_eq_some_iff.1 hw).1
        have h1 : readPixel .src i m' = .ok px[i] := readPixel_ok.2 <| by
          rw [hm.pixelAt fun l hl he => by
            have := he.1; simp only [Space.base, Space.stride] at this; omega, hp i hi, List.getElem?_eq_getElem hi]
        rw [getElem?_encodeGrid (List.getElem?_eq_getElem hi)] at hw
        obtain rfl := Option.some.inj hw
        simp only [h1, ok_bind]
        split
        · rename_i hib
          have h2 : readBit i m' = .ok b[i] := readBit_ok.2 <| by
            rw [hm.bitAt fun he => by
              have := he.1; simp only [Space.base, Space.stride] at this; omega, hb i hib, List.getElem?_eq_getElem hib]
          simp only [h2, ok_bind, List.getElem?_eq_getElem hib]
        · rename_i hib
          rw [List.getElem?_eq_none (by omega)]
  simpa [embedLoop] using this

end Sys2Proof.Machine
end

