-- ==== Sys2Proof/Laws/Search.lean ====
section
/-! SUPPORT. The two searches for the terminator, UNFRAME's loop and the decoder's scan: they find what `unframe`
finds, read nothing past it, and write only OBUF. -/

namespace Sys2Proof.Machine

/-! ### The bytes looked at -/

theorem scannedBytes_found {s q : List Byte} (h : unframe s = .found q) : scannedBytes s = q ++ terminator := by
  simp [scannedBytes, h]

theorem scannedBytes_incomplete {s : List Byte} (h : unframe s = .incomplete s) : scannedBytes s = s := by
  simp [scannedBytes, h]

theorem scannedBytes_eq_take (s : List Byte) :
    scannedBytes s = s.take (scannedBytes s).length ∧ (scannedBytes s).length ≤ s.length := by
  cases h : unframe s with
  | found q =>
    rw [scannedBytes_found h]
    obtain ⟨h1, h2, _, _⟩ := unframe_found h
    exact ⟨by simp [h1], by simpa using h2⟩
  | incomplete t =>
    obtain rfl := unframe_incomplete h
    rw [scannedBytes_incomplete h]
    simp

/-- While nothing has matched, the next byte is one of those looked at. -/
theorem lt_scannedBytes {s : List Byte} {j : Nat} (hj : j < s.length) (h : unframe (s.take j) = .incomplete (s.take j)) :
    j < (scannedBytes s).length := by
  cases hu : unframe s with
  | found q =>
    rw [scannedBytes_found hu]
    by_contra hn
    have hq : q.length + 3 ≤ j := by simpa using hn
    have hf := (unframe_found hu).2.2.1
    have := unframe_append ((s.take j).drop (q.length + 3)) hf
    rw [show s.take (q.length + 3) = (s.take j).take (q.length + 3) by rw [List.take_take, Nat.min_eq_left hq],
      List.take_append_drop, h] at this
    cases this
  | incomplete t =>
    obtain rfl := unframe_incomplete hu
    rw [scannedBytes_incomplete hu]
    exact hj

/-! ### UNFRAME -/

/-- The test of the loop is the test of `unframe` (R131, R122). -/
theorem obufMatch_eq {m : Memory} {s : List Byte} {j : Nat} {b : Byte} (hb : s[j]? = some b)
    (hm : ∀ k, k < j → m.byteAt .obuf k = s[k]?) : obufMatch j b m = .ok (matchAt s j) := by
  have hj : j < s.length := (List.getElem?_eq_some_iff.1 hb).1
  unfold obufMatch
  split
  · rename_i h2
    have e1 : readByte .obuf (j - 2) m = .ok s[j - 2] := readByte_ok.2 (by rw [hm _ (by omega), List.getElem?_eq_getElem])
    have e2 : readByte .obuf (j - 1) m = .ok s[j - 1] := readByte_ok.2 (by rw [hm _ (by omega), List.getElem?_eq_getElem])
    have e3 : s[j - 2]? = some s[j - 2] := List.getElem?_eq_getElem _
    have e4 : s[j - 1]? = some s[j - 1] := List.getElem?_eq_getElem _
    simp only [e1, e2, ok_bind, matchAt, h2, decide_true, Bool.true_and, e3, e4, hb, Option.some.injEq]
  · rename_i h2
    simp [matchAt, h2]

theorem unframeLoop_total {s : List Byte} (hs : s.length ≤ 2 ^ 24) (r j : Nat) (m : Memory) (hj : j + r = s.length)
    (ho : ∀ k, k < j → m.byteAt .obuf k = s[k]?)
    (hw : ∀ k, k < (scannedBytes s).length → m.byteAt .wbuf k = s[k]?)
    (hi : unframe (s.take j) = .incomplete (s.take j)) :
    ∃ m', unframeLoop r j m
        = .ok (match unframe s with | .found q => some (q.length + 2) | .incomplete _ => none, m')
      ∧ (∀ k, k < (scannedBytes s).length → m'.byteAt .obuf k = s[k]?)
      ∧ m.SameExcept (Space.Elems .obuf 0 (scannedBytes s).length) m' := by
  induction r generalizing j m with
  | zero =>
    rw [List.take_of_length_le (by omega)] at hi
    exact ⟨m, by simp [unframeLoop, hi], by rw [scannedBytes_incomplete hi]; exact fun k hk => ho k (by omega), .refl m⟩
  | succ r ih =>
    have hjl : j < s.length := by omega
    have hjs := lt_scannedBytes hjl hi
    have hb : s[j]? = some s[j] := List.getElem?_eq_getElem hjl
    have h1 : readByte .wbuf j m = .ok s[j] := readByte_ok.2 (by rw [hw j hjs, hb])
    have ho1 : ∀ k, k < j + 1 → (writeByte .obuf j s[j] m).byteAt .obuf k = s[k]? := fun k hk => by
      rcases Nat.lt_succ_iff_lt_or_eq.1 hk with h | rfl
      · rw [byteAt_writeByte_ne (by omega), ho k h]
      · rw [byteAt_writeByte_same, hb]
    have hw1 : ∀ k, k < (scannedBytes s).length → (writeByte .obuf j s[j] m).byteAt .wbuf k = s[k]? := fun k hk => by
      have := (scannedBytes_eq_take s).2
      rw [byteAt_writeByte, if_neg (by simp only [Space.base]; omega), hw k hk]
    have hs1 : m.SameExcept (Space.Elems .obuf 0 (scannedBytes s).length) (writeByte .obuf j s[j] m) :=
      (writeByte_writes rfl (by decide) (Nat.zero_le j) hjs _ m).same fun _ _ h => h.1
    have hmt : matchAt (s.take (j + 1)) j = matchAt s j := by
      conv_rhs => rw [← List.take_append_drop (j + 1) s]
      exact (matchAt_append (by simp; omega)).symm
    have ht : s.take (j + 1) = s.take j ++ [s[j]] := by rw [List.take_add_one, hb]; rfl
    have hl : (s.take j).length = j := by simp; omega
    have he : endsInTerminator (s.take (j + 1)) = matchAt s j := by
      rw [← hmt, ht, ← matchAt_last, hl]
    rw [unframeLoop, h1]
    simp only [ok_bind, obufMatch_eq hb (fun k hk => ho1 k (by omega))]
    rcases unframe_next s[j] hi with ⟨q, hq, hm', hf⟩ | ⟨hm', hi'⟩
    · rw [← ht] at hq hm' hf
      have hfull := unframe_append (s.drop (j + 1)) hf
      rw [List.take_append_drop] at hfull
      have hlen : j + 1 = q.length + 3 := by
        have := congrArg List.length hq
        simp at this; omega
      rw [he] at hm'
      simp only [hm', if_true, hfull]
      refine ⟨_, by simp only [show j = q.length + 2 by omega], fun k hk => ho1 k ?_, hs1⟩
      rw [scannedBytes_found hfull] at hk
      simp at hk; omega
    · rw [← ht] at hm' hi'
      rw [he] at hm'
      simp only [hm', Bool.false_eq_true, if_false]
      obtain ⟨m', e1, e2, e3⟩ := ih (j + 1) _ (by omega) ho1 hw1 hi'
      exact ⟨m', e1, e2, hs1.trans e3⟩

/-- How many bytes a search over `n` bytes has mirrored when it ends. -/
def searchEnd (n : Nat) : Option Nat → Nat
  | some k => k + 1
  | none => n

theorem unframeLoop_writes {r j n : Nat} {m m' : Memory} {o : Option Nat} (hn : j + r = n)
    (h : unframeLoop r j m = .ok (o, m')) :
    Writes (Allowed .obuf j (searchEnd n o)) m m' ∧ j ≤ searchEnd n o ∧ ∀ k, o = some k → 2 ≤ k ∧ j ≤ k ∧ k < n := by
  induction r generalizing j m with
  | zero => cases h; exact ⟨.refl, by simp only [searchEnd]; omega, by simp⟩
  | succ r ih =>
    simp only [unframeLoop, bind_eq_ok] at h
    obtain ⟨b, _, hit, hh, h⟩ := h
    split at h
    · cases h
      have h2 : 2 ≤ j := by
        by_contra hn
        rw [obufMatch, if_neg hn] at hh
        cases hh
        simp at *
      exact ⟨writeByte_writes rfl (by decide) (Nat.le_refl j) (Nat.lt_succ_self j) _ _, by simp only [searchEnd]; omega,
        by simp; omega⟩
    · obtain ⟨h1, h2, h3⟩ := ih (by omega) h
      exact ⟨(writeByte_writes rfl (by decide) (Nat.le_refl j) h2 _ _).trans
        (h1.mono (Allowed.mono (Nat.le_succ j) (Nat.le_refl _))), by omega, fun k hk => by have := h3 k hk; omega⟩

/-- UNFRAME's loop faults only at a byte of WBUF that is unwritten. -/
theorem unframeLoop_error {r j : Nat} {m : Memory} {f : Fault} (h : unframeLoop r j m = .error f)
    (ho : ∀ k, k < j → m.byteAt .obuf k ≠ none) (hb : j + r ≤ 2 ^ 24) :
    ∃ k, j ≤ k ∧ k < j + r ∧ m.byteAt .wbuf k = none ∧ f = .unwrittenRead .wbuf k := by
  induction r generalizing j m with
  | zero => cases h
  | succ r ih =>
    simp only [unframeLoop, bind_eq_error] at h
    rcases h with h | ⟨b, hb1, h | ⟨hit, _, h⟩⟩
    · obtain ⟨h1, rfl⟩ := readByte_error.1 h
      exact ⟨j, Nat.le_refl j, by omega, h1, rfl⟩
    · exfalso
      have hr : ∀ k, k < j → ∃ v, readByte .obuf k (writeByte .obuf j b m) = .ok v := fun k hk => by
        obtain ⟨v, hv⟩ := Option.ne_none_iff_exists'.1 (ho k hk)
        exact ⟨v, readByte_ok.2 (by rw [byteAt_writeByte_ne (by omega), hv])⟩
      unfold obufMatch at h
      split at h
      · obtain ⟨v, hv⟩ := hr (j - 2) (by omega)
        obtain ⟨w, hw⟩ := hr (j - 1) (by omega)
        simp [hv, hw] at h
      · cases h
    · split at h
      · cases h
      · obtain ⟨k, h1, h2, h3, h4⟩ := ih h (fun k hk => by
          rcases Nat.lt_succ_iff_lt_or_eq.1 hk with h | rfl
          · rw [byteAt_writeByte_ne (by omega)]; exact ho k h
          · simp) (by omega)
        refine ⟨k, by omega, by omega, ?_, h4⟩
        rwa [byteAt_writeByte, if_neg (by simp only [Space.base]; omega)] at h3

/-! ### Where the terminator occurs -/

theorem find?_range_eq_some {n : Nat} {p : Nat → Bool} {j : Nat} :
    (List.range n).find? p = some j ↔ j < n ∧ p j = true ∧ ∀ k < j, p k = false := by
  rw [List.find?_range_eq_some]; simp; tauto

/-- `terminatorIndex` is an occurrence of the terminator or the length, and no occurrence comes before it. -/
theorem terminatorIndex_spec (p : List Byte) :
    (terminatorIndex p + 3 ≤ p.length ∧ (p.drop (terminatorIndex p)).take 3 = terminator ∨ terminatorIndex p = p.length)
      ∧ ∀ q, q < terminatorIndex p → (p.drop q).take 3 ≠ terminator := by
  unfold terminatorIndex
  cases h : (List.range p.length).find? (fun q => decide ((p.drop q).take 3 = terminator)) with
  | some q0 =>
    obtain ⟨h1, h2, h3⟩ := find?_range_eq_some.1 h
    have h2' : (p.drop q0).take 3 = terminator := by simpa using h2
    refine ⟨.inl ⟨?_, h2'⟩, fun q hq he => ?_⟩
    · have := congrArg List.length h2'
      simp [terminator] at this
      simp only [Option.getD_some]; omega
    · have := h3 q (by simpa using hq)
      simp [he] at this
  | none =>
    rw [List.find?_eq_none] at h
    refine ⟨.inr rfl, fun q hq he => ?_⟩
    exact h q (by simpa using hq) (by simpa using he)

theorem terminatorIndex_le (p : List Byte) : terminatorIndex p ≤ p.length := by
  rcases (terminatorIndex_spec p).1 with h | h <;> omega

end Sys2Proof.Machine
end

