-- ==== Sys2Proof/Laws/Scan.lean ====
section
/-! SUPPORT. The decoder's scan: it computes `decodeGrid`, reads only the pixels it may, writes only OBUF, and its
cursor stays inside the grid. -/

namespace Sys2Proof.Machine

/-! ### The cursor -/

/-- Where a running scan stands (10_state.md R34): `8·|S| + nb` pixels read, the cursor on that pixel of the grid. -/
def Scan.Placed (sc : Scan) (W N : Nat) : Prop :=
  sc.nb < 8 ∧ sc.y * W + sc.x = 8 * sc.bytes.length + sc.nb ∧ sc.y * W + sc.x ≤ N
    ∧ (sc.x < W ∨ sc.x = 0 ∧ sc.y = 0)

theorem Scan.start_placed (W N : Nat) : Scan.start.Placed W N := by
  simp [Scan.Placed, Scan.start]

/-- The cursor moves one pixel on. -/
theorem Scan.advance_cursor {sc : Scan} {W H : Nat} (hg : sc.Placed W (W * H)) (hp : sc.y * W + sc.x ≠ W * H) :
    (sc.advance W).y * W + (sc.advance W).x = sc.y * W + sc.x + 1
      ∧ ((sc.advance W).x < W ∨ (sc.advance W).x = 0 ∧ (sc.advance W).y = 0) := by
  obtain ⟨_, _, h3, h4⟩ := hg
  have hW : 0 < W := by
    rcases Nat.eq_zero_or_pos W with rfl | h
    · simp at h3 hp; omega
    · exact h
  have hx : sc.x < W := by rcases h4 with h | ⟨h, _⟩ <;> omega
  unfold Scan.advance
  split
  · rename_i h
    constructor
    · simp only [Nat.add_mul]; omega
    · exact .inl hW
  · exact ⟨by simp only; omega, .inl (by simp only; omega)⟩

@[simp] theorem Scan.advance_bytes (sc : Scan) (W : Nat) : (sc.advance W).bytes = sc.bytes := by
  unfold Scan.advance; split <;> rfl

/-- One scan step, cursor and byte count: what a step that runs on or matches leaves. -/
theorem scanStep_cases {W H : Nat} {sc : Scan} {m : Memory} {r : ScanStep} (hg : sc.Placed W (W * H))
    (h : scanStep W (W * H) sc m = .ok r) :
    (sc.y * W + sc.x = W * H ∧ r = .exhausted sc m)
      ∨ ∃ w, sc.y * W + sc.x < W * H ∧ m.pixelAt .src (sc.y * W + sc.x) = some w ∧
        ((∃ sc1, r = .running sc1 m ∧ sc1.Placed W (W * H) ∧ sc1.y * W + sc1.x = sc.y * W + sc.x + 1
            ∧ sc1.bytes = sc.bytes ∧ sc1.acc = shiftIn sc.acc (w.getLsbD 0) ∧ sc.nb + 1 < 8)
          ∨ ∃ sc1, sc1.Placed W (W * H) ∧ sc1.y * W + sc1.x = sc.y * W + sc.x + 1
            ∧ sc1.bytes = sc.bytes ++ [shiftIn sc.acc (w.getLsbD 0)] ∧ sc1.acc = 0x00#8 ∧ sc.nb + 1 = 8
            ∧ r = (if endsInTerminator sc1.bytes
                then .matched sc1 (writeByte .obuf sc.bytes.length (shiftIn sc.acc (w.getLsbD 0)) m)
                else .running sc1 (writeByte .obuf sc.bytes.length (shiftIn sc.acc (w.getLsbD 0)) m))) := by
  unfold scanStep at h
  split at h
  · cases h; exact .inl ⟨‹_›, rfl⟩
  · rename_i hp
    simp only [bind_eq_ok, readPixel_ok] at h
    obtain ⟨w, hw, h⟩ := h
    obtain rfl := Except.ok.inj h
    obtain ⟨hc1, hc2⟩ := Scan.advance_cursor hg hp
    obtain ⟨h1, h2, h3, h4⟩ := hg
    refine .inr ⟨w, by omega, hw, ?_⟩
    unfold scanByte
    split
    · rename_i h8
      simp only at h8
      refine .inr ⟨{ sc.advance W with
        acc := 0x00#8, nb := 0, bytes := (sc.advance W).bytes ++ [shiftIn sc.acc (w.getLsbD 0)] },
        ⟨by simp, ?_, ?_, hc2⟩, hc1, by simp, rfl, h8, ?_⟩
      · simp only [hc1, Scan.advance_bytes, List.length_append, List.length_singleton]; omega
      · simp only [hc1]; omega
      · simp only [Scan.advance_bytes, List.length_append, List.length_singleton, Nat.add_sub_cancel]
    · rename_i h8
      simp only at h8
      refine .inl ⟨_, rfl, ⟨by simp only; omega, ?_, ?_, hc2⟩, hc1, by simp, rfl, by omega⟩
      · simp only [hc1, Scan.advance_bytes]; omega
      · simp only [hc1]; omega

/-- A scan step faults only at the unwritten pixel under the cursor. -/
theorem scanStep_error {W N : Nat} {sc : Scan} {m : Memory} {f : Fault} (h : scanStep W N sc m = .error f) :
    sc.y * W + sc.x ≠ N ∧ m.pixelAt .src (sc.y * W + sc.x) = none
      ∧ f = .unwrittenRead .src (sc.y * W + sc.x) := by
  unfold scanStep at h
  split at h
  · cases h
  · rename_i hp
    simp only [bind_eq_error, readPixel_error] at h
    rcases h with ⟨h1, h2⟩ | ⟨_, _, h⟩
    · exact ⟨hp, h1, h2⟩
    · cases h

/-! ### The bytes assembled -/

theorem fromBits_take_eq (b : List Bool) (p : Nat) (hp : p ≤ b.length) :
    fromBits (b.take p) = (fromBits b).take (p / 8) := by
  have h1 : fromBits (b.take p) = fromBits (b.take (8 * (p / 8))) := by
    have := fromBits_take (b.take p)
    rw [List.length_take, Nat.min_eq_left hp, List.take_take, Nat.min_eq_left (by omega)] at this
    exact this.symm
  have h2 : fromBits b = fromBits (b.take (8 * (p / 8))) ++ fromBits (b.drop (8 * (p / 8))) := by
    conv_lhs => rw [← List.take_append_drop (8 * (p / 8)) b]
    exact fromBits_append_of_dvd (p / 8) (by simp; omega)
  have h3 : (fromBits (b.take (8 * (p / 8)))).length = p / 8 := by rw [length_fromBits]; simp; omega
  rw [h1]
  conv_rhs => rw [h2, List.take_left' h3]

/-- What the scan has in hand after `p` pixels with low bits `b` (R184): the whole groups as bytes, the rest in acc. -/
def Scan.Assembled (sc : Scan) (b : List Bool) (p : Nat) : Prop :=
  sc.bytes = fromBits (b.take p) ∧ sc.acc = bitsByte ((b.take p).drop (8 * (p / 8)))

theorem Scan.start_assembled (b : List Bool) : Scan.start.Assembled b 0 := by
  simp [Scan.Assembled, Scan.start, bitsByte, fromBits]

theorem shiftIn_assembled {b : List Bool} {p : Nat} (hp : p < b.length) :
    shiftIn (bitsByte ((b.take p).drop (8 * (p / 8)))) b[p] = bitsByte ((b.take (p + 1)).drop (8 * (p / 8))) := by
  have : (b.take (p + 1)).drop (8 * (p / 8)) = (b.take p).drop (8 * (p / 8)) ++ [b[p]] := by
    rw [List.take_add_one, List.getElem?_eq_getElem hp, List.drop_append_of_le_length (by simp; omega)]
    rfl
  rw [this, bitsByte_append]
  rfl

/-- The eighth bit of a group completes its byte (R184). -/
theorem fromBits_take_succ_full {b : List Bool} {p : Nat} (hp : p < b.length) (h8 : p % 8 = 7) :
    fromBits (b.take (p + 1)) = fromBits (b.take p) ++ [bitsByte ((b.take (p + 1)).drop (8 * (p / 8)))] := by
  have h1 := fromBits_append_of_dvd (a := (b.take (p + 1)).take (8 * (p / 8))) (b := (b.take (p + 1)).drop (8 * (p / 8)))
    (p / 8) (by simp; omega)
  rw [List.take_append_drop] at h1
  have h2 : fromBits ((b.take (p + 1)).drop (8 * (p / 8))) = [bitsByte ((b.take (p + 1)).drop (8 * (p / 8)))] := by
    have := fromBits_append (g := (b.take (p + 1)).drop (8 * (p / 8))) (b := []) (by simp; omega)
    simpa [fromBits] using this
  have h3 : fromBits ((b.take (p + 1)).take (8 * (p / 8))) = fromBits (b.take p) := by
    rw [List.take_take, Nat.min_eq_left (by omega), fromBits_take_eq _ _ (by omega), fromBits_take_eq _ _ (by omega)]
    congr 1; omega
  rw [h1, h2, h3]

theorem fromBits_take_succ_part {b : List Bool} {p : Nat} (hp : p < b.length) (h8 : p % 8 ≠ 7) :
    fromBits (b.take (p + 1)) = fromBits (b.take p) := by
  rw [fromBits_take_eq _ _ (by omega), fromBits_take_eq _ _ (by omega)]
  congr 1; omega

theorem pixelsRead_found {px : List Word} {q : List Byte} (h : unframe (fromBits (lowBits px)) = .found q) :
    pixelsRead px = 8 * (q.length + 3) := by simp [pixelsRead, h]

theorem pixelsRead_incomplete {px : List Word} {t : List Byte} (h : unframe (fromBits (lowBits px)) = .incomplete t) :
    pixelsRead px = px.length := by simp [pixelsRead, h]

/-- While nothing has matched, the next pixel is one of those a scan reads (R187). -/
theorem lt_pixelsRead {px : List Word} {p : Nat} (hp : p < px.length)
    (h : unframe (fromBits ((lowBits px).take p)) = .incomplete (fromBits ((lowBits px).take p))) :
    p < pixelsRead px := by
  rw [fromBits_take_eq _ _ (by simp; omega)] at h
  cases hu : unframe (fromBits (lowBits px)) with
  | incomplete t => rw [pixelsRead_incomplete hu]; exact hp
  | found q =>
    rw [pixelsRead_found hu]
    rcases Nat.lt_or_ge (p / 8) (fromBits (lowBits px)).length with hl | hl
    · have := lt_scannedBytes hl h
      rw [scannedBytes_found hu] at this
      simp at this; omega
    · rw [List.take_of_length_le hl, hu] at h
      cases h

/-! ### The whole scan -/

/-- The scan computes `decodeGrid` (R188): from where it stands it ends with FOUND or not as `decodeGrid` says, the
bytes looked at mirrored in OBUF, and nothing else changed; it needs only the pixels of R187. -/
theorem scanLoop_total {px : List Word} {W H : Nat} (hpx : px.length = W * H) (hb : W * H ≤ 2 ^ 24) (fuel : Nat)
    (sc : Scan) (m : Memory) (hg : sc.Placed W (W * H)) (ha : sc.Assembled (lowBits px) (sc.y * W + sc.x))
    (hf : W * H + 1 ≤ fuel + (sc.y * W + sc.x)) (ho : m.HoldsBytes .obuf sc.bytes)
    (hs : ∀ k, k < pixelsRead px → m.pixelAt .src k = px[k]?) (hi : unframe sc.bytes = .incomplete sc.bytes) :
    ∃ m', scanLoop W (W * H) fuel sc m = .ok ((decodeGrid px).2, scannedBytes (fromBits (lowBits px)), m')
      ∧ m'.HoldsBytes .obuf (scannedBytes (fromBits (lowBits px)))
      ∧ m.SameExcept (Space.Elems .obuf 0 (scannedBytes (fromBits (lowBits px))).length) m' := by
  induction fuel generalizing sc m with
  | zero => have := hg.2.2.1; omega
  | succ fuel ih =>
    obtain ⟨ha1, ha2⟩ := ha
    have hll : (lowBits px).length = W * H := by rw [length_lowBits, hpx]
    rcases Nat.lt_or_ge (sc.y * W + sc.x) (W * H) with hp | hp
    · -- one more pixel is read
      have hip : unframe (fromBits ((lowBits px).take (sc.y * W + sc.x)))
          = .incomplete (fromBits ((lowBits px).take (sc.y * W + sc.x))) := by rw [← ha1]; exact hi
      have hk := lt_pixelsRead (by omega) hip
      have hw : m.pixelAt .src (sc.y * W + sc.x) = some px[sc.y * W + sc.x] := by
        rw [hs _ hk, List.getElem?_eq_getElem]
      have hbit : px[sc.y * W + sc.x].getLsbD 0 = (lowBits px)[sc.y * W + sc.x] := by simp only [lowBits, List.getElem_map]
      obtain ⟨r, hr⟩ : ∃ r, scanStep W (W * H) sc m = .ok r := by
        refine ⟨scanByte { sc.advance W with acc := shiftIn sc.acc (px[sc.y * W + sc.x].getLsbD 0), nb := sc.nb + 1 } m, ?_⟩
        rw [scanStep, if_neg (by omega), readPixel_ok.2 hw, ok_bind]
      obtain ⟨h1, h2, h3, h4⟩ := id hg
      have hmod : (sc.y * W + sc.x) % 8 = sc.nb := by omega
      have hsh := shiftIn_assembled (b := lowBits px) (p := sc.y * W + sc.x) (by omega)
      rw [← ha2, ← hbit] at hsh
      rcases scanStep_cases hg hr with ⟨h, _⟩ | ⟨w, _, hw', ⟨sc1, rfl, hg1, hc1, hb1, ha1', hn1⟩ | ⟨sc1, hg1, hc1, hb1, ha1', hn1, hr1⟩⟩
      · omega
      · -- a bit of a group that is not full yet
        obtain rfl : w = px[sc.y * W + sc.x] := by rw [hw] at hw'; exact (Option.some.inj hw').symm
        rw [scanLoop, hr]
        simp only [ok_bind]
        refine ih sc1 m hg1 ⟨?_, ?_⟩ (by omega) (by rw [hb1]; exact ho) hs (by rw [hb1]; exact hi)
        · rw [hb1, hc1, fromBits_take_succ_part (by omega) (by omega), ha1]
        · rw [ha1', hc1, hsh, show (sc.y * W + sc.x + 1) / 8 = (sc.y * W + sc.x) / 8 by omega]
      · -- the eighth bit
        obtain rfl : w = px[sc.y * W + sc.x] := by rw [hw] at hw'; exact (Option.some.inj hw').symm
        have hfull : sc1.bytes = fromBits ((lowBits px).take (sc.y * W + sc.x + 1)) := by
          rw [fromBits_take_succ_full (by omega) (by omega), hb1, hsh, ← ha1]
        have hpre : fromBits ((lowBits px).take (sc.y * W + sc.x + 1))
            = (fromBits (lowBits px)).take ((sc.y * W + sc.x + 1) / 8) := fromBits_take_eq _ _ (by omega)
        set v := shiftIn sc.acc (px[sc.y * W + sc.x].getLsbD 0) with hv
        set m1 := writeByte .obuf sc.bytes.length v m with hm1
        have ho1 : m1.HoldsBytes .obuf sc1.bytes := by
          intro k hk
          rw [hb1, List.length_append, List.length_singleton] at hk
          rcases Nat.lt_succ_iff_lt_or_eq.1 hk with h | rfl
          · rw [hm1, byteAt_writeByte_ne (by omega), hb1, List.getElem?_append_left h]; exact ho k h
          · rw [hm1, byteAt_writeByte_same, hb1]; simp
        have hlen : sc.bytes.length < (scannedBytes (fromBits (lowBits px))).length := by
          have hj : sc.bytes.length = (sc.y * W + sc.x) / 8 := by omega
          have hlf : (fromBits (lowBits px)).length = W * H / 8 := by rw [length_fromBits, hll]
          apply lt_scannedBytes (by omega)
          rw [hj, ← fromBits_take_eq _ _ (by omega)]
          exact hip
        have hs1 : m.SameExcept (Space.Elems .obuf 0 (scannedBytes (fromBits (lowBits px))).length) m1 :=
          (writeByte_writes rfl (by decide) (Nat.zero_le _) hlen v m).same fun _ _ h => h.1
        rw [scanLoop, hr, hr1]
        simp only [ok_bind]
        rcases unframe_next v hi with ⟨q, hq, he, hfq⟩ | ⟨he, hi'⟩
        · rw [← hb1] at hq he hfq
          have hall : unframe (fromBits (lowBits px)) = .found q := by
            have := unframe_append ((fromBits (lowBits px)).drop ((sc.y * W + sc.x + 1) / 8)) hfq
            rwa [hfull, hpre, List.take_append_drop] at this
          have hsb : scannedBytes (fromBits (lowBits px)) = sc1.bytes := by rw [scannedBytes_found hall, hq]
          refine ⟨m1, ?_, by rw [hsb]; exact ho1, hs1⟩
          simp only [he, if_true, hsb, decodeGrid_eq, hall]
        · rw [← hb1] at he hi'
          simp only [he, Bool.false_eq_true, if_false]
          have hs' : ∀ k, k < pixelsRead px → m1.pixelAt .src k = px[k]? := fun k hk => by
            rw [← hs k hk]
            refine hs1.pixelAt fun l hl hel => ?_
            have := hel.2
            have h5 := (scannedBytes_eq_take (fromBits (lowBits px))).2
            rw [length_fromBits, hll] at h5
            simp only [Space.base, Space.stride] at this
            omega
          obtain ⟨m', e1, e2, e3⟩ := ih sc1 m1 hg1
            ⟨by rw [hc1, hfull], by rw [ha1', hc1, List.drop_of_length_le (by simp; omega)]; rfl⟩ (by omega) ho1 hs' hi'
          exact ⟨m', e1, e2, hs1.trans e3⟩
    · -- the grid is exhausted
      have hp' : sc.y * W + sc.x = W * H := le_antisymm hg.2.2.1 hp
      have hall : sc.bytes = fromBits (lowBits px) := by rw [ha1, List.take_of_length_le (by omega)]
      rw [hall] at hi ho
      rw [scanLoop, scanStep, if_pos hp']
      refine ⟨m, ?_, by rw [scannedBytes_incomplete hi]; exact ho, .refl m⟩
      simp only [ok_bind, scannedBytes_incomplete hi, decodeGrid_eq, hi, hall]

/-- However a scan ends, it wrote only the bytes of OBUF it assembled; on a match they end in the terminator, and
without one the whole grid was read. -/
theorem scanLoop_writes {W H : Nat} {fuel : Nat} {sc : Scan} {m m' : Memory} {b : Bool} {bytes : List Byte}
    (hg : sc.Placed W (W * H)) (h : scanLoop W (W * H) fuel sc m = .ok (b, bytes, m')) :
    Writes (Allowed .obuf sc.bytes.length bytes.length) m m' ∧ sc.bytes.length ≤ bytes.length
      ∧ 8 * bytes.length ≤ W * H ∧ (b = true → ∃ q, bytes = q ++ terminator) := by
  induction fuel generalizing sc m with
  | zero => cases h; have := hg.2; exact ⟨.refl, Nat.le_refl _, by omega, by simp⟩
  | succ fuel ih =>
    simp only [scanLoop, bind_eq_ok] at h
    obtain ⟨r, hr, h⟩ := h
    rcases scanStep_cases hg hr with ⟨hp, rfl⟩ | ⟨w, hp, _, ⟨sc1, rfl, hg1, _, hb1, _⟩ | ⟨sc1, hg1, hc1, hb1, _, _, rfl⟩⟩
    · cases h; have := hg.2; exact ⟨.refl, Nat.le_refl _, by omega, by simp⟩
    · have := ih hg1 h
      rwa [hb1] at this
    · split at h
      · rename_i he
        split at he
        · cases he
        · rename_i he'
          cases he
          obtain ⟨h1, h2, h3, h4⟩ := ih hg1 h
          rw [hb1, List.length_append, List.length_singleton] at h1 h2
          exact ⟨(writeByte_writes rfl (by decide) (Nat.le_refl _) h2 _ _).trans
            (h1.mono (Allowed.mono (Nat.le_succ _) (Nat.le_refl _))), by omega, h3, h4⟩
      · rename_i he
        split at he
        · rename_i he'
          cases he
          cases h
          have hlen := congrArg List.length hb1
          rw [List.length_append, List.length_singleton] at hlen
          refine ⟨writeByte_writes rfl (by decide) (Nat.le_refl _) (by omega) _ _, by omega, ?_,
            fun _ => endsInTerminator_iff.1 he'⟩
          have := hg1.2; omega
        · cases he
      · rename_i he
        split at he <;> cases he

/-- A scan faults only at a pixel of the grid that is unwritten. -/
theorem scanLoop_error {W H : Nat} {fuel : Nat} {sc : Scan} {m : Memory} {f : Fault} (hb : W * H ≤ 2 ^ 24)
    (hg : sc.Placed W (W * H)) (h : scanLoop W (W * H) fuel sc m = .error f) :
    ∃ p, p < W * H ∧ m.pixelAt .src p = none ∧ f = .unwrittenRead .src p := by
  induction fuel generalizing sc m with
  | zero => cases h
  | succ fuel ih =>
    simp only [scanLoop, bind_eq_error] at h
    rcases h with h | ⟨r, hr, h⟩
    · obtain ⟨h1, h2, h3⟩ := scanStep_error h
      exact ⟨_, lt_of_le_of_ne hg.2.2.1 h1, h2, h3⟩
    · rcases scanStep_cases hg hr with ⟨_, rfl⟩ | ⟨w, hp, _, ⟨sc1, rfl, hg1, _⟩ | ⟨sc1, hg1, hc1, hb1, _, _, rfl⟩⟩
      · cases h
      · exact ih hg1 h
      · split at h
        · rename_i he
          split at he
          · cases he
          · cases he
            obtain ⟨p, h1, h2, h3⟩ := ih hg1 h
            refine ⟨p, h1, ?_, h3⟩
            rw [← h2]
            refine (((writeByte_writes (sp := .obuf) rfl (by decide) (Nat.zero_le _) (Nat.lt_succ_self _) _ m).same
              (P := Space.Elems .obuf 0 (sc.bytes.length + 1)) fun _ _ h => h.1).pixelAt fun l hl hel => ?_).symm
            have := hel.2
            have := hg.2
            simp only [Space.base, Space.stride] at *
            omega
        · cases h
        · cases h

end Sys2Proof.Machine
end

