-- ==== Sys2Proof/Laws/State.lean ====
section
/-! SUPPORT. One lemma per field per update of the state: acceptance, the end of a command, reset. -/

namespace Sys2Proof.Machine

variable (s : State) (e : ErrCode) (v : Word) (c : Config) (inp : List Input)

/-! ### The end of a command (60_exceptions.md R257, R258) -/

@[simp] theorem endWith_cfg : (endWith e s).cfg = s.cfg := rfl
@[simp] theorem endWith_seq : (endWith e s).seq = .idle := rfl
@[simp] theorem endWith_status : (endWith e s).status = s.status.ended e := rfl
@[simp] theorem endWith_width : (endWith e s).width = s.width := rfl
@[simp] theorem endWith_height : (endWith e s).height = s.height := rfl
@[simp] theorem endWith_plen : (endWith e s).plen = s.plen := rfl
@[simp] theorem endWith_klen : (endWith e s).klen = s.klen := rfl
@[simp] theorem endWith_wlen : (endWith e s).wlen = s.wlen := rfl
@[simp] theorem endWith_blen : (endWith e s).blen = s.blen := rfl
@[simp] theorem endWith_olen : (endWith e s).olen = s.olen := rfl
@[simp] theorem endWith_mem : (endWith e s).mem = s.mem := rfl
@[simp] theorem endWith_scan : (endWith e s).scan = none := rfl
@[simp] theorem endWith_inputs : (endWith e s).inputs = s.inputs := rfl
@[simp] theorem endWith_reply : (endWith e s).reply = s.reply := rfl

@[simp] theorem complete_eq : complete s = endWith .none s := rfl
@[simp] theorem completeIncomplete_eq : completeIncomplete s = endWith .incomplete s := rfl
@[simp] theorem raise_eq : raise e s = endWith e s := rfl

/-! ### Acceptance (60_exceptions.md R255) -/

@[simp] theorem accept_cfg : (accept v s).cfg = s.cfg := rfl
@[simp] theorem accept_seq : (accept v s).seq = .busy v := rfl
@[simp] theorem accept_status : (accept v s).status = .accepted v := rfl
@[simp] theorem accept_width : (accept v s).width = s.width := rfl
@[simp] theorem accept_height : (accept v s).height = s.height := rfl
@[simp] theorem accept_plen : (accept v s).plen = s.plen := rfl
@[simp] theorem accept_klen : (accept v s).klen = s.klen := rfl
@[simp] theorem accept_wlen : (accept v s).wlen = s.wlen := rfl
@[simp] theorem accept_blen : (accept v s).blen = s.blen := rfl
@[simp] theorem accept_olen : (accept v s).olen = s.olen := rfl
@[simp] theorem accept_mem : (accept v s).mem = s.mem := rfl
@[simp] theorem accept_scan : (accept v s).scan = none := rfl
@[simp] theorem accept_inputs : (accept v s).inputs = s.inputs := rfl
@[simp] theorem accept_reply : (accept v s).reply = s.reply := rfl

/-! ### Reset (70_reset_and_hazards.md R280 to R283) -/

@[simp] theorem State.resetWith_cfg : (State.resetWith c inp).cfg = c := rfl
@[simp] theorem State.resetWith_seq : (State.resetWith c inp).seq = .idle := rfl
@[simp] theorem State.resetWith_status : (State.resetWith c inp).status = .reset := rfl
@[simp] theorem State.resetWith_width : (State.resetWith c inp).width = 0 := rfl
@[simp] theorem State.resetWith_height : (State.resetWith c inp).height = 0 := rfl
@[simp] theorem State.resetWith_plen : (State.resetWith c inp).plen = 0 := rfl
@[simp] theorem State.resetWith_klen : (State.resetWith c inp).klen = 0 := rfl
@[simp] theorem State.resetWith_wlen : (State.resetWith c inp).wlen = 0 := rfl
@[simp] theorem State.resetWith_blen : (State.resetWith c inp).blen = 0 := rfl
@[simp] theorem State.resetWith_olen : (State.resetWith c inp).olen = 0 := rfl
@[simp] theorem State.resetWith_mem : (State.resetWith c inp).mem = [] := rfl
@[simp] theorem State.resetWith_scan : (State.resetWith c inp).scan = none := rfl
@[simp] theorem State.resetWith_inputs : (State.resetWith c inp).inputs = inp := rfl
@[simp] theorem State.resetWith_reply : (State.resetWith c inp).reply = .nothing := rfl

@[simp] theorem assertReset_eq : assertReset s = State.resetWith s.cfg s.inputs := rfl

/-! ### STATUS -/

@[simp] theorem Status.ended_done (st : Status) : (st.ended e).done = true := rfl
@[simp] theorem Status.ended_found (st : Status) : (st.ended e).found = st.found := rfl
@[simp] theorem Status.ended_ovr (st : Status) : (st.ended e).ovr = st.ovr := rfl
@[simp] theorem Status.ended_err (st : Status) : (st.ended e).err = e := rfl
@[simp] theorem Status.ended_lastop (st : Status) : (st.ended e).lastop = st.lastop := rfl
@[simp] theorem Status.ended_dstate (st : Status) : (st.ended e).dstate = st.dstate := rfl

@[simp] theorem Status.accepted_done : (Status.accepted v).done = false := rfl
@[simp] theorem Status.accepted_found : (Status.accepted v).found = false := rfl
@[simp] theorem Status.accepted_ovr : (Status.accepted v).ovr = false := rfl
@[simp] theorem Status.accepted_err : (Status.accepted v).err = .none := rfl
@[simp] theorem Status.accepted_lastop : (Status.accepted v).lastop = opField v := rfl
@[simp] theorem Status.accepted_dstate : (Status.accepted v).dstate = .none := rfl

@[simp] theorem Status.reset_done : Status.reset.done = false := rfl
@[simp] theorem Status.reset_found : Status.reset.found = false := rfl
@[simp] theorem Status.reset_ovr : Status.reset.ovr = false := rfl
@[simp] theorem Status.reset_err : Status.reset.err = .none := rfl
@[simp] theorem Status.reset_lastop : Status.reset.lastop = 0 := rfl
@[simp] theorem Status.reset_dstate : Status.reset.dstate = .none := rfl

theorem isBusy_iff : s.isBusy = true ↔ s.seq ≠ .idle := by
  cases h : s.seq <;> simp [State.isBusy, h]

theorem isBusy_false_iff : s.isBusy = false ↔ s.seq = .idle := by
  cases h : s.seq <;> simp [State.isBusy, h]

@[simp] theorem isBusy_endWith : (endWith e s).isBusy = false := rfl
@[simp] theorem isBusy_accept : (accept v s).isBusy = true := rfl
@[simp] theorem isBusy_resetWith : (State.resetWith c inp).isBusy = false := rfl

end Sys2Proof.Machine
end

