-- ==== Sys2Proof/Laws/Commands.lean ====
section
/-! SUPPORT. What each command can answer: its checks are R251 and R252's, what it writes is R83's, and its model faults
name elements that were unwritten. -/

namespace Sys2Proof.Machine

/-! ### The checks are the tables of R250 to R252 -/

theorem check_xor (s : State) : xorCheck s = firstError s .xor := by
  simp [xorCheck, firstError, lengthViolated, keyEmpty, bitsMisaligned, overCapacity]
theorem check_frame (s : State) : frameCheck s = firstError s .frame := by
  simp [frameCheck, firstError, lengthViolated, keyEmpty, bitsMisaligned, overCapacity]
theorem check_unframe (s : State) : unframeCheck s = firstError s .unframe := by
  simp [unframeCheck, firstError, lengthViolated, keyEmpty, bitsMisaligned, overCapacity]
theorem check_pack (s : State) : packCheck s = firstError s .pack := by
  simp [packCheck, firstError, lengthViolated, keyEmpty, bitsMisaligned, overCapacity]
theorem check_unpack (s : State) : unpackCheck s = firstError s .unpack := by
  simp [unpackCheck, firstError, lengthViolated, keyEmpty, bitsMisaligned, overCapacity]
theorem check_encode (s : State) : encodeCheck s = firstError s .encode := by
  simp [encodeCheck, firstError, lengthViolated, keyEmpty, bitsMisaligned, overCapacity]
theorem check_decode (s : State) : decodeCheck s = firstError s .decode := by
  simp [decodeCheck, firstError, lengthViolated, keyEmpty, bitsMisaligned, overCapacity]
theorem check_move (s : State) : moveCheck s = firstError s .move := by
  simp [moveCheck, firstError, lengthViolated, keyEmpty, bitsMisaligned, overCapacity]
theorem check_copy (s : State) : copyCheck s = firstError s .copy := by
  simp [copyCheck, firstError, lengthViolated, keyEmpty, bitsMisaligned, overCapacity]
theorem check_hide (s : State) : hideCheck s = firstError s .hide := by
  simp [hideCheck, firstError, lengthViolated, keyEmpty, bitsMisaligned, overCapacity]
theorem check_show (s : State) : showCheck s = firstError s .show_ := by
  simp [showCheck, firstError, lengthViolated, keyEmpty, bitsMisaligned, overCapacity]

/-! ### What the loops write -/

theorem moveLoop_writes {n : Nat} {m m' : Memory} (h : moveLoop n m = .ok m') : Writes (Allowed .wbuf 0 n) m m' :=
  loop_writes h fun i m m' hi h => by
    simp only [bind_eq_ok] at h
    obtain ⟨b, _, h⟩ := h
    cases h
    exact writeByte_writes rfl (by decide) (Nat.zero_le i) hi _ _

theorem xorLoop_writes {n k : Nat} {m m' : Memory} (h : xorLoop n k m = .ok m') : Writes (Allowed .wbuf 0 n) m m' :=
  loop_writes h fun i m m' hi h => by
    simp only [bind_eq_ok] at h
    obtain ⟨b, _, c, _, h⟩ := h
    cases h
    exact writeByte_writes rfl (by decide) (Nat.zero_le i) hi _ _

theorem decipherLoop_writes {n k : Nat} {m m' : Memory} (h : decipherLoop n k m = .ok m') :
    Writes (Allowed .obuf 0 n) m m' :=
  loop_writes h fun i m m' hi h => by
    simp only [bind_eq_ok] at h
    obtain ⟨b, _, c, _, h⟩ := h
    cases h
    exact writeByte_writes rfl (by decide) (Nat.zero_le i) hi _ _

theorem packLoop_writes {n : Nat} {m m' : Memory} (h : packLoop n m = .ok m') :
    Writes (Allowed .bbuf 0 (8 * n)) m m' :=
  loop_writes h fun i m m' hi h => by
    simp only [bind_eq_ok] at h
    obtain ⟨v, _, h⟩ := h
    refine loop_writes h fun t m m' ht h => ?_
    cases h
    exact writeBit_writes (Nat.zero_le _) (by omega) _ _

theorem unpackLoop_writes {n : Nat} {m m' : Memory} (h : unpackLoop n m = .ok m') : Writes (Allowed .wbuf 0 n) m m' :=
  loop_writes h fun i m m' hi h => by
    simp only [bind_eq_ok] at h
    obtain ⟨b, _, h⟩ := h
    cases h
    exact writeByte_writes rfl (by decide) (Nat.zero_le i) hi _ _

theorem copyLoop_writes {n : Nat} {m m' : Memory} (h : copyLoop n m = .ok m') : Writes (Allowed .src 0 n) m m' :=
  loop_writes h fun i m m' hi h => by
    simp only [bind_eq_ok] at h
    obtain ⟨w, _, h⟩ := h
    cases h
    exact writePixel_writes rfl (Nat.zero_le i) hi _ _

theorem embedLoop_writes {N n : Nat} {m m' : Memory} (h : embedLoop N n m = .ok m') :
    Writes (Allowed .dst 0 N) m m' :=
  loop_writes h fun i m m' hi h => by
    simp only [bind_eq_ok] at h
    obtain ⟨w, _, h⟩ := h
    split at h
    · simp only [bind_eq_ok] at h
      obtain ⟨b, _, h⟩ := h
      cases h
      exact writePixel_writes rfl (Nat.zero_le i) hi _ _
    · cases h
      exact writePixel_writes rfl (Nat.zero_le i) hi _ _

/-! ### Where the loops fault -/

/-- The elements of a buffer that is not written read as before. -/
theorem Writes.byteAt_before {sp sp' : Space} {lo hi i : Nat} {m m' : Memory} (h : Writes (Allowed sp' lo hi) m m')
    (hd : sp.base + i < sp'.base ∨ sp'.base + sp'.stride * hi ≤ sp.base + i) : m'.byteAt sp i = m.byteAt sp i :=
  (h.same (P := sp'.Elems lo hi) fun _ _ h => h.1).byteAt fun he => by
    have := he.1; have := he.2; have := Nat.zero_le (sp'.stride * lo); omega

theorem Writes.pixelAt_before {sp sp' : Space} {lo hi i : Nat} {m m' : Memory} (h : Writes (Allowed sp' lo hi) m m')
    (hd : sp.base + 4 * i + 3 < sp'.base ∨ sp'.base + sp'.stride * hi ≤ sp.base + 4 * i) :
    m'.pixelAt sp i = m.pixelAt sp i :=
  (h.same (P := sp'.Elems lo hi) fun _ _ h => h.1).pixelAt fun l hl he => by
    have := he.1; have := he.2; have := Nat.zero_le (sp'.stride * lo); omega

theorem moveLoop_error {n : Nat} {m : Memory} {f : Fault} (hn : n ≤ 2 ^ 24) (h : moveLoop n m = .error f) :
    ∃ i, i < n ∧ m.byteAt .pbuf i = none ∧ f = .unwrittenRead .pbuf i := by
  obtain ⟨i, m', hi, hm, he⟩ := loop_error h
  have hw := moveLoop_writes (n := i) hm
  simp only [bind_eq_error, readByte_error] at he
  rcases he with ⟨h1, h2⟩ | ⟨_, _, h⟩
  · exact ⟨i, hi, by rw [← h1, hw.byteAt_before (.inl (by simp only [Space.base]; omega))], h2⟩
  · cases h

theorem xorLoop_error {n k : Nat} {m : Memory} {f : Fault} (hn : n ≤ 2 ^ 24) (hk : 0 < k) (hk' : k ≤ 2 ^ 24)
    (h : xorLoop n k m = .error f) :
    (∃ i, i < n ∧ m.byteAt .pbuf i = none ∧ f = .unwrittenRead .pbuf i)
      ∨ ∃ j, j < min k n ∧ m.byteAt .kbuf j = none ∧ f = .unwrittenRead .kbuf j := by
  obtain ⟨i, m', hi, hm, he⟩ := loop_error h
  have hw := xorLoop_writes (n := i) hm
  have hj : i % k < min k n := lt_min (Nat.mod_lt i hk) (lt_of_le_of_lt (Nat.mod_le i k) hi)
  simp only [bind_eq_error, readByte_error] at he
  rcases he with ⟨h1, h2⟩ | ⟨_, _, ⟨h1, h2⟩ | ⟨_, _, h⟩⟩
  · exact .inl ⟨i, hi, by rw [← h1, hw.byteAt_before (.inl (by simp only [Space.base]; omega))], h2⟩
  · exact .inr ⟨i % k, hj, by rw [← h1, hw.byteAt_before (.inl (by simp only [Space.base]; omega))], h2⟩
  · cases h

theorem decipherLoop_error {n k : Nat} {m : Memory} {f : Fault} (hk : 0 < k) (hk' : k ≤ 2 ^ 24)
    (ho : ∀ i, i < n → m.byteAt .obuf i ≠ none) (h : decipherLoop n k m = .error f) :
    ∃ j, j < min k n ∧ m.byteAt .kbuf j = none ∧ f = .unwrittenRead .kbuf j := by
  obtain ⟨i, m', hi, hm, he⟩ := loop_error h
  have hw := decipherLoop_writes (n := i) hm
  have hj : i % k < min k n := lt_min (Nat.mod_lt i hk) (lt_of_le_of_lt (Nat.mod_le i k) hi)
  simp only [bind_eq_error, readByte_error] at he
  rcases he with ⟨h1, h2⟩ | ⟨_, _, ⟨h1, h2⟩ | ⟨_, _, h⟩⟩
  · exfalso
    rw [(hw.same (P := Space.Elems .obuf 0 i) fun _ _ h => h.1).byteAt_of_elems
      (.inr (by simp only [Space.base, Space.stride]; omega))] at h1
    exact ho i hi h1
  · exact ⟨i % k, hj, by rw [← h1, hw.byteAt_before (.inl (by simp only [Space.base]; omega))], h2⟩
  · cases h

theorem packLoop_error {n : Nat} {m : Memory} {f : Fault} (hn : n ≤ 2 ^ 24) (h : packLoop n m = .error f) :
    ∃ i, i < n ∧ m.byteAt .wbuf i = none ∧ f = .unwrittenRead .wbuf i := by
  obtain ⟨i, m', hi, hm, he⟩ := loop_error h
  have hw := packLoop_writes (n := i) hm
  simp only [bind_eq_error, readByte_error] at he
  rcases he with ⟨h1, h2⟩ | ⟨v, _, h⟩
  · exact ⟨i, hi, by rw [← h1, hw.byteAt_before (.inl (by simp only [Space.base]; omega))], h2⟩
  · obtain ⟨_, _, _, _, h⟩ := loop_error h
    cases h

theorem gatherByte_error {j : Nat} {m : Memory} {f : Fault} (h : gatherByte j m = .error f) :
    ∃ i, i < 8 * j + 8 ∧ m.bitAt i = none ∧ f = .unwrittenRead .bbuf i := by
  obtain ⟨t, acc, ht, _, he⟩ := loop_error h
  simp only [bind_eq_error, readBit_error] at he
  rcases he with ⟨h1, h2⟩ | ⟨_, _, h⟩
  · exact ⟨_, by omega, h1, h2⟩
  · cases h

theorem unpackLoop_error {n : Nat} {m : Memory} {f : Fault} (hn : n ≤ 2 ^ 24) (h : unpackLoop n m = .error f) :
    ∃ i, i < 8 * n ∧ m.bitAt i = none ∧ f = .unwrittenRead .bbuf i := by
  obtain ⟨j, m', hj, hm, he⟩ := loop_error h
  have hw := unpackLoop_writes (n := j) hm
  simp only [bind_eq_error] at he
  rcases he with he | ⟨_, _, h⟩
  · obtain ⟨i, h1, h2, h3⟩ := gatherByte_error he
    refine ⟨i, by omega, ?_, h3⟩
    rw [← h2, Memory.bitAt, Memory.bitAt, hw.byteAt_before (.inr (by simp only [Space.base, Space.stride]; omega))]
  · cases h

theorem copyLoop_error {n : Nat} {m : Memory} {f : Fault} (h : copyLoop n m = .error f) :
    ∃ i, i < n ∧ m.pixelAt .dst i = none ∧ f = .unwrittenRead .dst i := by
  obtain ⟨i, m', hi, hm, he⟩ := loop_error h
  have hw := copyLoop_writes (n := i) hm
  simp only [bind_eq_error, readPixel_error] at he
  rcases he with ⟨h1, h2⟩ | ⟨_, _, h⟩
  · refine ⟨i, hi, ?_, h2⟩
    rw [← h1, hw.pixelAt_before (.inr (by simp only [Space.base, Space.stride]; omega))]
  · cases h

theorem embedLoop_error {N n : Nat} {m : Memory} {f : Fault} (hN : N ≤ 2 ^ 24) (h : embedLoop N n m = .error f) :
    (∃ p, p < N ∧ m.pixelAt .src p = none ∧ f = .unwrittenRead .src p)
      ∨ ∃ p, p < N ∧ p < n ∧ m.bitAt p = none ∧ f = .unwrittenRead .bbuf p := by
  obtain ⟨i, m', hi, hm, he⟩ := loop_error h
  have hw := embedLoop_writes (N := i) hm
  simp only [bind_eq_error, readPixel_error] at he
  rcases he with ⟨h1, h2⟩ | ⟨w, _, h⟩
  · exact .inl ⟨i, hi, by rw [← h1, hw.pixelAt_before (.inl (by simp only [Space.base]; omega))], h2⟩
  · split at h
    · simp only [bind_eq_error, readBit_error] at h
      rcases h with ⟨h1, h2⟩ | ⟨_, _, h⟩
      · refine .inr ⟨i, hi, ‹_›, ?_, h2⟩
        rw [← h1, Memory.bitAt, Memory.bitAt, hw.byteAt_before (.inl (by simp only [Space.base]; omega))]
      · cases h
    · cases h

end Sys2Proof.Machine
end

