-- ==== Sys2Proof/Laws/Exec.lean ====
section
/-! SUPPORT. What the completion of a command can do (60_exceptions.md R257, R258): it raises an error and changes only
STATUS, or it completes within the limits of R83; and the model faults it can stop at. -/

namespace Sys2Proof.Machine

/-- A byte of an element that exists, one bit in BBUF's window. -/
def ElemByte (c : Config) (a : Nat) (b : Byte) : Prop :=
  ∃ sp : Space, sp.base ≤ a ∧ a < sp.base + sp.used c ∧ (sp = .bbuf → b.toNat < 2)

theorem Allowed.elemByte {c : Config} {sp : Space} {lo hi a : Nat} {b : Byte} (h : Allowed sp lo hi a b)
    (hc : hi ≤ sp.cap c) : ElemByte c a b := by
  refine ⟨sp, le_trans (Nat.le_add_right _ _) h.1.1, lt_of_lt_of_le h.1.2 ?_, h.2⟩
  rw [Space.used, Nat.mul_comm (sp.cap c)]
  exact Nat.add_le_add_left (Nat.mul_le_mul_left _ hc) _

/-- What a command that completes leaves (R257): where it may have written, and how each field stands to the state
before. -/
structure Completed (i : Instr) (s t : State) : Prop where
  cfg : t.cfg = s.cfg
  seq : t.seq = .idle
  scan : t.scan = none
  width : t.width = s.width
  height : t.height = s.height
  plen : t.plen = s.plen
  klen : t.klen = s.klen
  inputs : t.inputs = s.inputs
  reply : t.reply = s.reply
  done : t.status.done = true
  lastop : t.status.lastop = s.status.lastop
  ovr : t.status.ovr = s.status.ovr
  wlen : i ∉ [Instr.xor, .move, .frame, .unpack, .hide] → t.wlen = s.wlen
  blen : i ∉ [Instr.pack, .hide] → t.blen = s.blen
  olen : i ∉ [Instr.unframe, .decode, .show_] → t.olen = s.olen
  plain : i ∉ [Instr.unframe, .decode, .show_] → t.status.err = .none ∧ t.status.found = s.status.found
  search : i ∈ [Instr.unframe, .decode, .show_] →
    t.status.err = .none ∧ t.status.found = true ∨ t.status.err = .incomplete ∧ t.status.found = s.status.found
  noScan : i ∉ [Instr.decode, .show_] → t.status.dstate = s.status.dstate
  scanned : i ∈ [Instr.decode, .show_] →
    t.status.err = .none ∧ t.status.dstate = .done ∨ t.status.err = .incomplete ∧ t.status.dstate = .incomplete
  mem : Writes (fun a b => MayWrite i s t a ∧ ElemByte s.cfg a b) s.mem t.mem

/-! ### The scan of a state -/

/-- A scan starts, or goes on, from a cursor inside the grid. -/
theorem scan_placed {s : State} (h : s.ScanOk) : (s.scan.getD Scan.start).Placed s.width.toNat s.gridSize := by
  cases hs : s.scan with
  | none => exact Scan.start_placed _ _
  | some sc =>
    obtain ⟨_, h1, h2, h3, h4, _⟩ := h sc hs
    exact ⟨h1, h2, h3, h4⟩

theorem runScan_writes {s : State} (h : s.ScanOk) {b : Bool} {bytes : List Byte} {m : Memory}
    (hr : runScan s = .ok (b, bytes, m)) :
    Writes (Allowed .obuf 0 bytes.length) s.mem m ∧ 8 * bytes.length ≤ s.gridSize
      ∧ (b = true → 3 ≤ bytes.length) := by
  obtain ⟨h1, h2, h3, h4⟩ := scanLoop_writes (scan_placed h) hr
  refine ⟨h1.mono (Allowed.mono (Nat.zero_le _) (Nat.le_refl _)), h3, fun hb => ?_⟩
  obtain ⟨q, rfl⟩ := h4 hb
  simp

/-- Every byte a scan has assembled stands in OBUF. -/
theorem scanLoop_mirrored {W H fuel : Nat} {sc : Scan} {m m' : Memory} {b : Bool} {bytes : List Byte}
    (hg : sc.Placed W (W * H)) (ho : m.HoldsBytes .obuf sc.bytes)
    (h : scanLoop W (W * H) fuel sc m = .ok (b, bytes, m')) : m'.HoldsBytes .obuf bytes := by
  induction fuel generalizing sc m with
  | zero => cases h; exact ho
  | succ fuel ih =>
    simp only [scanLoop, bind_eq_ok] at h
    obtain ⟨r, hr, h⟩ := h
    rcases scanStep_cases hg hr with ⟨_, rfl⟩ | ⟨w, _, _, ⟨sc1, rfl, hg1, _, hb1, _⟩ | ⟨sc1, hg1, _, hb1, _, _, rfl⟩⟩
    · cases h; exact ho
    · exact ih hg1 (by rw [hb1]; exact ho) h
    · have ho1 : (writeByte .obuf sc.bytes.length (shiftIn sc.acc (w.getLsbD 0)) m).HoldsBytes .obuf sc1.bytes := by
        intro k hk
        rw [hb1, List.length_append, List.length_singleton] at hk
        rcases Nat.lt_succ_iff_lt_or_eq.1 hk with h | rfl
        · rw [byteAt_writeByte_ne (by omega), hb1, List.getElem?_append_left h]; exact ho k h
        · rw [byteAt_writeByte_same, hb1]; simp
      split at h
      · rename_i he
        split at he <;> cases he
        exact ih hg1 ho1 h
      · rename_i he
        split at he <;> cases he
        cases h
        exact ho1
      · rename_i he
        split at he <;> cases he

theorem runScan_mirrored {s : State} (h : s.ScanOk) {b : Bool} {bytes : List Byte} {m : Memory}
    (hr : runScan s = .ok (b, bytes, m)) : m.HoldsBytes .obuf bytes := by
  refine scanLoop_mirrored (scan_placed h) ?_ hr
  cases hs : s.scan with
  | none => intro k hk; simp [Scan.start] at hk
  | some sc => exact (h sc hs).2.2.2.2.2.1

/-- What valid parameters (00_scope.md R8) say about the capacities. -/
theorem valid_bounds {c : Config} (hv : c.Valid) : c.pMax + 3 ≤ 2 ^ 21 ∧ 1 ≤ c.kMax ∧ c.kMax ≤ 2 ^ 24
    ∧ c.pixMax ≤ 2 ^ 24 ∧ c.wMax = c.pMax + 3 ∧ c.bMax = 8 * (c.pMax + 3) := by
  obtain ⟨h1, ⟨h2, h3⟩, h4, _⟩ := hv
  exact ⟨by omega, h2, h3, h4, rfl, rfl⟩

theorem decodeGrid_found {px : List Word} {q : List Byte} (h : decodeGrid px = (q, true)) :
    unframe (fromBits (lowBits px)) = .found q := by
  rw [decodeGrid_eq] at h
  revert h
  cases unframe (fromBits (lowBits px)) <;> simp

theorem decodeGrid_incomplete {px : List Word} {b : List Byte} (h : decodeGrid px = (b, false)) :
    b = fromBits (lowBits px) ∧ unframe (fromBits (lowBits px)) = .incomplete b := by
  rw [decodeGrid_eq] at h
  revert h
  cases hu : unframe (fromBits (lowBits px)) with
  | found => simp
  | incomplete t => have := unframe_incomplete hu; simp; rintro rfl; exact ⟨this, rfl⟩

theorem pixelsRead_le (px : List Word) : pixelsRead px ≤ px.length := by
  unfold pixelsRead
  split
  · rename_i q hq
    have := (unframe_found hq).2.1
    rw [length_fromBits, length_lowBits] at this
    omega
  · exact Nat.le_refl _

/-- A whole scan, from its start, of a grid whose pixels up to the terminator are written (44_pixel_decoder.md R188). -/
theorem runScan_total {s : State} {px : List Word} (hsc : s.scan = none)
    (hp : px.length = s.width.toNat * s.height.toNat) (hb : px.length ≤ 2 ^ 24)
    (hm : s.mem.HoldsPixels .src (px.take (pixelsRead px))) :
    ∃ m', runScan s = .ok ((decodeGrid px).2, scannedBytes (fromBits (lowBits px)), m')
      ∧ m'.HoldsBytes .obuf (scannedBytes (fromBits (lowBits px)))
      ∧ s.mem.SameExcept (Space.Elems .obuf 0 (scannedBytes (fromBits (lowBits px))).length) m' := by
  have hpr := pixelsRead_le px
  have h0 : Scan.start.y * s.width.toNat + Scan.start.x = 0 := by simp [Scan.start]
  obtain ⟨m', h1, h2, h3⟩ := scanLoop_total (px := px) hp (by omega) (s.gridSize + 1) Scan.start s.mem
    (Scan.start_placed _ _) (by rw [h0]; exact Scan.start_assembled _) (by simp [State.gridSize])
    (fun k hk => absurd hk (by simp [Scan.start]))
    (fun k hk => by rw [hm k (by simp; omega), List.getElem?_take_of_lt hk]) rfl
  exact ⟨m', by rw [runScan, hsc]; exact h1, h2, h3⟩

/-! ### Completion -/

@[simp] theorem toNat_lengthWord {n : Nat} (h : n < 2 ^ 32) : (lengthWord n).toNat = n := by
  simpa [lengthWord] using h

theorem exec_nop (s : State) : exec .nop s = .next (complete s) := rfl

theorem firstError_none {s : State} {i : Instr} (h : firstError s i = none) :
    lengthViolated s i = false ∧ keyEmpty s i = false ∧ bitsMisaligned s i = false ∧ overCapacity s i = false := by
  unfold firstError at h
  repeat' split at h
  all_goals first | (cases h; done) | simp_all

theorem firstError_eq_none {s : State} {i : Instr} (h1 : lengthViolated s i = false) (h2 : keyEmpty s i = false)
    (h3 : bitsMisaligned s i = false) (h4 : overCapacity s i = false) : firstError s i = none := by
  simp [firstError, h1, h2, h3, h4]

/-- What the completion of a command answers when it answers a next state. -/
theorem exec_next {i : Instr} {s t : State} (hv : s.cfg.Valid) (hs : s.ScanOk) (h : exec i s = .next t) :
    (∃ e, firstError s i = some e ∧ t = endWith e s) ∨ firstError s i = none ∧ Completed i s t := by
  obtain ⟨hp, ⟨hk0, hk⟩, hpix, ho, ho'⟩ := hv
  have hwm : s.cfg.wMax = s.cfg.pMax + 3 := rfl
  have hbm : s.cfg.bMax = 8 * s.cfg.wMax := rfl
  cases i
  case nop =>
    cases h
    refine .inr ⟨rfl, ?_⟩
    constructor
    case mem => exact Writes.refl
    all_goals first | rfl | simp
  case xor =>
    simp only [exec, execXor, command_next, check_xor, bind_eq_ok] at h
    refine h.imp_right fun ⟨he, m, hm, ht⟩ => ⟨he, ?_⟩
    cases ht
    have hl := (firstError_none he).1
    simp only [lengthViolated, decide_eq_false_iff_not] at hl
    constructor
    case mem => refine (xorLoop_writes hm).mono fun a b ha => ⟨ha.1, ha.elemByte ?_⟩; simp only [Space.cap]; omega
    all_goals first | rfl | simp
  case frame =>
    simp only [exec, execFrame, command_next, check_frame] at h
    refine h.imp_right fun ⟨he, ht⟩ => ⟨he, ?_⟩
    cases ht
    have hl := (firstError_none he).1
    simp only [lengthViolated, decide_eq_false_iff_not] at hl
    constructor
    case mem =>
      refine (writeTerminator_writes s.wlen.toNat s.mem).mono fun a b ha => ⟨ha.1, ha.elemByte ?_⟩
      simp only [Space.cap]; omega
    all_goals first | rfl | simp
  case unframe =>
    simp only [exec, execUnframe, command_next, check_unframe, bind_eq_ok] at h
    refine h.imp_right fun ⟨he, ⟨o, m⟩, hm, ht⟩ => ⟨he, ?_⟩
    obtain rfl := (Except.ok.inj ht).symm
    have hl := (firstError_none he).1
    simp only [lengthViolated, decide_eq_false_iff_not] at hl
    obtain ⟨h1, _, h3⟩ := unframeLoop_writes (Nat.zero_add _) hm
    have hlt := s.wlen.isLt
    cases o with
    | some j =>
      have hj := h3 j rfl
      constructor
      case mem =>
        refine h1.mono fun a b ha => ⟨?_, ha.elemByte ?_⟩ <;>
          first
          | (simp only [Space.cap, searchEnd]; omega)
          | (refine (Allowed.mono (Nat.le_refl _) ?_ a b ha).1
             simp only [scannedCount, unframeEnd, complete_eq, endWith_olen, endWith_status, Status.ended_found, if_true,
               searchEnd, toNat_lengthWord (show j - 2 < 2 ^ 32 by omega)]
             omega)
      all_goals first | rfl | simp [unframeEnd]
    | none =>
      constructor
      case mem =>
        refine h1.mono fun a b ha => ⟨?_, ha.elemByte ?_⟩ <;>
          first
          | (simp only [Space.cap, searchEnd]; omega)
          | (refine (Allowed.mono (Nat.le_refl _) ?_ a b ha).1
             simp only [scannedCount, unframeEnd, completeIncomplete_eq, endWith_olen, searchEnd, toNat_lengthWord hlt]
             omega)
      all_goals first | rfl | simp [unframeEnd]
  case pack =>
    simp only [exec, execPack, command_next, check_pack, bind_eq_ok] at h
    refine h.imp_right fun ⟨he, m, hm, ht⟩ => ⟨he, ?_⟩
    cases ht
    have hl := (firstError_none he).1
    simp only [lengthViolated, decide_eq_false_iff_not] at hl
    constructor
    case mem => refine (packLoop_writes hm).mono fun a b ha => ⟨ha.1, ha.elemByte ?_⟩; simp only [Space.cap]; omega
    all_goals first | rfl | simp
  case unpack =>
    simp only [exec, execUnpack, command_next, check_unpack, bind_eq_ok] at h
    refine h.imp_right fun ⟨he, m, hm, ht⟩ => ⟨he, ?_⟩
    cases ht
    have hl := (firstError_none he).1
    simp only [lengthViolated, decide_eq_false_iff_not] at hl
    constructor
    case mem => refine (unpackLoop_writes hm).mono fun a b ha => ⟨ha.1, ha.elemByte ?_⟩; simp only [Space.cap]; omega
    all_goals first | rfl | simp
  case encode =>
    simp only [exec, execEncode, command_next, check_encode, bind_eq_ok] at h
    refine h.imp_right fun ⟨he, m, hm, ht⟩ => ⟨he, ?_⟩
    cases ht
    have hl := (firstError_none he).1
    simp only [lengthViolated, decide_eq_false_iff_not] at hl
    constructor
    case mem => refine (embedLoop_writes hm).mono fun a b ha => ⟨ha.1, ha.elemByte ?_⟩; simp only [Space.cap]; omega
    all_goals first | rfl | simp
  case decode =>
    simp only [exec, execDecode, command_next, check_decode, bind_eq_ok] at h
    refine h.imp_right fun ⟨he, ⟨b, bytes, m⟩, hm, ht⟩ => ⟨he, ?_⟩
    obtain rfl := (Except.ok.inj ht).symm
    have hl := (firstError_none he).1
    simp only [lengthViolated, decide_eq_false_iff_not] at hl
    obtain ⟨h1, h2, h3⟩ := runScan_writes hs hm
    cases b with
    | true =>
      have h4 := h3 rfl
      constructor
      case mem =>
        refine h1.mono fun a b ha => ⟨?_, ha.elemByte ?_⟩ <;>
          first
          | (simp only [Space.cap]; omega)
          | (refine (Allowed.mono (Nat.le_refl _) ?_ a b ha).1
             simp only [scannedCount, decodeEnd, scanMatched, complete_eq, endWith_olen, endWith_status,
               Status.ended_found, if_true, toNat_lengthWord (show bytes.length - 3 < 2 ^ 32 by omega)]
             omega)
      all_goals first | rfl | simp [decodeEnd, scanMatched]
    | false =>
      constructor
      case mem =>
        refine h1.mono fun a b ha => ⟨?_, ha.elemByte ?_⟩ <;>
          first
          | (simp only [Space.cap]; omega)
          | (refine (Allowed.mono (Nat.le_refl _) ?_ a b ha).1
             simp only [scannedCount, decodeEnd, scanExhausted, completeIncomplete_eq, endWith_olen,
               toNat_lengthWord (show bytes.length < 2 ^ 32 by omega)]
             omega)
      all_goals first | rfl | simp [decodeEnd, scanExhausted]
  case move =>
    simp only [exec, execMove, command_next, check_move, bind_eq_ok] at h
    refine h.imp_right fun ⟨he, m, hm, ht⟩ => ⟨he, ?_⟩
    cases ht
    have hl := (firstError_none he).1
    simp only [lengthViolated, decide_eq_false_iff_not] at hl
    constructor
    case mem => refine (moveLoop_writes hm).mono fun a b ha => ⟨ha.1, ha.elemByte ?_⟩; simp only [Space.cap]; omega
    all_goals first | rfl | simp
  case copy =>
    simp only [exec, execCopy, command_next, check_copy, bind_eq_ok] at h
    refine h.imp_right fun ⟨he, m, hm, ht⟩ => ⟨he, ?_⟩
    cases ht
    have hl := (firstError_none he).1
    simp only [lengthViolated, decide_eq_false_iff_not] at hl
    constructor
    case mem => refine (copyLoop_writes hm).mono fun a b ha => ⟨ha.1, ha.elemByte ?_⟩; simp only [Space.cap]; omega
    all_goals first | rfl | simp
  case hide =>
    simp only [exec, execHide, command_next, check_hide, bind_eq_ok] at h
    refine h.imp_right fun ⟨he, m1, hm1, m2, hm2, m3, hm3, ht⟩ => ⟨he, ?_⟩
    cases ht
    have hl := (firstError_none he).1
    simp only [lengthViolated, decide_eq_false_iff_not] at hl
    have hw : Writes (fun a b => MayWrite .hide s s a ∧ ElemByte s.cfg a b) s.mem m3 := by
      refine Writes.trans (Writes.trans (Writes.trans
        ((xorLoop_writes hm1).mono fun a b ha => ⟨.inl ?_, ha.elemByte ?_⟩)
        ((writeTerminator_writes s.plen.toNat m1).mono fun a b ha => ⟨.inl ?_, ha.elemByte ?_⟩))
        ((packLoop_writes hm2).mono fun a b ha => ⟨.inr (.inl ha.1), ha.elemByte ?_⟩))
        ((embedLoop_writes hm3).mono fun a b ha => ⟨.inr (.inr ha.1), ha.elemByte ?_⟩)
      all_goals
        first
        | (simp only [Space.cap]; omega)
        | exact (Allowed.mono (Nat.zero_le _) (by omega) a b ha).1
    constructor
    case mem => exact hw
    all_goals first | rfl | simp
  case show_ =>
    simp only [exec, execShow, command_next, check_show, bind_eq_ok] at h
    refine h.imp_right fun ⟨he, ⟨b, bytes, m⟩, hm, ht⟩ => ⟨he, ?_⟩
    have hl := (firstError_none he).1
    simp only [lengthViolated, decide_eq_false_iff_not] at hl
    obtain ⟨h1, h2, h3⟩ := runScan_writes hs hm
    cases b with
    | true =>
      have h4 := h3 rfl
      simp only [showEnd, bind_eq_ok] at ht
      obtain ⟨m1, hm1, ht⟩ := ht
      cases ht
      have hb : bytes.length ≤ scannedCount (scanMatched (bytes.length - 3) m1 s) := by
        simp only [scannedCount, scanMatched, complete_eq, endWith_olen, endWith_status, Status.ended_found, if_true,
          toNat_lengthWord (show bytes.length - 3 < 2 ^ 32 by omega)]
        omega
      have hw : Writes (fun a b => MayWrite .show_ s (scanMatched (bytes.length - 3) m1 s) a ∧ ElemByte s.cfg a b)
          s.mem m1 := by
        refine Writes.trans (h1.mono fun a b ha => ⟨?_, ha.elemByte ?_⟩)
          ((decipherLoop_writes hm1).mono fun a b ha => ⟨?_, ha.elemByte ?_⟩)
        all_goals
          first
          | (simp only [Space.cap]; omega)
          | exact (Allowed.mono (Nat.le_refl _) (by omega) a b ha).1
      constructor
      case mem => exact hw
      all_goals first | rfl | simp [scanMatched]
    | false =>
      cases ht
      constructor
      case mem =>
        refine h1.mono fun a b ha => ⟨?_, ha.elemByte ?_⟩ <;>
          first
          | (simp only [Space.cap]; omega)
          | (refine (Allowed.mono (Nat.le_refl _) ?_ a b ha).1
             simp only [scannedCount, scanExhausted, completeIncomplete_eq, endWith_olen,
               toNat_lengthWord (show bytes.length < 2 ^ 32 by omega)]
             omega)
      all_goals first | rfl | simp [scanExhausted]

end Sys2Proof.Machine
end

