-- ==== Sys2Proof/Laws/Faults.lean ====
section
/-! SUPPORT. The model faults of a command (60_exceptions.md R262): each names an element that exists and that was
unwritten before the command; and no command is ever refused. -/

namespace Sys2Proof.Machine

/-! ### What the composite commands write before they read it -/

theorem xorLoop_written {n k : Nat} {m m' : Memory} (h : xorLoop n k m = .ok m') :
    ∀ i, i < n → m'.byteAt .wbuf i ≠ none :=
  loop_inv (P := fun n m' => ∀ i, i < n → m'.byteAt .wbuf i ≠ none) h (fun i hi => absurd hi (Nat.not_lt_zero i))
    fun j c d hj hc hd i hi => by
      simp only [bind_eq_ok] at hd
      obtain ⟨p, _, q, _, hd⟩ := hd
      cases hd
      rw [byteAt_writeByte]
      split
      · simp
      · exact hc i (by simp only [Space.base] at *; omega)

theorem writeTerminator_written {n : Nat} {m : Memory} (h : ∀ i, i < n → m.byteAt .wbuf i ≠ none) :
    ∀ i, i < n + 3 → (writeTerminator n m).byteAt .wbuf i ≠ none := by
  intro i hi
  simp only [writeTerminator, byteAt_writeByte, Nat.add_left_cancel_iff]
  repeat' split
  any_goals simp
  exact h i (by omega)

theorem packLoop_written {n : Nat} {m m' : Memory} (h : packLoop n m = .ok m') :
    ∀ i, i < 8 * n → m'.bitAt i ≠ none := by
  refine loop_inv (P := fun n m' => ∀ i, i < 8 * n → m'.bitAt i ≠ none) h (fun i hi => absurd hi (by omega))
    fun j c d hj hc hd i hi => ?_
  simp only [bind_eq_ok] at hd
  obtain ⟨v, _, hd⟩ := hd
  refine loop_inv (P := fun t m' => ∀ i, i < 8 * j + t → m'.bitAt i ≠ none) hd hc (fun t c d ht hc hd i hi => ?_) i
    (by omega)
  cases hd
  by_cases he : 8 * j + t = i
  · subst he; rw [bitAt_writeBit_same]; simp
  · rw [bitAt_writeBit_ne (Ne.symm he)]; exact hc i (by omega)

/-! ### Every fault of a command -/

/-- Element `j` of `sp`, a buffer the command reads, exists and was unwritten, and `f` says so. -/
def Misses (i : Instr) (s : State) (f : Fault) : Prop :=
  ∃ sp j, f = .unwrittenRead sp j ∧ sp ∈ readsBuffers i ∧ j < Space.cap s.cfg sp ∧ ¬ s.mem.Written sp j

theorem runScan_error {i : Instr} {s : State} (hi : .src ∈ readsBuffers i) (hs : s.ScanOk) (hN : s.gridSize ≤ s.cfg.pixMax) (hp : s.cfg.pixMax ≤ 2 ^ 24)
    {f : Fault} (h : runScan s = .error f) : Misses i s f := by
  obtain ⟨p, h1, h2, rfl⟩ := scanLoop_error (le_trans hN hp) (scan_placed hs) h
  exact ⟨.src, p, rfl, hi, lt_of_lt_of_le h1 hN, by simp [Memory.Written, h2]⟩

/-- A command stops only at an element that exists and was unwritten before it, once all its checks have passed. -/
theorem exec_fault {i : Instr} {s : State} {f : Fault} (hv : s.cfg.Valid) (hs : s.ScanOk) (h : exec i s = .fault f) :
    firstError s i = none ∧ Misses i s f := by
  obtain ⟨hp, ⟨hk0, hk⟩, hpix, ho, ho'⟩ := hv
  have hwm : s.cfg.wMax = s.cfg.pMax + 3 := rfl
  have hbm : s.cfg.bMax = 8 * s.cfg.wMax := rfl
  cases i
  case nop => cases h
  case frame =>
    simp only [exec, execFrame, command_fault] at h
    cases h.2
  case xor =>
    simp only [exec, execXor, command_fault, check_xor, bind_eq_error] at h
    refine h.imp_right fun h' => ?_
    obtain ⟨hl, hk, -, -⟩ := firstError_none h.1
    simp [lengthViolated, keyEmpty] at hl hk
    rcases h' with h' | ⟨_, _, h'⟩
    · rcases xorLoop_error (by omega) (by omega) (by omega) h' with ⟨j, h1, h2, rfl⟩ | ⟨j, h1, h2, rfl⟩
      · exact ⟨_, _, rfl, by simp [readsBuffers], by simp only [Space.cap]; omega, by simp [Memory.Written, h2]⟩
      · exact ⟨_, _, rfl, by simp [readsBuffers], by simp only [Space.cap]; omega, by simp [Memory.Written, h2]⟩
    · cases h'
  case unframe =>
    simp only [exec, execUnframe, command_fault, check_unframe, bind_eq_error] at h
    refine h.imp_right fun h' => ?_
    obtain ⟨hl, -⟩ := firstError_none h.1
    simp [lengthViolated] at hl
    rcases h' with h' | ⟨_, _, h'⟩
    · obtain ⟨j, _, h1, h2, rfl⟩ := unframeLoop_error h' (fun k hk => absurd hk (Nat.not_lt_zero k)) (by omega)
      exact ⟨_, _, rfl, by simp [readsBuffers], by simp only [Space.cap]; omega, by simp [Memory.Written, h2]⟩
    · cases h'
  case pack =>
    simp only [exec, execPack, command_fault, check_pack, bind_eq_error] at h
    refine h.imp_right fun h' => ?_
    obtain ⟨hl, -⟩ := firstError_none h.1
    simp [lengthViolated] at hl
    rcases h' with h' | ⟨_, _, h'⟩
    · obtain ⟨j, h1, h2, rfl⟩ := packLoop_error (by omega) h'
      exact ⟨_, _, rfl, by simp [readsBuffers], by simp only [Space.cap]; omega, by simp [Memory.Written, h2]⟩
    · cases h'
  case unpack =>
    simp only [exec, execUnpack, command_fault, check_unpack, bind_eq_error] at h
    refine h.imp_right fun h' => ?_
    obtain ⟨hl, -⟩ := firstError_none h.1
    simp [lengthViolated] at hl
    rcases h' with h' | ⟨_, _, h'⟩
    · obtain ⟨j, h1, h2, rfl⟩ := unpackLoop_error (by omega) h'
      exact ⟨_, _, rfl, by simp [readsBuffers], by simp only [Space.cap]; omega, by simp [Memory.Written, h2]⟩
    · cases h'
  case encode =>
    simp only [exec, execEncode, command_fault, check_encode, bind_eq_error] at h
    refine h.imp_right fun h' => ?_
    obtain ⟨hl, -⟩ := firstError_none h.1
    simp [lengthViolated] at hl
    rcases h' with h' | ⟨_, _, h'⟩
    · rcases embedLoop_error (by omega) h' with ⟨j, h1, h2, rfl⟩ | ⟨j, _, h1, h2, rfl⟩
      · exact ⟨_, _, rfl, by simp [readsBuffers], by simp only [Space.cap]; omega, by simp [Memory.Written, h2]⟩
      · exact ⟨_, _, rfl, by simp [readsBuffers], by simp only [Space.cap]; omega, by simp [Memory.Written, h2]⟩
    · cases h'
  case decode =>
    simp only [exec, execDecode, command_fault, check_decode, bind_eq_error] at h
    refine h.imp_right fun h' => ?_
    obtain ⟨hl, -⟩ := firstError_none h.1
    simp [lengthViolated] at hl
    rcases h' with h' | ⟨_, _, h'⟩
    · exact runScan_error (by simp [readsBuffers]) hs hl hpix h'
    · cases h'
  case move =>
    simp only [exec, execMove, command_fault, check_move, bind_eq_error] at h
    refine h.imp_right fun h' => ?_
    obtain ⟨hl, -⟩ := firstError_none h.1
    simp [lengthViolated] at hl
    rcases h' with h' | ⟨_, _, h'⟩
    · obtain ⟨j, h1, h2, rfl⟩ := moveLoop_error (by omega) h'
      exact ⟨_, _, rfl, by simp [readsBuffers], by simp only [Space.cap]; omega, by simp [Memory.Written, h2]⟩
    · cases h'
  case copy =>
    simp only [exec, execCopy, command_fault, check_copy, bind_eq_error] at h
    refine h.imp_right fun h' => ?_
    obtain ⟨hl, -⟩ := firstError_none h.1
    simp [lengthViolated] at hl
    rcases h' with h' | ⟨_, _, h'⟩
    · obtain ⟨j, h1, h2, rfl⟩ := copyLoop_error h'
      exact ⟨_, _, rfl, by simp [readsBuffers], by simp only [Space.cap]; omega, by simp [Memory.Written, h2]⟩
    · cases h'
  case hide =>
    simp only [exec, execHide, command_fault, check_hide, bind_eq_error] at h
    refine h.imp_right fun h' => ?_
    obtain ⟨hl, hk, -, hc⟩ := firstError_none h.1
    simp [lengthViolated, keyEmpty, overCapacity] at hl hk hc
    rcases h' with h' | ⟨m1, hm1, h' | ⟨m2, hm2, h' | ⟨_, _, h'⟩⟩⟩
    · rcases xorLoop_error (by omega) (by omega) (by omega) h' with ⟨j, h1, h2, rfl⟩ | ⟨j, h1, h2, rfl⟩
      · exact ⟨_, _, rfl, by simp [readsBuffers], by simp only [Space.cap]; omega, by simp [Memory.Written, h2]⟩
      · exact ⟨_, _, rfl, by simp [readsBuffers], by simp only [Space.cap]; omega, by simp [Memory.Written, h2]⟩
    · obtain ⟨j, h1, h2, rfl⟩ := packLoop_error (by omega) h'
      exact absurd h2 (writeTerminator_written (xorLoop_written hm1) j h1)
    · have hw1 := xorLoop_writes hm1
      have hw2 := writeTerminator_writes s.plen.toNat m1
      have hw3 := packLoop_writes hm2
      rcases embedLoop_error (by omega) h' with ⟨j, h1, h2, rfl⟩ | ⟨j, _, h1, h2, rfl⟩
      · refine ⟨_, _, rfl, by simp [readsBuffers], by simp only [Space.cap]; omega, ?_⟩
        have h3 : s.mem.pixelAt .src j = none := by
          rw [← h2, hw3.pixelAt_before (.inr (by simp only [Space.base, Space.stride]; omega)),
            hw2.pixelAt_before (.inr (by simp only [Space.base, Space.stride]; omega)),
            hw1.pixelAt_before (.inr (by simp only [Space.base, Space.stride]; omega))]
        simp [Memory.Written, h3]
      · exact absurd h2 (packLoop_written hm2 j h1)
    · cases h'
  case show_ =>
    simp only [exec, execShow, command_fault, check_show, bind_eq_error] at h
    refine h.imp_right fun h' => ?_
    obtain ⟨hl, hk, -, -⟩ := firstError_none h.1
    simp [lengthViolated, keyEmpty] at hl hk
    rcases h' with h' | ⟨⟨b, bytes, m⟩, hr, h'⟩
    · exact runScan_error (by simp [readsBuffers]) hs hl.2 hpix h'
    · cases b with
      | false => cases h'
      | true =>
        simp only [showEnd, bind_eq_error] at h'
        rcases h' with h' | ⟨_, _, h'⟩
        · have hm := runScan_mirrored hs hr
          obtain ⟨hw, h8, _⟩ := runScan_writes hs hr
          obtain ⟨j, h1, h2, rfl⟩ := decipherLoop_error (by omega) (by omega)
            (fun k hk => by rw [hm k (by omega), List.getElem?_eq_getElem (by omega)]; simp) h'
          refine ⟨_, _, rfl, by simp [readsBuffers], by simp only [Space.cap]; omega, ?_⟩
          have h3 : s.mem.byteAt .kbuf j = none := by
            rw [← h2, hw.byteAt_before (.inl (by simp only [Space.base]; omega))]
          simp [Memory.Written, h3]
        · cases h'

/-- No command is refused. -/
theorem exec_not_refused (i : Instr) (s : State) (r : Refusal) : exec i s ≠ .refused r := by
  cases i <;> simp only [exec, execNop, execXor, execFrame, execUnframe, execPack, execUnpack, execEncode, execDecode,
    execMove, execCopy, execHide, execShow] <;> exact command_not_refused

end Sys2Proof.Machine
end

