-- ==== Sys2Proof/Laws/Invariant.lean ====
section
/-! SUPPORT. Each transition keeps the machine's invariant: the completion of a command, a scan transition, a host
access, RST. -/

namespace Sys2Proof.Machine

/-! ### Command words -/

/-- Each row's word is its opcode under 24 zero bits (30_encoding.md R82). -/
theorem opcodeMap_word {o : Byte} {i : Instr} (h : opcodeMap.lookup o = some i) : (0 : BitVec 24) ++ o = encode i := by
  have hall : ∀ p ∈ opcodeMap, (0 : BitVec 24) ++ p.1 = encode p.2 := by decide
  obtain ⟨l1, l2, he, _⟩ := List.lookup_eq_some_iff.1 h
  exact hall (o, i) (by rw [he]; simp)

theorem word_eq_fields (w : Word) : w = rsvField w ++ opField w := by
  apply BitVec.eq_of_getLsbD_eq
  intro k hk
  rw [BitVec.getLsbD_append]
  simp only [rsvField, opField, BitVec.getLsbD_extractLsb']
  split
  · simp [*]
  · rw [show 8 + (k - 8) = k by omega]; simp; omega

/-- A legal word is the word of the command it decodes to. -/
theorem decode_ok {w : Word} {i : Instr} (h : decode w = .ok i) : w = encode i := by
  unfold decode at h
  split at h
  · cases h
  · rename_i hr
    split at h
    · cases h
      rename_i hl
      rw [word_eq_fields w, not_not.1 hr]
      exact opcodeMap_word hl
    · cases h

theorem findsTerminator_iff (i : Instr) : findsTerminator (opField (encode i)) ↔ i ∈ [Instr.unframe, .decode, .show_] := by
  unfold findsTerminator; cases i <;> decide

theorem scans_iff (i : Instr) : scans (opField (encode i)) ↔ i ∈ [Instr.decode, .show_] := by
  unfold scans; cases i <;> decide

/-! ### Memory -/

theorem memOk_of_writes {s t : State} (h : s.MemOk) (hc : t.cfg = s.cfg) {R : Nat → Byte → Prop}
    (hw : Writes R s.mem t.mem) (hr : ∀ a b, R a b → ElemByte s.cfg a b) : t.MemOk := by
  refine ⟨hw.wf h.1, fun c hcm => ?_⟩
  rw [hc]
  rcases hw.cells hcm with hcm | hcr
  · exact h.2 c hcm
  · exact hr _ _ hcr

/-! ### Completion -/

theorem firstError_ne_incomplete {s : State} {i : Instr} : firstError s i ≠ some .incomplete := by
  unfold firstError
  repeat' split
  all_goals simp

/-- A command whose checks fail has no scan: a running scan passed them. -/
theorem no_scan_of_error {s : State} {w : Word} {i : Instr} {e : ErrCode} (hs : s.ScanOk) (hq : s.seq = .busy w)
    (hd : decode w = .ok i) (he : firstError s i = some e) : s.scan = none := by
  cases hsc : s.scan with
  | none => rfl
  | some sc =>
    have := (hs sc hsc).1
    simp only [scanDue, hq, hd, decide_eq_true_eq] at this
    cases i <;> simp only [scanCheck, Option.some.injEq, reduceCtorEq] at this
    · rw [check_decode, he] at this; cases this
    · rw [check_show, he] at this; cases this

theorem statusOk_raise {s : State} {w : Word} {e : ErrCode} (hst : s.StatusOk) (hq : s.seq = .busy w)
    (hn : s.scan = none) (he : e ≠ .incomplete) : (endWith e s).StatusOk := by
  simp only [State.StatusOk, hq] at hst
  obtain ⟨_, hf, _, _, hd⟩ := hst
  obtain ⟨hd, -⟩ : s.status.dstate = .none ∧ s.scan = none := by
    rcases hd with hd | ⟨_, hne, _⟩
    · exact hd
    · exact absurd hn hne
  simp [State.StatusOk, hf, hd, he]

/-- Completing the running command keeps the invariant. -/
theorem exec_inv {i : Instr} {s t : State} {w : Word} (hi : s.Inv) (hq : s.seq = .busy w) (hd : decode w = .ok i)
    (h : exec i s = .next t) : t.Inv := by
  obtain ⟨hv, hm, hst, hs⟩ := hi
  rcases exec_next hv hs h with ⟨e, he, rfl⟩ | ⟨he, hc⟩
  · have hn := no_scan_of_error hs hq hd he
    exact ⟨hv, hm, statusOk_raise hst hq hn (fun h => firstError_ne_incomplete (h ▸ he)), by simp [State.ScanOk]⟩
  · refine ⟨by rw [hc.cfg]; exact hv, memOk_of_writes hm hc.cfg hc.mem fun _ _ h => h.2, ?_,
      by simp [State.ScanOk, hc.scan]⟩
    simp only [State.StatusOk, hq] at hst
    obtain ⟨_, hf, _, hl, hds⟩ := hst
    rw [decode_ok hd] at hl hds
    have h1 := findsTerminator_iff i
    have h2 := scans_iff i
    have hlt := hc.lastop.trans hl
    simp only [State.StatusOk, hc.seq, hc.scan, hc.done, hlt, h1, h2, true_and, reduceCtorEq, false_imp_iff]
    by_cases hsc : i ∈ [Instr.decode, .show_]
    · have hse : i ∈ [Instr.unframe, .decode, .show_] := List.mem_cons_of_mem _ hsc
      rcases hc.search hse with ⟨h3, h4⟩ | ⟨h3, h4⟩ <;> rcases hc.scanned hsc with ⟨h5, h6⟩ | ⟨h5, h6⟩ <;>
        simp_all
    · have hds' : t.status.dstate = .none := by
        rw [hc.noScan hsc]
        rcases hds with hds | ⟨_, _, hds⟩
        · exact hds.1
        · exact absurd (h2.1 hds) hsc
      by_cases hse : i ∈ [Instr.unframe, .decode, .show_]
      · rcases hc.search hse with ⟨h3, h4⟩ | ⟨h3, h4⟩ <;> simp_all
      · obtain ⟨h3, h4⟩ := hc.plain hse
        simp_all

theorem engineTurn_inv {s t : State} (hi : s.Inv) (h : engineTurn s = .next t) : t.Inv := by
  unfold engineTurn at h
  split at h
  · cases h; exact hi
  · rename_i w hq
    split at h
    · exact exec_inv hi hq ‹_› h
    · rename_i hd
      cases h
      obtain ⟨hv, hm, hst, hs⟩ := hi
      have hn : s.scan = none := by
        cases hsc : s.scan with
        | none => rfl
        | some sc =>
          have := (hs sc hsc).1
          simp [scanDue, hq, hd] at this
      exact ⟨hv, hm, statusOk_raise hst hq hn (by simp), by simp [State.ScanOk]⟩

/-! ### A scan transition -/

theorem scanDue_scans {s : State} {w : Word} (hq : s.seq = .busy w) (h : scanDue s = true) : scans (opField w) := by
  simp only [scanDue, hq] at h
  split at h
  · rename_i i hd
    rw [decode_ok hd, scans_iff]
    cases i <;> simp [scanCheck] at h ⊢
  · cases h

theorem scanDue_busy {s : State} (h : scanDue s = true) : ∃ w, s.seq = .busy w := by
  unfold scanDue at h
  split at h
  · cases h
  · exact ⟨_, ‹_›⟩

/-- The grid check of a scan that is due. -/
theorem scanDue_grid {s : State} (h : scanDue s = true) : s.gridSize ≤ s.cfg.pixMax := by
  obtain ⟨w, hq⟩ := scanDue_busy h
  simp only [scanDue, hq] at h
  split at h
  · rename_i i hd
    cases i <;> simp only [scanCheck, reduceCtorEq, decide_false, Bool.false_eq_true, decide_eq_true_eq,
      Option.some.injEq] at h
    · rw [check_decode] at h
      have := (firstError_none h).1
      simpa [lengthViolated] using this
    · rw [check_show] at h
      have := (firstError_none h).1
      simp [lengthViolated] at this
      exact this.2
  · cases h

theorem scanTurn_inv {s t : State} (hi : s.Inv) (h : scanTurn s = .next t) : t.Inv := by
  obtain ⟨hv, hm, hst, hs⟩ := hi
  unfold scanTurn at h
  split at h
  case isFalse => cases h; exact ⟨hv, hm, hst, hs⟩
  case isTrue hdue =>
  obtain ⟨w, hq⟩ := scanDue_busy hdue
  have hsc := scanDue_scans hq hdue
  have hst' := hst
  simp only [State.StatusOk, hq] at hst'
  obtain ⟨h1, h2, h3, h4, h5⟩ := hst'
  split at h
  · cases h
    refine ⟨hv, hm, by simp [State.StatusOk, hq, h1, h2, h3, h4, hsc], fun sc hsc => ?_⟩
    obtain rfl := Option.some.inj hsc
    exact ⟨hdue, by simp [Scan.start], by simp [Scan.start], by simp [Scan.start], .inr ⟨rfl, rfl⟩,
      fun k hk => absurd hk (by simp [Scan.start]), rfl⟩
  · rename_i sc hsome
    obtain ⟨_, g1, g2, g3, g4, g5, g6⟩ := hs sc hsome
    have hg : sc.Placed s.width.toNat (s.width.toNat * s.height.toNat) := ⟨g1, g2, g3, g4⟩
    have hd : s.status.dstate = .scanning := by
      rcases h5 with ⟨_, h5⟩ | ⟨h5, _⟩
      · rw [hsome] at h5; cases h5
      · exact h5
    split at h
    · rename_i sc1 m hstep
      cases h
      have hcase := scanStep_cases hg hstep
      have hst1 : State.StatusOk { s with scan := some sc1, mem := m } := by
        simp [State.StatusOk, hq, h1, h2, h3, h4, hsc, hd]
      rcases hcase with ⟨_, hr⟩ | ⟨px, hlt, _, ⟨sc2, hr, hg2, _, hb, _⟩ | ⟨sc2, hg2, hp2, hb, _, _, hr⟩⟩
      · cases hr
      · cases hr
        refine ⟨hv, hm, hst1, fun sc' hsc' => ?_⟩
        obtain rfl := Option.some.inj hsc'
        exact ⟨hdue, hg2.1, hg2.2.1, hg2.2.2.1, hg2.2.2.2, by rw [hb]; exact g5, by rw [hb]; exact g6⟩
      · split at hr
        · cases hr
        · rename_i hne
          cases hr
          have hgrid := scanDue_grid hdue
          have hle : 8 * sc1.bytes.length + sc1.nb ≤ s.gridSize := hg2.2.1 ▸ hg2.2.2.1
          have hlen : sc1.bytes.length = sc.bytes.length + 1 := by rw [hb]; simp
          have ho : max s.cfg.wMax (s.cfg.pixMax / 8) ≤ s.cfg.oMax := hv.2.2.2.1
          refine ⟨hv, memOk_of_writes hm rfl (writeByte_writes (sp := .obuf) (lo := 0) (hi := sc.bytes.length + 1) rfl
            (by decide) (Nat.zero_le _) (Nat.lt_succ_self _) _ _)
            fun a b ha => ha.elemByte (by simp only [Space.cap]; omega), hst1, fun sc' hsc' => ?_⟩
          obtain rfl := Option.some.inj hsc'
          refine ⟨hdue, hg2.1, hg2.2.1, hg2.2.2.1, hg2.2.2.2, fun k hk => ?_, ?_⟩
          · rw [hlen] at hk
            rcases Nat.lt_succ_iff_lt_or_eq.1 hk with h | rfl
            · rw [byteAt_writeByte_ne (by omega), hb, List.getElem?_append_left h]; exact g5 k h
            · rw [byteAt_writeByte_same, hb]; simp
          · rcases unframe_next (shiftIn sc.acc (px.getLsbD 0)) g6 with ⟨_, _, he, _⟩ | ⟨_, he⟩
            · rw [hb] at hne; exact absurd he hne
            · rw [hb]; exact he
    · cases h; exact ⟨hv, hm, hst, hs⟩
    · cases h

/-! ### Host accesses -/

theorem busWrite8_writes {c : Config} {sp : Space} {off : Nat} (h : off < sp.used c) (v : Byte) (m : Memory) :
    Writes (ElemByte c) m (busWrite8 sp off v m) := by
  cases sp
  case bbuf => exact .one ⟨.bbuf, Nat.le_add_right _ _, Nat.add_lt_add_left h _, fun _ => bitByte_toNat_lt _⟩
  all_goals exact .one ⟨_, Nat.le_add_right _ _, Nat.add_lt_add_left h _, by simp⟩

/-- A host write of a buffer touches only bytes of elements that exist. -/
theorem busWrite32_writes {c : Config} {sp : Space} {off : Nat} (h : off + 4 ≤ sp.used c) (v : Word) (m : Memory) :
    Writes (ElemByte c) m (busWrite32 sp off v m) :=
  (((busWrite8_writes (by omega) _ _).trans (busWrite8_writes (by omega) _ _)).trans
    (busWrite8_writes (by omega) _ _)).trans (busWrite8_writes (by omega) _ _)

theorem writeRegister_inv {s : State} (hi : s.Inv) (hq : s.seq = .idle) (off : Nat) (v : Word) :
    (writeRegister off v s).Inv := by
  obtain ⟨hv, hm, hst, hs⟩ := hi
  have hn : s.scan = none := by simp only [State.StatusOk, hq] at hst; exact hst.1
  unfold writeRegister
  split
  · exact ⟨hv, hm, by simp [State.StatusOk], by simp [State.ScanOk]⟩
  all_goals exact ⟨hv, hm, hst, fun sc h => by simp only [hn, reduceCtorEq] at h⟩

theorem reply_inv {s : State} (hi : s.Inv) (r : Reply) : State.Inv { s with reply := r } := hi

theorem inputs_inv {s : State} (hi : s.Inv) (l : List Input) : State.Inv { s with inputs := l } := hi

theorem busWrite_inv {s : State} (hi : s.Inv) (hq : s.seq = .idle) {w : Width} {t : Target}
    (ha : accessAllowed s.cfg w t = true) (v : Word) : (busWrite w t v s).Inv := by
  obtain ⟨hv, hm, hst, hs⟩ := hi
  have hn : s.scan = none := by simp only [State.StatusOk, hq] at hst; exact hst.1
  cases t with
  | unmapped => exact ⟨hv, hm, hst, hs⟩
  | register off => exact writeRegister_inv ⟨hv, hm, hst, hs⟩ hq off v
  | buffer sp off =>
    have hscan : ∀ m, State.ScanOk { s with mem := m } := fun m sc h => by simp only [hn, reduceCtorEq] at h
    cases w
    case w16 => simp [accessAllowed] at ha
    case w8 =>
      simp only [accessAllowed, decide_eq_true_eq] at ha
      exact ⟨hv, memOk_of_writes hm rfl (busWrite8_writes ha _ _) fun _ _ h => h, hst, hscan _⟩
    case w32 =>
      simp only [accessAllowed, wordFits, Bool.and_eq_true, decide_eq_true_eq] at ha
      exact ⟨hv, memOk_of_writes hm rfl (busWrite32_writes ha.2.2 _ _) fun _ _ h => h, hst, hscan _⟩

theorem hostAccess_inv {a : Access} {s t : State} (hi : s.Inv) (h : hostAccess a s = .next t) : t.Inv := by
  unfold hostAccess at h
  split at h
  · rename_i hb
    have hq := (isBusy_iff s).1 hb
    cases a with
    | read w addr =>
      simp only [accessBusy] at h
      split at h
      · cases h; exact reply_inv hi _
      · cases h
    | write w addr v =>
      simp only [accessBusy] at h
      split at h
      · cases h
        obtain ⟨hv, hm, hst, hs⟩ := hi
        refine ⟨hv, hm, ?_, hs⟩
        cases hs' : s.seq with
        | idle => exact absurd hs' hq
        | busy w => simpa [State.StatusOk, hs'] using hst
      · cases h
  · rename_i hb
    have hq : s.seq = .idle := (isBusy_false_iff s).1 (by simpa using hb)
    cases a with
    | read w addr =>
      simp only [accessIdle] at h
      split at h
      · split at h
        · cases h; exact reply_inv hi _
        · cases h
      · cases h
    | write w addr v =>
      simp only [accessIdle] at h
      split at h
      · cases h; exact reply_inv (busWrite_inv hi hq ‹_› v) _
      · cases h

theorem resetWith_inv {c : Config} (hv : c.Valid) (inp : List Input) : (State.resetWith c inp).Inv :=
  ⟨hv, ⟨Memory.wf_nil, by simp⟩, by simp [State.StatusOk], by simp [State.ScanOk]⟩

end Sys2Proof.Machine
end

