-- ==== Sys2Proof/Laws/Turns.lean ====
section
/-! SUPPORT. A scan transition before completion changes nothing of what the command leaves (44_pixel_decoder.md R188;
70_reset_and_hazards.md R291): the scan goes on from where it stands, and more fuel than its pixels is never used. -/

namespace Sys2Proof.Machine

/-- A scan with a step left for each unread pixel and one for the end makes no use of more. -/
theorem scanLoop_fuel {W H fuel : Nat} {sc : Scan} {m : Memory} (hg : sc.Placed W (W * H))
    (hf : W * H + 1 ≤ fuel + (sc.y * W + sc.x)) :
    scanLoop W (W * H) (fuel + 1) sc m = scanLoop W (W * H) fuel sc m := by
  induction fuel generalizing sc m with
  | zero => have := hg.2.2.1; omega
  | succ fuel ih =>
    rw [scanLoop, scanLoop]
    cases hr : scanStep W (W * H) sc m with
    | error f => rfl
    | ok r =>
      simp only [ok_bind]
      rcases scanStep_cases hg hr with ⟨_, rfl⟩ | ⟨w, _, _, ⟨sc1, rfl, hg1, hp, _⟩ | ⟨sc1, hg1, hp, _, _, _, rfl⟩⟩
      · rfl
      · exact ih hg1 (by omega)
      · split
        · rename_i he
          split at he <;> cases he
          exact ih hg1 (by omega)
        · rfl
        · rfl

/-- A scan step that runs on moves the cursor one pixel on. -/
theorem scanStep_running {W H : Nat} {sc sc1 : Scan} {m m1 : Memory} (hg : sc.Placed W (W * H))
    (h : scanStep W (W * H) sc m = .ok (.running sc1 m1)) :
    sc1.Placed W (W * H) ∧ sc1.y * W + sc1.x = sc.y * W + sc.x + 1 := by
  rcases scanStep_cases hg h with ⟨_, h⟩ | ⟨w, _, _, ⟨sc2, h, hg2, hp, _⟩ | ⟨sc2, hg2, hp, _, _, _, h⟩⟩
  · cases h
  · cases h; exact ⟨hg2, hp⟩
  · split at h
    · cases h
    · cases h; exact ⟨hg2, hp⟩

/-- What a scan transition does to a state whose scan is due. -/
theorem scanTurn_cases {s t : State} (h : scanTurn s = .next t) :
    t = s
      ∨ (scanDue s = true ∧ s.scan = none
          ∧ t = { s with scan := some Scan.start, status := { s.status with dstate := .scanning } })
      ∨ ∃ sc sc1 m, scanDue s = true ∧ s.scan = some sc
          ∧ scanStep s.width.toNat s.gridSize sc s.mem = .ok (.running sc1 m)
          ∧ t = { s with scan := some sc1, mem := m } := by
  unfold scanTurn at h
  split at h
  case isFalse => cases h; exact .inl rfl
  case isTrue hdue =>
  split at h
  · rename_i hn
    cases h; exact .inr (.inl ⟨hdue, hn, rfl⟩)
  · rename_i sc hsc
    split at h
    · rename_i sc1 m hs
      cases h; exact .inr (.inr ⟨sc, sc1, m, hdue, hsc, hs, rfl⟩)
    · cases h; exact .inl rfl
    · cases h

/-- A scan transition leaves the rest of the scan with the same result. -/
theorem runScan_scanTurn {s : State} (hs : s.ScanOk) {sc sc1 : Scan} {m : Memory} (hsc : s.scan = some sc)
    (h : scanStep s.width.toNat s.gridSize sc s.mem = .ok (.running sc1 m)) :
    runScan { s with scan := some sc1, mem := m } = runScan s := by
  have hg := scan_placed hs
  rw [hsc, Option.getD_some] at hg
  obtain ⟨hg1, hp⟩ := scanStep_running hg h
  have h1 : runScan s = scanLoop s.width.toNat s.gridSize s.gridSize sc1 m := by
    rw [runScan, hsc, Option.getD_some, scanLoop, h]; rfl
  rw [h1]
  exact scanLoop_fuel hg1 (by simp only [State.gridSize, Option.getD_some]; omega)

end Sys2Proof.Machine
end

