-- ==== Sys2Proof/Laws/Run.lean ====
section
/-! SUPPORT. Runs of several steps, and what the host's RUN (30_encoding.md R89) comes to: the command accepted, polled,
completed, and STATUS read. -/

namespace Sys2Proof.Machine

theorem run_zero (s : State) : Sys2Proof.core.run 0 s = .next s := rfl

theorem run_next {s t : State} (k : Nat) (h : step s = .next t) :
    Sys2Proof.core.run (k + 1) s = Sys2Proof.core.run k t := by
  have h' : Sys2Proof.core.step s = .next t := h
  simp only [Host.Core.run, h']

theorem run_add {s t : State} {j : Nat} (k : Nat) (h : Sys2Proof.core.run j s = .next t) :
    Sys2Proof.core.run (j + k) s = Sys2Proof.core.run k t := by
  induction j generalizing s with
  | zero => cases h; rw [Nat.zero_add]
  | succ j ih =>
    cases hs : step s with
    | next u =>
      rw [run_next j hs] at h
      rw [Nat.succ_add, run_next (j + k) hs, ih h]
    | fault f =>
      have hs' : Sys2Proof.core.step s = .fault f := hs
      simp [Host.Core.run, hs'] at h
    | refused r =>
      have hs' : Sys2Proof.core.step s = .refused r := hs
      simp [Host.Core.run, hs'] at h

/-! ### The host's accesses to CMD and STATUS -/

/-- The window of registers lies inside the host's address space. -/
theorem hostTarget_register {c : Config} (hb : c.platformBase.toNat + 0x1000 ≤ 2 ^ 32) {off : Nat} (ho : off < 0x1000) :
    hostTarget c (hostAddr c off) = .register off := by
  have h : (hostAddr c off).toNat = c.platformBase.toNat + off := by
    simp only [hostAddr, BitVec.toNat_add, BitVec.toNat_ofNat]
    omega
  simp only [hostTarget, h, Nat.le_add_right, if_true, Nat.add_sub_cancel_left, target, ho]

/-- A CMD write to an idle engine (60_exceptions.md R255). -/
theorem step_issue {s : State} {addr w : Word} {rest : List Input} (hq : s.seq = .idle)
    (ht : hostTarget s.cfg addr = .register 0x00) (hi : s.inputs = .access (.write .w32 addr w) :: rest) :
    step s = .next { accept w { s with inputs := rest } with reply := .written } := by
  have hb : State.isBusy { s with inputs := rest } = false := (isBusy_false_iff _).2 hq
  simp only [step, hi, onInput, hostAccess, hb, accessIdle, ht, accessAllowed]
  rfl

/-- A STATUS read, at any time (20_memory.md R60). -/
theorem step_poll {s : State} {addr : Word} {rest : List Input} (ht : hostTarget s.cfg addr = .register 0x04)
    (hi : s.inputs = .access (.read .w32 addr) :: rest) :
    step s = .next { s with inputs := rest, reply := .data32 s.statusWord } := by
  have hw : State.statusWord { s with inputs := rest } = s.statusWord := rfl
  cases hb : s.isBusy with
  | true =>
    have hb' : State.isBusy { s with inputs := rest } = true := hb
    simp only [step, hi, onInput, hostAccess, hb', if_true, accessBusy, ht, true_and, hw]
  | false =>
    have hb' : State.isBusy { s with inputs := rest } = false := hb
    simp only [step, hi, onInput, hostAccess, hb', accessIdle, ht, accessAllowed]
    rfl

/-- Any number of polls of a busy engine changes nothing but what the host last got back. -/
theorem run_polls {s : State} {addr : Word} {rest : List Input} (ht : hostTarget s.cfg addr = .register 0x04) (n : Nat)
    (hi : s.inputs = (List.replicate n [Input.access (.read .w32 addr)]).flatten ++ rest) :
    ∃ r, Sys2Proof.core.run n s = .next { s with inputs := rest, reply := r } := by
  induction n generalizing s with
  | zero =>
    have hi' : s.inputs = rest := by simpa using hi
    exact ⟨s.reply, by rw [run_zero, ← hi']⟩
  | succ n ih =>
    have hi' : s.inputs = .access (.read .w32 addr) :: ((List.replicate n [Input.access (.read .w32 addr)]).flatten ++ rest) := by
      rw [hi]; simp [List.replicate_succ]
    rw [run_next n (step_poll ht hi')]
    exact ih ht rfl

/-- The engine's turn as the next input. -/
theorem step_engine {s : State} {rest : List Input} (hi : s.inputs = .engine :: rest) :
    step s = engineTurn { s with inputs := rest } := by
  simp only [step, hi, onInput]

theorem decode_encode (i : Instr) : decode (encode i) = .ok i := by cases i <;> decide

/-- RUN of a command on an idle engine, with any number of polls: where the command completes whatever the inputs to
come and the last reply are, the run ends after its completion with STATUS in the host's hand. -/
theorem run_command {s : State} {i : Instr} {n : Nat} {rest : List Input} {Q : State → Prop}
    (hb : s.cfg.platformBase.toNat + 0x1000 ≤ 2 ^ 32) (hq : s.seq = .idle) (hi : s.inputs = asmRun s.cfg n i ++ rest)
    (h : ∀ inp r, ∃ t, exec i { accept (encode i) s with inputs := inp, reply := r } = .next t
      ∧ t.inputs = inp ∧ t.cfg = s.cfg ∧ Q t) :
    ∃ t, Q t ∧ t.cfg = s.cfg
      ∧ Sys2Proof.core.run (n + 3) s = .next { t with inputs := rest, reply := .data32 t.statusWord } := by
  have h0 : hostTarget s.cfg (hostAddr s.cfg 0x00) = .register 0x00 := hostTarget_register hb (by decide)
  have h4 : hostTarget s.cfg (hostAddr s.cfg 0x04) = .register 0x04 := hostTarget_register hb (by decide)
  have hi1 : s.inputs = .access (.write .w32 (hostAddr s.cfg 0x00) (encode i))
      :: ((List.replicate n [Input.access (.read .w32 (hostAddr s.cfg 0x04))]).flatten
        ++ (.engine :: .access (.read .w32 (hostAddr s.cfg 0x04)) :: rest)) := by
    rw [hi]
    simp [asmRun, asmIssue, asmCmdw, asmWait, asmRd, Reg.offset]
  have s1 := step_issue hq h0 hi1
  obtain ⟨r, s2⟩ := run_polls (s := { accept (encode i) { s with inputs := _ } with reply := .written }) h4 n rfl
  obtain ⟨t, ht, hti, htc, hQ⟩ := h (.access (.read .w32 (hostAddr s.cfg 0x04)) :: rest) r
  refine ⟨t, hQ, htc, ?_⟩
  rw [show n + 3 = (n + 2) + 1 by omega, run_next _ s1, run_add 2 s2]
  rw [run_next (t := t) 1, run_next 0 (step_poll (htc ▸ h4) hti), run_zero]
  rw [step_engine rfl]
  simp only [engineTurn, accept_seq, decode_encode]
  exact ht

end Sys2Proof.Machine
end

