-- ==== Sys2Proof/Laws/Bus.lean ====
section
/-! SUPPORT. Host accesses: which are allowed, what a buffer access reads and writes, and when a read stops. -/

namespace Sys2Proof.Machine

theorem accessAllowed_iff (c : Config) (w : Width) (t : Target) : accessAllowed c w t = true ↔ ¬ Refused c w t := by
  cases t with
  | unmapped => simp [accessAllowed, Refused]
  | register off => simp [accessAllowed, Refused]
  | buffer sp off => cases w <;> simp [accessAllowed, Refused, wordFits]

/-- A pixel word with an unwritten lane is unwritten (20_memory.md R61). -/
theorem pixelAt_eq_none {m : Memory} {sp : Space} {i l : Nat} (hl : l < 4) (h : m.laneAt sp i l = none) :
    m.pixelAt sp i = none := by
  have h4 : l = 0 ∨ l = 1 ∨ l = 2 ∨ l = 3 := by omega
  unfold Memory.pixelAt
  rcases h4 with rfl | rfl | rfl | rfl <;> rw [h] <;> simp

theorem pixelAt_of_lanes {m : Memory} {sp : Space} {i : Nat} {b g r x : Byte} (h0 : m.laneAt sp i 0 = some b)
    (h1 : m.laneAt sp i 1 = some g) (h2 : m.laneAt sp i 2 = some r) (h3 : m.laneAt sp i 3 = some x) :
    m.pixelAt sp i = some (pixelOf b g r x) := by
  unfold Memory.pixelAt
  rw [h0, h1, h2, h3]

/-- The lanes of a written pixel word. -/
theorem lanes_of_pixelAt {m : Memory} {sp : Space} {i : Nat} {w : Word} (h : m.pixelAt sp i = some w) {l : Nat}
    (hl : l < 4) : m.laneAt sp i l = some (lane w l) := by
  have h4 : l = 0 ∨ l = 1 ∨ l = 2 ∨ l = 3 := by omega
  unfold Memory.pixelAt at h
  split at h
  · rename_i b g r x h0 h1 h2 h3
    cases h
    rcases h4 with rfl | rfl | rfl | rfl <;> simp [*]
  · cases h

/-- An 8-bit host read of a byte buffer is a read of the element. -/
theorem busRead8_byte {sp : Space} (hs : sp.stride = 1) (hb : sp ≠ .bbuf) (off : Nat) (m : Memory) :
    busRead8 sp off m = readByte sp off m := by
  cases sp <;> first | exact absurd rfl hb | exact absurd hs (by decide) | rfl

/-- An 8-bit host read of a pixel buffer reads the pixel word and takes a lane. -/
theorem busRead8_pixel {sp : Space} (hs : sp.stride = 4) (off : Nat) (m : Memory) :
    busRead8 sp off m = (readPixel sp (off / 4) m >>= fun w => .ok (lane w (off % 4))) := by
  cases sp <;> first | exact absurd hs (by decide) | rfl

/-- An 8-bit host read of a written element answers. -/
theorem busRead8_written {sp : Space} {off : Nat} {m : Memory} (h : m.Written sp (sp.elementOf off)) :
    ∃ v, busRead8 sp off m = .ok v := by
  cases sp
  all_goals
    simp only [Memory.Written, Space.elementOf, Space.stride, Nat.div_one] at h
    obtain ⟨v, hv⟩ := Option.ne_none_iff_exists'.1 h
    simp [busRead8, readByte, readBit, readPixel, orUnwritten, Space.elementOf, Space.stride, hv]

/-- An 8-bit host read that answers read a written element. -/
theorem busRead8_ok {sp : Space} {off : Nat} {m : Memory} {v : Byte} (h : busRead8 sp off m = .ok v) :
    m.Written sp (sp.elementOf off) := by
  by_contra hn
  cases sp
  all_goals
    simp [Memory.Written, Space.elementOf, Space.stride] at hn
    simp [busRead8, readByte, readBit, readPixel, orUnwritten, Space.elementOf, Space.stride, hn] at h

/-- An 8-bit host read stops only where its element is unwritten. -/
theorem busRead8_error {sp : Space} {off : Nat} {m : Memory} {f : Fault} (h : busRead8 sp off m = .error f) :
    f = .unwrittenRead sp (sp.elementOf off) ∧ ¬ m.Written sp (sp.elementOf off) := by
  cases sp
  all_goals
    simp only [busRead8, bind_eq_error, readByte_error, readBit_error, readPixel_error] at h
    try replace h := h.resolve_right (by simp)
    obtain ⟨h, rfl⟩ := h
    simp [Memory.Written, Space.elementOf, Space.stride] at h ⊢
    exact h

/-- A host read of a buffer all of whose elements are written answers. -/
theorem busRead_written {w : Width} {sp : Space} {off : Nat} {s : State}
    (h : ∀ j, Covers w (.buffer sp off) sp j → s.mem.Written sp j) : ∃ r, busRead w (.buffer sp off) s = .ok r := by
  have hd : ∀ k, sp.elementOf off ≤ sp.elementOf (off + k) := fun k => Nat.div_le_div_right (Nat.le_add_right _ _)
  have hk : ∀ k ≤ 3, sp.elementOf (off + k) ≤ sp.elementOf (off + 3) := fun k hk => Nat.div_le_div_right (by omega)
  cases w
  case w32 =>
    have hv : ∀ k ≤ 3, ∃ v, busRead8 sp (off + k) s.mem = .ok v := fun k h3 =>
      busRead8_written (h _ ⟨rfl, hd k, by simpa using hk k h3⟩)
    obtain ⟨b0, h0⟩ := hv 0 (by omega)
    obtain ⟨b1, h1⟩ := hv 1 (by omega)
    obtain ⟨b2, h2⟩ := hv 2 (by omega)
    obtain ⟨b3, h3⟩ := hv 3 (by omega)
    rw [Nat.add_zero] at h0
    exact ⟨_, by simp only [busRead, busRead32, h0, h1, h2, h3, ok_bind]; rfl⟩
  all_goals
    obtain ⟨v, hv⟩ := busRead8_written (m := s.mem) (sp := sp) (off := off) (h _ ⟨rfl, Nat.le_refl _, by simp⟩)
    exact ⟨_, by simp only [busRead, hv, ok_bind]; rfl⟩

/-- A host read of a buffer that answers read written elements only. -/
theorem busRead_ok {w : Width} {sp : Space} {off : Nat} {s : State} {r : Reply} (h : busRead w (.buffer sp off) s = .ok r)
    {j : Nat} (hc : Covers w (.buffer sp off) sp j) : s.mem.Written sp j := by
  obtain ⟨-, h1, h2⟩ := hc
  cases w
  case w32 =>
    simp only [busRead, busRead32, bind_eq_ok] at h
    obtain ⟨_, ⟨_, e0, _, e1, _, e2, _, e3, _⟩, _⟩ := h
    have hk : j = sp.elementOf off ∨ j = sp.elementOf (off + 1) ∨ j = sp.elementOf (off + 2)
        ∨ j = sp.elementOf (off + 3) := by
      have hs : sp.stride = 1 ∨ sp.stride = 4 := by cases sp <;> simp [Space.stride]
      simp only [Space.elementOf, if_true] at *
      rcases hs with hs | hs <;> rw [hs] at h1 h2 ⊢ <;> omega
    rcases hk with rfl | rfl | rfl | rfl
    · exact busRead8_ok e0
    · exact busRead8_ok e1
    · exact busRead8_ok e2
    · exact busRead8_ok e3
  all_goals
    simp only [busRead, bind_eq_ok] at h
    obtain ⟨_, e0, _⟩ := h
    obtain rfl : j = sp.elementOf off := Nat.le_antisymm (by simpa using h2) h1
    exact busRead8_ok e0

/-- A host read of a buffer stops only at an unwritten element it covers. -/
theorem busRead_error {w : Width} {sp : Space} {off : Nat} {s : State} {f : Fault}
    (h : busRead w (.buffer sp off) s = .error f) :
    ∃ j, f = .unwrittenRead sp j ∧ Covers w (.buffer sp off) sp j ∧ ¬ s.mem.Written sp j := by
  have hd : ∀ k, sp.elementOf off ≤ sp.elementOf (off + k) := fun k => Nat.div_le_div_right (Nat.le_add_right _ _)
  have hk : ∀ k ≤ 3, sp.elementOf (off + k) ≤ sp.elementOf (off + 3) := fun k hk => Nat.div_le_div_right (by omega)
  cases w
  case w32 =>
    have hv : ∀ k ≤ 3, busRead8 sp (off + k) s.mem = .error f →
        ∃ j, f = .unwrittenRead sp j ∧ Covers .w32 (.buffer sp off) sp j ∧ ¬ s.mem.Written sp j := fun k h3 he =>
      ⟨_, (busRead8_error he).1, ⟨rfl, hd k, by simpa using hk k h3⟩, (busRead8_error he).2⟩
    simp only [busRead, busRead32, bind_eq_error] at h
    rcases h with (h | ⟨_, _, h | ⟨_, _, h | ⟨_, _, h | ⟨_, _, h⟩⟩⟩⟩) | ⟨_, _, h⟩
    · exact hv 0 (by omega) h
    · exact hv 1 (by omega) h
    · exact hv 2 (by omega) h
    · exact hv 3 (by omega) h
    · cases h
    · cases h
  all_goals
    simp only [busRead, bind_eq_error] at h
    rcases h with h | ⟨_, _, h⟩
    · exact ⟨_, (busRead8_error h).1, ⟨rfl, Nat.le_refl _, by simp⟩, (busRead8_error h).2⟩
    · cases h

/-- A 32-bit host read of a pixel buffer at a pixel's first lane is the pixel word. -/
theorem busRead32_pixel {sp : Space} (hs : sp.stride = 4) {i : Nat} {m : Memory} {w : Word} (h : m.pixelAt sp i = some w) :
    busRead32 sp (4 * i) m = .ok w := by
  have hr : ∀ l < 4, busRead8 sp (4 * i + l) m = .ok (lane w l) := fun l hl => by
    rw [busRead8_pixel hs, readPixel_ok.2 (show m.pixelAt sp ((4 * i + l) / 4) = some w by
      rw [show (4 * i + l) / 4 = i by omega, h]), ok_bind, show (4 * i + l) % 4 = l by omega]
  have h0 := hr 0 (by omega)
  rw [Nat.add_zero] at h0
  simp only [busRead32, h0, hr 1 (by omega), hr 2 (by omega), hr 3 (by omega), ok_bind, pixelOf_lanes]

theorem busWrite8_eq {sp : Space} (hb : sp ≠ .bbuf) (off : Nat) (v : Byte) (m : Memory) :
    busWrite8 sp off v m = m.write (sp.base + off) v := by
  cases sp <;> first | exact absurd rfl hb | rfl

/-- What a 32-bit host write of a byte or pixel buffer leaves, byte by byte. -/
theorem read_busWrite32 {sp : Space} (hb : sp ≠ .bbuf) (off : Nat) (v : Word) (m : Memory) (a : Nat) :
    (busWrite32 sp off v m).read a
      = if a = sp.base + off + 3 then some (lane v 3) else if a = sp.base + off + 2 then some (lane v 2)
        else if a = sp.base + off + 1 then some (lane v 1) else if a = sp.base + off then some (lane v 0)
        else m.read a := by
  simp only [busWrite32, busWrite8_eq hb, Memory.read_write, Nat.add_assoc]

end Sys2Proof.Machine
end

