-- ==== Sys2Proof/Laws/PerInstr.lean ====
section
/-! SUPPORT. The family of per-instruction lemmas: the word of each command has a zero reserved field and decodes, as a
word and as a row of the opcode table, to that command. -/

namespace Sys2Proof.Laws.Coding

/-- What each command's word says about it (30_encoding.md R80 to R82). -/
def Statement (i : Instr) : Prop :=
  rsvField (encode i) = 0 ∧ decode (encode i) = .ok i ∧ decodeTableWord 32 (encode i).toNat = some i

theorem nop : Statement .nop := by unfold Statement; decide
theorem xor : Statement .xor := by unfold Statement; decide
theorem frame : Statement .frame := by unfold Statement; decide
theorem unframe : Statement .unframe := by unfold Statement; decide
theorem pack : Statement .pack := by unfold Statement; decide
theorem unpack : Statement .unpack := by unfold Statement; decide
theorem encode : Statement .encode := by unfold Statement; decide
theorem decode : Statement .decode := by unfold Statement; decide
theorem move : Statement .move := by unfold Statement; decide
theorem copy : Statement .copy := by unfold Statement; decide
theorem hide : Statement .hide := by unfold Statement; decide
theorem show_ : Statement .show_ := by unfold Statement; decide

end Sys2Proof.Laws.Coding
end

