-- ==== Sys2Proof/Laws/Reads.lean ====
section
/-! SUPPORT. What a loop that runs through has read: each element was written (70_reset_and_hazards.md R286). For the two
searches, where they stop at the first unwritten element, and that they read as far as it. -/

namespace Sys2Proof.Machine

/-! ### Loops -/

theorem moveLoop_reads {n : Nat} {m m' : Memory} (hn : n ≤ 2 ^ 24) (h : moveLoop n m = .ok m') {i : Nat} (hi : i < n) :
    m.byteAt .pbuf i ≠ none := by
  obtain ⟨c, d, hc, hd⟩ := loop_round h hi
  simp only [bind_eq_ok, readByte_ok] at hd
  obtain ⟨v, hv, _⟩ := hd
  rw [← (moveLoop_writes (n := i) hc).byteAt_before (.inl (by simp only [Space.base]; omega)), hv]
  simp

theorem xorLoop_reads {n k : Nat} {m m' : Memory} (hn : n ≤ 2 ^ 24) (h : xorLoop n k m = .ok m')
    {i : Nat} (hi : i < n) : m.byteAt .pbuf i ≠ none ∧ (i < k → m.byteAt .kbuf i ≠ none) := by
  obtain ⟨c, d, hc, hd⟩ := loop_round h hi
  simp only [bind_eq_ok, readByte_ok] at hd
  obtain ⟨v, hv, w, hw, _⟩ := hd
  have hb := xorLoop_writes (n := i) hc
  rw [← hb.byteAt_before (.inl (by simp only [Space.base]; omega)), hv]
  refine ⟨by simp, fun hik => ?_⟩
  rw [Nat.mod_eq_of_lt hik] at hw
  rw [← hb.byteAt_before (.inl (by simp only [Space.base]; omega)), hw]
  simp

theorem decipherLoop_reads {n k : Nat} {m m' : Memory} (hk' : k ≤ 2 ^ 24) (h : decipherLoop n k m = .ok m')
    {i : Nat} (hi : i < n) (hik : i < k) : m.byteAt .kbuf i ≠ none := by
  obtain ⟨c, d, hc, hd⟩ := loop_round h hi
  simp only [bind_eq_ok, readByte_ok] at hd
  obtain ⟨v, _, w, hw, _⟩ := hd
  rw [Nat.mod_eq_of_lt hik] at hw
  rw [← (decipherLoop_writes (n := i) hc).byteAt_before (.inl (by simp only [Space.base]; omega)), hw]
  simp

theorem packLoop_reads {n : Nat} {m m' : Memory} (hn : n ≤ 2 ^ 24) (h : packLoop n m = .ok m') {i : Nat} (hi : i < n) :
    m.byteAt .wbuf i ≠ none := by
  obtain ⟨c, d, hc, hd⟩ := loop_round h hi
  simp only [bind_eq_ok, readByte_ok] at hd
  obtain ⟨v, hv, _⟩ := hd
  rw [← (packLoop_writes (n := i) hc).byteAt_before (.inl (by simp only [Space.base]; omega)), hv]
  simp

theorem unpackLoop_reads {n : Nat} {m m' : Memory} (hn : n ≤ 2 ^ 24) (h : unpackLoop n m = .ok m') {i : Nat}
    (hi : i < 8 * n) : m.bitAt i ≠ none := by
  obtain ⟨c, d, hc, hd⟩ := loop_round h (i := i / 8) (by omega)
  simp only [bind_eq_ok] at hd
  obtain ⟨v, hv, _⟩ := hd
  obtain ⟨a, b, _, hb⟩ := loop_round hv (i := i % 8) (by omega)
  simp only [bind_eq_ok, readBit_ok] at hb
  obtain ⟨x, hx, _⟩ := hb
  rw [show 8 * (i / 8) + i % 8 = i by omega, Memory.bitAt,
    (unpackLoop_writes (n := i / 8) hc).byteAt_before (.inr (by simp only [Space.base, Space.stride]; omega))] at hx
  rw [Memory.bitAt, hx]
  simp

theorem copyLoop_reads {n : Nat} {m m' : Memory} (h : copyLoop n m = .ok m') {i : Nat} (hi : i < n) :
    m.pixelAt .dst i ≠ none := by
  obtain ⟨c, d, hc, hd⟩ := loop_round h hi
  simp only [bind_eq_ok, readPixel_ok] at hd
  obtain ⟨v, hv, _⟩ := hd
  rw [← (copyLoop_writes (n := i) hc).pixelAt_before (.inr (by simp only [Space.base, Space.stride]; omega)), hv]
  simp

theorem embedLoop_reads {N n : Nat} {m m' : Memory} (hN : N ≤ 2 ^ 24) (h : embedLoop N n m = .ok m') {i : Nat}
    (hi : i < N) : m.pixelAt .src i ≠ none ∧ (i < n → m.bitAt i ≠ none) := by
  obtain ⟨c, d, hc, hd⟩ := loop_round h hi
  have hw := embedLoop_writes (N := i) hc
  simp only [bind_eq_ok, readPixel_ok] at hd
  obtain ⟨v, hv, hd⟩ := hd
  rw [← hw.pixelAt_before (.inl (by simp only [Space.base]; omega)), hv]
  refine ⟨by simp, fun hin => ?_⟩
  rw [if_pos hin] at hd
  simp only [bind_eq_ok, readBit_ok] at hd
  obtain ⟨x, hx, _⟩ := hd
  rw [Memory.bitAt, ← hw.byteAt_before (.inl (by simp only [Space.base]; omega)), ← Memory.bitAt, hx]
  simp

/-! ### The written beginning of a buffer -/

/-- Of the first `n` elements, the ones before the first that is missing. -/
theorem exists_prefix {α : Type} (g : Nat → Option α) (n : Nat) :
    ∃ d : List α, d.length ≤ n ∧ (∀ i, i < d.length → g i = d[i]?) ∧ (d.length < n → g d.length = none) := by
  induction n with
  | zero => exact ⟨[], by simp⟩
  | succ n ih =>
    obtain ⟨d, h1, h2, h3⟩ := ih
    rcases Nat.lt_or_ge d.length n with h | h
    · exact ⟨d, by omega, h2, fun _ => h3 h⟩
    · cases hg : g d.length with
      | none => exact ⟨d, by omega, h2, fun _ => hg⟩
      | some v =>
        refine ⟨d ++ [v], by simp; omega, fun i hi => ?_, fun hl => by simp at hl; omega⟩
        rw [List.length_append, List.length_singleton] at hi
        rcases Nat.lt_succ_iff_lt_or_eq.1 hi with h' | rfl
        · rw [List.getElem?_append_left h', h2 i h']
        · simp [hg]

/-- Two written beginnings of one buffer agree as far as both reach. -/
theorem eq_take_of_holds {α : Type} {g : Nat → Option α} {d e : List α} (hd : ∀ i, i < d.length → g i = d[i]?)
    (he : ∀ i, i < e.length → g i = e[i]?) (h : d.length ≤ e.length) : d = e.take d.length := by
  apply List.ext_getElem?
  intro i
  rcases Nat.lt_or_ge i d.length with hi | hi
  · rw [List.getElem?_take_of_lt hi, ← hd i hi, he i (by omega)]
  · rw [List.getElem?_eq_none hi, List.getElem?_eq_none (by simp; omega)]

/-! ### The searches -/

/-- UNFRAME's loop stops at the first unwritten byte of WBUF, where the bytes before it hold no terminator. -/
theorem unframeLoop_stops {d : List Byte} (hd : d.length < 2 ^ 24) (r j : Nat) (m : Memory) (hj : j ≤ d.length)
    (hr : d.length < j + r) (ho : ∀ k, k < j → m.byteAt .obuf k = d[k]?) (hw : m.HoldsBytes .wbuf d)
    (hn : m.byteAt .wbuf d.length = none) (hi : unframe d = .incomplete d) :
    unframeLoop r j m = .error (.unwrittenRead .wbuf d.length) := by
  induction r generalizing j m with
  | zero => omega
  | succ r ih =>
    rcases Nat.lt_or_eq_of_le hj with hlt | rfl
    · have hb : d[j]? = some d[j] := List.getElem?_eq_getElem hlt
      have h1 : readByte .wbuf j m = .ok d[j] := readByte_ok.2 (by rw [hw j hlt, hb])
      have ho1 : ∀ k, k < j + 1 → (writeByte .obuf j d[j] m).byteAt .obuf k = d[k]? := fun k hk => by
        rcases Nat.lt_succ_iff_lt_or_eq.1 hk with h | rfl
        · rw [byteAt_writeByte_ne (by omega), ho k h]
        · rw [byteAt_writeByte_same, hb]
      have hw1 : ∀ k, k ≤ d.length → (writeByte .obuf j d[j] m).byteAt .wbuf k = m.byteAt .wbuf k := fun k hk => by
        rw [byteAt_writeByte, if_neg (by simp only [Space.base]; omega)]
      have hm : matchAt d j = false := by
        have h2 := hi
        unfold unframe at h2
        split at h2
        · cases h2
        · rename_i hnone
          exact by simpa using List.find?_eq_none.1 hnone j (List.mem_range.2 hlt)
      rw [unframeLoop, h1]
      simp only [ok_bind, obufMatch_eq hb (fun k hk => ho1 k (by omega)), hm, Bool.false_eq_true, if_false]
      exact ih (j + 1) _ (by omega) (by omega) ho1 (fun k hk => by rw [hw1 k (by omega), hw k hk])
        (by rw [hw1 _ (Nat.le_refl _), hn])
    · rw [unframeLoop, readByte_error.2 ⟨hn, rfl⟩, error_bind]

/-- A scan stops at the first unwritten pixel of SRC, where the pixels before it hold no terminator. -/
theorem scanLoop_stops {px : List Word} {W H : Nat} (hpx : px.length < W * H) (hb : W * H ≤ 2 ^ 24) (fuel : Nat)
    (sc : Scan) (m : Memory) (hg : sc.Placed W (W * H)) (ha : sc.Assembled (lowBits px) (sc.y * W + sc.x))
    (hp : sc.y * W + sc.x ≤ px.length) (hf : W * H + 1 ≤ fuel + (sc.y * W + sc.x)) (hs : m.HoldsPixels .src px)
    (hn : m.pixelAt .src px.length = none)
    (hi : unframe (fromBits (lowBits px)) = .incomplete (fromBits (lowBits px))) :
    scanLoop W (W * H) fuel sc m = .error (.unwrittenRead .src px.length) := by
  induction fuel generalizing sc m with
  | zero => omega
  | succ fuel ih =>
    obtain ⟨ha1, ha2⟩ := ha
    have hll : (lowBits px).length = px.length := length_lowBits px
    rcases Nat.lt_or_eq_of_le hp with hlt | heq
    · have hw : m.pixelAt .src (sc.y * W + sc.x) = some px[sc.y * W + sc.x] := by
        rw [hs _ hlt, List.getElem?_eq_getElem]
      have hbit : px[sc.y * W + sc.x].getLsbD 0 = (lowBits px)[sc.y * W + sc.x] := by simp only [lowBits, List.getElem_map]
      obtain ⟨r, hr⟩ : ∃ r, scanStep W (W * H) sc m = .ok r := by
        refine ⟨scanByte { sc.advance W with acc := shiftIn sc.acc (px[sc.y * W + sc.x].getLsbD 0), nb := sc.nb + 1 } m, ?_⟩
        rw [scanStep, if_neg (by omega), readPixel_ok.2 hw, ok_bind]
      obtain ⟨h1, h2, h3, h4⟩ := id hg
      have hsh := shiftIn_assembled (b := lowBits px) (p := sc.y * W + sc.x) (by omega)
      rw [← ha2, ← hbit] at hsh
      rcases scanStep_cases hg hr with ⟨h, _⟩ | ⟨w, _, hw', ⟨sc1, rfl, hg1, hc1, hb1, ha1', hn1⟩ | ⟨sc1, hg1, hc1, hb1, ha1', hn1, hr1⟩⟩
      · omega
      · obtain rfl : w = px[sc.y * W + sc.x] := by rw [hw] at hw'; exact (Option.some.inj hw').symm
        rw [scanLoop, hr]
        simp only [ok_bind]
        refine ih sc1 m hg1 ⟨?_, ?_⟩ (by omega) (by omega) hs hn
        · rw [hb1, hc1, fromBits_take_succ_part (by omega) (by omega), ha1]
        · rw [ha1', hc1, hsh, show (sc.y * W + sc.x + 1) / 8 = (sc.y * W + sc.x) / 8 by omega]
      · obtain rfl : w = px[sc.y * W + sc.x] := by rw [hw] at hw'; exact (Option.some.inj hw').symm
        have hfull : sc1.bytes = fromBits ((lowBits px).take (sc.y * W + sc.x + 1)) := by
          rw [fromBits_take_succ_full (by omega) (by omega), hb1, hsh, ← ha1]
        have he : endsInTerminator sc1.bytes = false := by
          have hi1 : unframe sc1.bytes = .incomplete sc1.bytes := by
            rw [hfull, fromBits_take_eq _ _ (by omega)]; exact unframe_take hi _
          have hi0 : unframe sc.bytes = .incomplete sc.bytes := by
            rw [ha1, fromBits_take_eq _ _ (by omega)]; exact unframe_take hi _
          rcases unframe_next (shiftIn sc.acc (px[sc.y * W + sc.x].getLsbD 0)) hi0 with ⟨q, _, _, h⟩ | ⟨h, _⟩
          · rw [← hb1, hi1] at h; cases h
          · rw [hb1]; exact h
        have hsame : ∀ k, k ≤ px.length → (writeByte .obuf sc.bytes.length
            (shiftIn sc.acc (px[sc.y * W + sc.x].getLsbD 0)) m).pixelAt .src k = m.pixelAt .src k := fun k _ => by
          refine ((writeByte_writes (sp := .obuf) rfl (by decide) (Nat.zero_le _) (Nat.lt_succ_self _) _ m).same
            (P := Space.Elems .obuf 0 (sc.bytes.length + 1)) fun _ _ h => h.1).pixelAt fun l hl hel => ?_
          have := hel.2
          simp only [Space.base, Space.stride] at this
          omega
        rw [scanLoop, hr, hr1]
        simp only [ok_bind, he, Bool.false_eq_true, if_false]
        refine ih sc1 _ hg1 ⟨by rw [hc1, hfull], ?_⟩ (by omega) (by omega)
          (fun k hk => by rw [hsame k (by omega), hs k hk]) (by rw [hsame _ (Nat.le_refl _), hn])
        rw [ha1', hc1, List.drop_of_length_le (by simp; omega)]; rfl
    · rw [scanLoop, scanStep, if_neg (by omega), readPixel_error.2 ⟨by rw [heq]; exact hn, rfl⟩, error_bind, error_bind, heq]

/-- A whole scan stops at the first unwritten pixel, where the pixels before it hold no terminator. -/
theorem runScan_stops {s : State} {px : List Word} (hsc : s.scan = none) (hp : px.length < s.gridSize)
    (hb : s.gridSize ≤ 2 ^ 24) (hm : s.mem.HoldsPixels .src px) (hn : s.mem.pixelAt .src px.length = none)
    (hi : unframe (fromBits (lowBits px)) = .incomplete (fromBits (lowBits px))) :
    runScan s = .error (.unwrittenRead .src px.length) := by
  have h0 : Scan.start.y * s.width.toNat + Scan.start.x = 0 := by simp [Scan.start]
  rw [runScan, hsc]
  exact scanLoop_stops hp hb _ Scan.start s.mem (Scan.start_placed _ _) (by rw [h0]; exact Scan.start_assembled _)
    (by omega) (by simp [State.gridSize]) hm hn hi

/-! ### How far the searches read -/

theorem incomplete_of_ne {d : List Byte} (h : ∀ q, unframe d ≠ .found q) : unframe d = .incomplete d := by
  cases hu : unframe d with
  | found q => exact absurd hu (h q)
  | incomplete t => rw [unframe_incomplete hu]

theorem lowBits_take (px : List Word) (n : Nat) : lowBits (px.take n) = (lowBits px).take n := by simp [lowBits]

/-- UNFRAME goes on past a written beginning of WBUF without the terminator. -/
theorem unframeReaches_of_prefix {m : Memory} {d : List Byte} (hd : m.HoldsBytes .wbuf d)
    (hi : unframe d = .incomplete d) : m.UnframeReaches d.length := by
  intro e he hm q hq
  rw [eq_take_of_holds (g := m.byteAt .wbuf) hm hd he, unframe_take hi] at hq
  cases hq

/-- A scan goes on past a written beginning of SRC without the terminator. -/
theorem scanReaches_of_prefix {m : Memory} {px : List Word} (hd : m.HoldsPixels .src px)
    (hi : unframe (fromBits (lowBits px)) = .incomplete (fromBits (lowBits px))) : m.ScanReaches px.length := by
  intro e he hm q hq
  rw [eq_take_of_holds (g := m.pixelAt .src) hm hd he, lowBits_take, fromBits_take_eq _ _ (by simpa using he),
    unframe_take hi] at hq
  cases hq

/-- UNFRAME's loop runs through where a written beginning of WBUF is all of it or holds the terminator. -/
theorem unframeLoop_searches {d : List Byte} {n : Nat} {m : Memory} (hn : n ≤ 2 ^ 24) (hl : d.length ≤ n)
    (hd : m.HoldsBytes .wbuf d) (h : d.length = n ∨ ∃ q, unframe d = .found q) : ∃ r, unframeLoop n 0 m = .ok r := by
  obtain ⟨s, rfl, hs⟩ : ∃ s : List Byte, s.length = n ∧ ∀ k, k < (scannedBytes s).length → m.byteAt .wbuf k = s[k]? := by
    rcases h with h | ⟨q, h⟩
    · exact ⟨d, h, fun k hk => hd k (by have := (scannedBytes_eq_take d).2; omega)⟩
    · refine ⟨d ++ List.replicate (n - d.length) 0, by simp; omega, fun k hk => ?_⟩
      rw [scannedBytes_found (unframe_append _ h)] at hk
      have h2 := (unframe_found h).2.1
      have hk' : k < d.length := by simp at hk; omega
      rw [List.getElem?_append_left hk', hd k hk']
  obtain ⟨m', h1, _⟩ := unframeLoop_total hn s.length 0 m (by omega) (by simp) hs rfl
  exact ⟨_, h1⟩

/-- A whole scan runs through where a written beginning of SRC is the whole grid or holds the terminator; it computes
`decodeGrid` of a grid that beginning determines as far as the scan reads. -/
theorem runScan_searches {s : State} {d : List Word} (hsc : s.scan = none) (hn : s.gridSize ≤ 2 ^ 24)
    (hl : d.length ≤ s.gridSize) (hd : s.mem.HoldsPixels .src d)
    (h : d.length = s.gridSize ∨ ∃ q, unframe (fromBits (lowBits d)) = .found q) :
    ∃ px m, px.length = s.gridSize
      ∧ (∀ q, unframe (fromBits (lowBits d)) = .found q → unframe (fromBits (lowBits px)) = .found q)
      ∧ s.mem.HoldsPixels .src (px.take (pixelsRead px))
      ∧ runScan s = .ok ((decodeGrid px).2, scannedBytes (fromBits (lowBits px)), m) := by
  obtain ⟨px, h1, h2, h3⟩ : ∃ px : List Word, px.length = s.gridSize
      ∧ (∀ q, unframe (fromBits (lowBits d)) = .found q → unframe (fromBits (lowBits px)) = .found q)
      ∧ s.mem.HoldsPixels .src (px.take (pixelsRead px)) := by
    rcases h with h | ⟨q, h⟩
    · refine ⟨d, h, fun _ h => h, fun k hk => ?_⟩
      simp at hk
      rw [hd k hk.2, List.getElem?_take_of_lt hk.1]
    · have hx : unframe (fromBits (lowBits (d ++ List.replicate (s.gridSize - d.length) 0))) = .found q := by
        have e := fromBits_take_eq (lowBits (d ++ List.replicate (s.gridSize - d.length) 0)) d.length (by simp)
        rw [← lowBits_take, List.take_left'] at e
        · have := unframe_append
            ((fromBits (lowBits (d ++ List.replicate (s.gridSize - d.length) 0))).drop (d.length / 8)) h
          rwa [e, List.take_append_drop] at this
        · rfl
      refine ⟨d ++ List.replicate (s.gridSize - d.length) 0, by simp; omega, fun q' hq' => ?_, fun k hk => ?_⟩
      · rw [h] at hq'; cases hq'; exact hx
      · rw [pixelsRead_found hx] at hk ⊢
        have h2 := (unframe_found h).2.1
        rw [length_fromBits, length_lowBits] at h2
        have hk' : k < d.length := by simp at hk; omega
        rw [List.getElem?_take_of_lt (by simp at hk; omega), List.getElem?_append_left hk', hd k hk']
  obtain ⟨m', h5, _⟩ := runScan_total hsc h1 (by omega) h3
  exact ⟨px, m', h1, h2, h3, h5⟩

/-- A whole scan stops only at an unwritten pixel it goes on to. -/
theorem runScan_error_reaches {s : State} {f : Fault} (hsc : s.scan = none) (hn : s.gridSize ≤ 2 ^ 24)
    (h : runScan s = .error f) :
    ∃ j, f = .unwrittenRead .src j ∧ j < s.gridSize ∧ s.mem.ScanReaches j ∧ s.mem.pixelAt .src j = none := by
  obtain ⟨d, h1, h2, h3⟩ := exists_prefix (s.mem.pixelAt .src) s.gridSize
  by_cases hc : d.length = s.gridSize ∨ ∃ q, unframe (fromBits (lowBits d)) = .found q
  · obtain ⟨_, _, _, _, _, h5⟩ := runScan_searches hsc hn h1 h2 hc
    rw [h] at h5; cases h5
  · push Not at hc
    have hl : d.length < s.gridSize := lt_of_le_of_ne h1 hc.1
    have hu := incomplete_of_ne hc.2
    have h6 := runScan_stops hsc hl hn h2 (h3 hl) hu
    rw [h] at h6; cases h6
    exact ⟨_, rfl, hl, scanReaches_of_prefix h2 hu, h3 hl⟩

/-- A whole scan that runs through read every pixel it goes on to. -/
theorem runScan_reads {s : State} {r : Bool × List Byte × Memory} (hsc : s.scan = none) (hn : s.gridSize ≤ 2 ^ 24)
    (h : runScan s = .ok r) {j : Nat} (hj : j < s.gridSize) (hr : s.mem.ScanReaches j) :
    s.mem.pixelAt .src j ≠ none := by
  intro hj0
  obtain ⟨d, h1, h2, h3⟩ := exists_prefix (s.mem.pixelAt .src) s.gridSize
  have hdj : d.length ≤ j := by
    by_contra hc
    have := h2 j (by omega)
    rw [hj0, List.getElem?_eq_getElem (by omega)] at this; cases this
  have h6 := runScan_stops hsc (by omega) hn h2 (h3 (by omega)) (incomplete_of_ne (hr d hdj h2))
  rw [h] at h6; cases h6

end Sys2Proof.Machine
end

