-- ==== Sys2Proof/Tests/Slice0.lean ====
section
/-! SUPPORT. The model's own tests: what the well-formedness checks refuse; each command's word; each command on the
worked examples of spec/; host accesses; and, for every obligation with hypotheses, operands that meet them. -/

namespace Sys2Proof.Tests

open Sys2Proof.Machine

/-! ### Small states -/

/-- A small choice of the parameters: WBUF holds 11 bytes. -/
def tiny : Config := { pMax := 8, kMax := 4, pixMax := 64, oMax := 16, platformBase := 0 }

/-- Bytes into a byte buffer, from element `i` on. -/
def putBytes (sp : Space) : Nat → List Byte → Memory → Memory
  | _, [], m => m
  | i, b :: bs, m => putBytes sp (i + 1) bs (writeByte sp i b m)

/-- Bits into BBUF, from element `i` on. -/
def putBits : Nat → List Bool → Memory → Memory
  | _, [], m => m
  | i, b :: bs, m => putBits (i + 1) bs (writeBit i b m)

/-- Pixel words into SRC or DST, from element `i` on. -/
def putPixels (sp : Space) : Nat → List Word → Memory → Memory
  | _, [], m => m
  | i, w :: ws, m => putPixels sp (i + 1) ws (writePixel sp i w m)

/-- The state after reset with small buffers and the memory `m`. -/
def idle (m : Memory) : State := { State.resetWith tiny [] with mem := m }

/-- What `f` says of the next state, if there is one. -/
def next? {α : Type} (o : Host.Outcome State Fault Refusal) (f : State → α) : Option α :=
  match o with
  | .next s => some (f s)
  | _ => none

/-- The fault, if there is one. -/
def fault? (o : Host.Outcome State Fault Refusal) : Option Fault :=
  match o with
  | .fault f => some f
  | _ => none

/-- Elements `0 .. n-1` of a byte buffer. -/
def bytes (sp : Space) (n : Nat) (s : State) : List (Option Byte) := (List.range n).map (s.mem.byteAt sp)

/-- Elements `0 .. n-1` of BBUF. -/
def bits (n : Nat) (s : State) : List (Option Bool) := (List.range n).map s.mem.bitAt

/-- Elements `0 .. n-1` of SRC or DST. -/
def pixels (sp : Space) (n : Nat) (s : State) : List (Option Word) := (List.range n).map (s.mem.pixelAt sp)

/-! ### What the well-formedness checks refuse -/

/-- 30_encoding.md R81: a reserved bit set. -/
theorem test_illegal_reserved_bits : ¬ LegalWord 0x00000100#32 ∧ decode 0x00000100#32 = .error .reservedBits := by decide
/-- 30 R85: bit 31 set over an assigned opcode. -/
theorem test_illegal_top_bit : ¬ LegalWord 0x80000001#32 ∧ decode 0x80000001#32 = .error .reservedBits := by decide
/-- 30 R85: the first and the last byte of each gap of the opcode map. -/
theorem test_illegal_unassigned :
    ¬ LegalWord 0x0000000A#32 ∧ ¬ LegalWord 0x0000000F#32 ∧ ¬ LegalWord 0x00000012#32 ∧ ¬ LegalWord 0x000000FF#32 := by
  decide
theorem test_legal_row : LegalWord 0x00000011#32 := by decide
/-- 00_scope.md R8: the parameters, each constraint broken in turn. -/
theorem test_config_valid : tiny.Valid ∧ defaultConfig.Valid := by decide
theorem test_config_pMax : ¬ ({ tiny with pMax := 2 ^ 21 - 2, oMax := 2 ^ 24 } : Config).Valid := by decide
theorem test_config_kMax_zero : ¬ ({ tiny with kMax := 0 } : Config).Valid := by decide
theorem test_config_kMax : ¬ ({ tiny with kMax := 2 ^ 24 + 1 } : Config).Valid := by decide
theorem test_config_pixMax : ¬ ({ tiny with pixMax := 2 ^ 24 + 1, oMax := 2 ^ 24 } : Config).Valid := by decide
theorem test_config_oMax_work : ¬ ({ tiny with oMax := 10 } : Config).Valid := by decide
theorem test_config_oMax_grid : ¬ ({ tiny with pixMax := 136 } : Config).Valid := by decide
theorem test_config_oMax : ¬ ({ tiny with oMax := 2 ^ 24 + 1 } : Config).Valid := by decide

/-! ### Each command's word, bit by bit (30 R82) -/

theorem test_decode_nop : decode 0b00000000000000000000000000000000#32 = .ok .nop := by decide
theorem test_decode_xor : decode 0b00000000000000000000000000000001#32 = .ok .xor := by decide
theorem test_decode_frame : decode 0b00000000000000000000000000000010#32 = .ok .frame := by decide
theorem test_decode_unframe : decode 0b00000000000000000000000000000011#32 = .ok .unframe := by decide
theorem test_decode_pack : decode 0b00000000000000000000000000000100#32 = .ok .pack := by decide
theorem test_decode_unpack : decode 0b00000000000000000000000000000101#32 = .ok .unpack := by decide
theorem test_decode_encode : decode 0b00000000000000000000000000000110#32 = .ok .encode := by decide
theorem test_decode_decode : decode 0b00000000000000000000000000000111#32 = .ok .decode := by decide
theorem test_decode_move : decode 0b00000000000000000000000000001000#32 = .ok .move := by decide
theorem test_decode_copy : decode 0b00000000000000000000000000001001#32 = .ok .copy := by decide
theorem test_decode_hide : decode 0b00000000000000000000000000010000#32 = .ok .hide := by decide
theorem test_decode_show : decode 0b00000000000000000000000000010001#32 = .ok .show_ := by decide
theorem test_table_word : decodeTableWord 32 17 = some .show_ ∧ decodeTableWord 8 0x101 = some .xor
    ∧ decodeTableWord 32 0x101 = none := by decide

/-! ### Each command on the spec's examples -/

/-- 46_control.md R230's worked example: STATUS 0x0003_0732 becomes 0x0000_0002. -/
theorem test_nop_status :
    let s := { idle [] with
      status := { done := true, found := false, ovr := false, err := .incomplete, lastop := 0x07#8, dstate := .incomplete } }
    s.statusWord = 0x00030732#32 ∧ next? (exec .nop (accept 0 s)) State.statusWord = some 0x00000002#32 := by decide
/-- 40_xor_cipher.md R105's worked example. -/
theorem test_xor_example :
    next? (exec .xor { idle (putBytes .kbuf 0 [0x01#8] (putBytes .pbuf 0 [0x41#8, 0x42#8] [])) with plen := 2, klen := 1 })
      (fun t => (bytes .wbuf 3 t, t.wlen, t.status.err)) = some ([some 0x40#8, some 0x43#8, none], 2, .none) := by decide
/-- R105's corner case: an empty payload and an empty key. -/
theorem test_xor_empty_key : next? (exec .xor (idle [])) (fun t => t.status.err) = some .invalidKey := by decide
/-- 41_frame_codec.md R125's worked example. -/
theorem test_frame_example :
    next? (exec .frame { idle (putBytes .wbuf 0 [0x40#8, 0x43#8] []) with wlen := 2 })
      (fun t => (bytes .wbuf 5 t, t.wlen)) = some ([some 0x40#8, some 0x43#8, some 0#8, some 0#8, some 3#8], 5) := by
  decide
/-- R125's corner case: W_MAX - 2 bytes leave no room. -/
theorem test_frame_full : next? (exec .frame { idle [] with wlen := 9 }) (fun t => t.status.err) = some .length := by
  decide
/-- 41 R131's worked example. -/
theorem test_unframe_example :
    next? (exec .unframe { idle (putBytes .wbuf 0 [0x41#8, 0x42#8, 0#8, 0#8, 3#8] []) with wlen := 5 })
      (fun t => (bytes .obuf 5 t, t.olen, t.status.found, t.status.err, t.status.dstate))
      = some ([some 0x41#8, some 0x42#8, some 0#8, some 0#8, some 3#8], 2, true, .none, .none) := by decide
/-- R131's corner case: 00 00 00 03, and unwritten bytes after the match that are never read. -/
theorem test_unframe_lazy :
    next? (exec .unframe { idle (putBytes .wbuf 0 [0#8, 0#8, 0#8, 3#8] []) with wlen := 9 })
      (fun t => (t.olen, t.status.found, t.mem.byteAt .obuf 4)) = some (1, true, none) := by decide
/-- 42_bit_packer.md R145's worked example. -/
theorem test_pack_example :
    next? (exec .pack { idle (putBytes .wbuf 0 [0x41#8] []) with wlen := 1 }) (fun t => (bits 8 t, t.blen))
      = some ([some false, some true, some false, some false, some false, some false, some false, some true], 8) := by
  decide
/-- 42 R150's worked example. -/
theorem test_unpack_example :
    next? (exec .unpack { idle (putBits 0 [false, true, false, false, false, false, false, false, false, true, false,
        false, false, false, true, true] []) with blen := 16 })
      (fun t => (bytes .wbuf 2 t, t.wlen)) = some ([some 0x40#8, some 0x43#8], 2) := by decide
/-- 60_exceptions.md R250: BLEN no multiple of 8. -/
theorem test_unpack_misaligned :
    next? (exec .unpack { idle [] with blen := 7 }) (fun t => (t.status.err, t.wlen)) = some (.bitAlign, 0) := by decide
/-- 43_pixel_encoder.md R165's worked example. -/
theorem test_encode_example :
    next? (exec .encode { idle (putBits 0 [true] (putPixels .src 0 [0x00102030#32, 0x00102031#32] [])) with
        width := 2, height := 1, blen := 1 }) (fun t => pixels .dst 2 t)
      = some [some 0x00102031#32, some 0x00102031#32] := by decide
/-- R165's corner case: one bit over the grid. -/
theorem test_encode_one_bit_over :
    next? (exec .encode { idle [] with width := 2, height := 1, blen := 3 }) (fun t => t.status.err) = some .capacity := by
  decide
/-- 44_pixel_decoder.md R190's corner case: low bits 00 00 03 and nothing written after them. -/
theorem test_decode_empty_payload :
    next? (exec .decode { idle (putPixels .src 0 (List.replicate 22 0x10#32 ++ [0x11#32, 0x11#32]) []) with
        width := 8, height := 8 }) (fun t => (bytes .obuf 4 t, t.olen, t.status.found, t.status.dstate, t.status.err))
      = some ([some 0#8, some 0#8, some 3#8, none], 0, true, .done, .none) := by decide +kernel
/-- 95_test_vectors.md P4: a 3 by 3 grid of 0xFF. -/
theorem test_decode_incomplete :
    next? (exec .decode (accept 7 { idle (putPixels .src 0 (List.replicate 9 0xFF#32) []) with width := 3, height := 3 }))
      (fun t => (bytes .obuf 2 t, t.olen, t.statusWord)) = some ([some 0xFF#8, none], 1, 0x00030732#32) := by decide
/-- 46 R233's worked example. -/
theorem test_move_example :
    next? (exec .move { idle (putBytes .pbuf 0 [0x41#8, 0x42#8] []) with plen := 2 })
      (fun t => (bytes .wbuf 2 t, t.wlen)) = some ([some 0x41#8, some 0x42#8], 2) := by decide
/-- 10_state.md R33: an unwritten payload byte. -/
theorem test_move_unwritten :
    fault? (exec .move { idle (putBytes .pbuf 0 [0x41#8] []) with plen := 2 }) = some (.unwrittenRead .pbuf 1) := by decide
/-- 46 R236's worked example. -/
theorem test_copy_example :
    next? (exec .copy { idle (putPixels .dst 0 [0x00102031#32, 0x00102031#32] []) with width := 2, height := 1 })
      (fun t => pixels .src 2 t) = some [some 0x00102031#32, some 0x00102031#32] := by decide
/-- R236: three lanes of a pixel word are not a written word (20_memory.md R61). -/
theorem test_copy_partial_pixel :
    fault? (exec .copy { idle (writeLane .dst 0 2 1#8 (writeLane .dst 0 1 1#8 (writeLane .dst 0 0 1#8 []))) with
        width := 1, height := 1 }) = some (.unwrittenRead .dst 0) := by decide
/-- 45_composite.md R210's corner case: an empty payload in 24 pixels. -/
theorem test_hide_empty_payload :
    next? (exec .hide { idle (putPixels .src 0 (List.replicate 24 0x20#32) []) with width := 24, height := 1, klen := 1 })
      (fun t => (pixels .dst 24 t, t.wlen, t.blen))
      = some (List.replicate 22 (some 0x20#32) ++ [some 0x21#32, some 0x21#32], 3, 24) := by decide +kernel
/-- 60 R252: INVALID_KEY before CAPACITY. -/
theorem test_hide_priority :
    next? (exec .hide { idle [] with width := 1, height := 1, plen := 1 }) (fun t => t.status.err) = some .invalidKey := by
  decide
/-- 45 R215: FOUND with the deciphered byte before the raw terminator. -/
theorem test_show_deciphers :
    next? (exec .show_ { idle (putBytes .kbuf 0 [0x01#8]
        (putPixels .src 0 ((toBits [0x40#8, 0#8, 0#8, 3#8]).map (fun b => if b then 1#32 else 0#32)) [])) with
        width := 8, height := 8, klen := 1 }) (fun t => (bytes .obuf 4 t, t.olen, t.status.found, t.status.dstate))
      = some ([some 0x41#8, some 0#8, some 0#8, some 3#8], 1, true, .done) := by decide +kernel
/-- 45 R215, 92_eei_decisions.md D16: without a terminator the raw bytes stay. -/
theorem test_show_raw :
    next? (exec .show_ { idle (putPixels .src 0 (List.replicate 8 1#32) []) with width := 8, height := 1, klen := 1 })
      (fun t => (bytes .obuf 1 t, t.olen, t.status.found, t.status.err)) = some ([some 0xFF#8], 1, false, .incomplete) := by
  decide

/-! ### Steps and host accesses -/

/-- 60 R255, R256, R257: issue, a dropped CMD write, completion. -/
theorem test_command_lifecycle :
    next? (step { idle [] with inputs := [.access (.write .w32 0 0x08), .access (.write .w32 0 1)] })
        (fun t => (t.statusWord, t.reply)) = some (0x00000801#32, .written)
      ∧ next? (hostAccess (.write .w32 0 1) (accept 8 (idle []))) State.statusWord = some 0x00000809#32
      ∧ next? (engineTurn (accept 8 (idle []))) State.statusWord = some 0x00000802#32 := by decide
/-- 95 P5: an illegal word. -/
theorem test_illegal_status : next? (engineTurn (accept 0x00000101#32 (idle []))) State.statusWord = some 0x00000142#32 := by
  decide
/-- 20_memory.md R54, R56, R62: little-endian lanes. -/
theorem test_bus_lanes :
    next? (hostAccess (.write .w32 0x01000000 0x04030201) (idle [])) (fun t => bytes .pbuf 4 t)
        = some [some 1#8, some 2#8, some 3#8, some 4#8]
      ∧ next? (hostAccess (.read .w8 0x08000002) (idle (putPixels .src 0 [0x00102030#32] []))) (fun t => t.reply)
        = some (.data8 0x10#8) := by decide
/-- 20 R55, R57, R58, R60: refusals. -/
theorem test_bus_refused :
    fault? (hostAccess (.read .w32 0x04000000) (idle [])) = some (.hostFault .badAccess 0x04000000 .w32)
      ∧ fault? (hostAccess (.read .w8 0x00000004) (idle [])) = some (.hostFault .badAccess 0x00000004 .w8)
      ∧ fault? (hostAccess (.write .w8 0x01000008 0) (idle [])) = some (.hostFault .badAccess 0x01000008 .w8)
      ∧ fault? (hostAccess (.read .w8 0x01000000) (accept 0 (idle []))) = some (.hostFault .accessWhileBusy 0x01000000 .w8) := by
  decide
/-- 20 R61, 70 R293: an 8-bit read of a written lane of a pixel word whose other lanes are not. -/
theorem test_bus_partial_pixel :
    fault? (hostAccess (.read .w8 0x08000005) (idle (writeLane .src 1 1 0x20#8 []))) = some (.unwrittenRead .src 1) := by
  decide
/-- 95_test_vectors.md C11: lanes of a written pixel word. -/
theorem test_bus_pixel_lanes :
    next? (hostAccess (.read .w8 0x08000004) (idle (putPixels .src 1 [0x00102031#32] []))) (fun t => t.reply)
        = some (.data8 0x31#8)
      ∧ next? (hostAccess (.read .w8 0x08000006) (idle (putPixels .src 1 [0x00102031#32] []))) (fun t => t.reply)
        = some (.data8 0x10#8) := by decide
/-- 44 R182, R183: two scan transitions. -/
theorem test_scan_turns :
    let s := accept 7 { idle (putPixels .src 0 [1#32] []) with width := 1, height := 1 }
    next? (scanTurn s) (fun t => (t.status.dstate, t.scan)) = some (.scanning, some Scan.start)
      ∧ next? (scanTurn { s with scan := some Scan.start }) (fun t => t.scan)
        = some (some { x := 0, y := 1, acc := 1, nb := 1, bytes := [] }) := by decide

/-! ### Operands that meet the obligations' hypotheses -/

theorem next_of_next? {α : Type} {o : Host.Outcome State Fault Refusal} {f : State → α} {a : α} (h : next? o f = some a) :
    ∃ t, o = .next t := by
  cases o <;> first | exact ⟨_, rfl⟩ | cases h

theorem fault_of_fault? {o : Host.Outcome State Fault Refusal} {f : Fault} (h : fault? o = some f) : o = .fault f := by
  cases o <;> first | (cases h; rfl) | cases h

/-- Accepting the word of a command, on a small block. -/
def running (w : Word) (s : State) : State := accept w s

/-- An idle block whose next input is a host access. -/
def facing (a : Access) (rest : List Input) : State := { idle [] with inputs := .access a :: rest }

theorem witness_LegalWordsExactly :
    (¬ ∃ i, decode 0x0000000A#32 = .ok i) ∧ (running 0x0000000A#32 (idle [])).seq = .busy 0x0000000A#32 :=
  ⟨fun ⟨i, h⟩ => by cases i <;> revert h <;> decide, rfl⟩

theorem witness_IllegalWordsAbort :
    (idle []).seq = .idle ∧ hostTarget tiny 0 = .register 0x00
      ∧ (0x00000100#32).extractLsb' 8 24 ≠ 0#24
      ∧ (0x0A#8 ≤ (0x0000000A#32).extractLsb' 0 8 ∧ (0x0000000F#32).extractLsb' 0 8 ≤ 0x0F#8)
      ∧ 0x12#8 ≤ (0x00000012#32).extractLsb' 0 8
      ∧ (facing (.write .w32 0 0x00000012#32) [.engine]).inputs = [.access (.write .w32 0 0x00000012#32), .engine] := by
  decide

theorem witness_StepRunsDecodedInstruction :
    (running 1 (idle [])).seq = .busy 1 ∧ decode 1 = .ok .xor ∧ (running 1 (idle [])).inputs = []
      ∧ (running 1 { idle [] with inputs := [.engine, .rst] }).inputs = [.engine, .rst] := by decide

theorem witness_AcceptedTableWordRunsNext : decodeTableWord 32 1 = some .xor := by decide

theorem witness_StepTakesNextInput :
    (facing (.read .w32 4) [.rst]).inputs = [.access (.read .w32 4), .rst]
      ∧ ({ idle [] with inputs := [.scan, .rst] } : State).inputs = [.scan, .rst]
      ∧ ({ idle [] with inputs := [.engine] } : State).inputs = [.engine]
      ∧ ({ idle [] with inputs := [.rst] } : State).inputs = [.rst] := by decide

theorem witness_IdleEngineWaits : (idle []).seq = .idle ∧ (idle []).inputs = [] := by decide

theorem witness_CommandAcceptance :
    (facing (.write .w32 0 8) []).seq = .idle ∧ hostTarget (facing (.write .w32 0 8) []).cfg 0 = .register 0x00
      ∧ (facing (.write .w32 0 8) []).inputs = [.access (.write .w32 0 8)]
      ∧ decode 8 = .ok .move ∧ decode 0x0A = .error (.unassignedOpcode 0x0A#8) := by decide

theorem witness_CommandWriteWhileBusyDropped :
    (running 8 (facing (.write .w32 0 1) [])).seq = .busy 8
      ∧ hostTarget (running 8 (facing (.write .w32 0 1) [])).cfg 0 = .register 0x00
      ∧ (running 8 (facing (.write .w32 0 1) [])).inputs = [.access (.write .w32 0 1)]
      ∧ (idle []).seq = .idle ∧ (idle []).cfg = (running 8 (facing (.write .w32 0 1) [])).cfg := by decide

theorem witness_ScanningIsVisible :
    scanDue (running 7 (idle [])) = true ∧ (running 7 (idle [])).scan = none
      ∧ (running 7 (idle [])).status.dstate = .none ∧ scanDue (running 0x11 { idle [] with klen := 1 }) = true := by decide

/-- STATUS and CMD, and the accesses beside them: another width, the other register. -/
theorem witness_AccessWhileBusyFaults :
    (running 7 (idle [])).seq = .busy 7
      ∧ (Width.w32 = .w32 ∧ hostTarget tiny 0x04 = .register 0x04)
      ∧ ¬ (Width.w8 = .w32 ∧ hostTarget tiny 0x04 = .register 0x04)
      ∧ ¬ (Width.w32 = .w32 ∧ hostTarget tiny 0x00 = .register 0x04)
      ∧ (Width.w32 = .w32 ∧ hostTarget tiny 0x00 = .register 0x00)
      ∧ ¬ (Width.w32 = .w32 ∧ hostTarget tiny 0x04 = .register 0x00) := by decide

theorem target_pbuf_last : hostTarget tiny 0x01000007 = .buffer .pbuf 7 := by decide
theorem target_pbuf_past : hostTarget tiny 0x01000008 = .buffer .pbuf 8 := by decide
theorem target_pbuf_word : hostTarget tiny 0x01000004 = .buffer .pbuf 4 := by decide

/-- The last element of PBUF is accepted, the address past it, a straddling word and an unmapped address are refused. -/
theorem witness_RefusedAccessIsBadAccess :
    (idle []).seq = .idle ∧ ¬ Refused tiny .w8 (hostTarget tiny 0x01000007) ∧ Refused tiny .w8 (hostTarget tiny 0x01000008)
      ∧ ¬ Refused tiny .w32 (hostTarget tiny 0x01000004) ∧ Refused tiny .w32 (hostTarget tiny 0x01000008)
      ∧ Refused tiny .w16 (hostTarget tiny 0x01000004) ∧ Refused tiny .w32 (hostTarget tiny 0x00001000) := by
  refine ⟨rfl, ?_, ?_, ?_, ?_, ?_, ?_⟩
  · rw [target_pbuf_last]; simp [Refused, Space.used, Space.cap, Space.stride, tiny]
  · rw [target_pbuf_past]; simp [Refused, Space.used, Space.cap, Space.stride, tiny]
  · rw [target_pbuf_word]; simp [Refused, Space.used, Space.cap, Space.stride, tiny]
  · rw [target_pbuf_past]; simp [Refused, Space.used, Space.cap, Space.stride, tiny]
  · rw [target_pbuf_word]; simp [Refused]
  · rw [show hostTarget tiny 0x00001000 = .unmapped by decide]; trivial

/-- A word of PBUF whose four elements are written, and one with an unwritten element. -/
theorem witness_RefusedAccessIsBadAccess_reads :
    let s := idle (putBytes .pbuf 4 [1#8, 2#8, 3#8] [])
    let u := idle (putBytes .pbuf 4 [1#8, 2#8, 3#8, 4#8] [])
    Covers .w32 (hostTarget s.cfg 0x01000004) .pbuf 7 ∧ ¬ s.mem.Written .pbuf 7
      ∧ ∀ sp j, Covers .w32 (hostTarget u.cfg 0x01000004) sp j → u.mem.Written sp j := by
  refine ⟨?_, not_not.2 (by decide), fun sp j h => ?_⟩
  · rw [show (idle (putBytes .pbuf 4 [1#8, 2#8, 3#8] [])).cfg = tiny from rfl, target_pbuf_word]
    exact ⟨rfl, by decide, by decide⟩
  · rw [show (idle (putBytes .pbuf 4 [1#8, 2#8, 3#8, 4#8] [])).cfg = tiny from rfl, target_pbuf_word] at h
    obtain ⟨rfl, h1, h2⟩ := h
    simp only [Space.elementOf, Space.stride, if_true, Nat.div_one] at h1 h2
    obtain h | h | h | h : j = 4 ∨ j = 5 ∨ j = 6 ∨ j = 7 := by omega
    all_goals subst h; exact fun h => by revert h; decide

theorem witness_AddressMapWindows : tiny.platformBase.toNat + 0x0FFFFFFF < 2 ^ 32 := by decide

theorem witness_RegisterReads :
    (idle []).seq = .idle ∧ hostTarget (idle []).cfg 0x20 = .register 0x20 ∧ hostTarget (idle []).cfg 0x24 = .register 0x24
      ∧ 0x24 ≤ 0xFFC ∧ 0xFFC % 4 = 0 ∧ hostTarget (idle []).cfg 0xFFC = .register 0xFFC := by decide

theorem witness_RegisterWrites :
    (idle []).seq = .idle ∧ hostTarget (idle []).cfg 0x08 = .register 0x08 ∧ hostTarget (idle []).cfg 0x1C = .register 0x1C := by
  decide

theorem witness_ReadOnlyWritesIgnored :
    (idle []).seq = .idle ∧ hostTarget (idle []).cfg 0x04 = .register 0x04 ∧ hostTarget (idle []).cfg 0x20 = .register 0x20
      ∧ hostTarget (idle []).cfg 0xFFC = .register 0xFFC ∧ 0xFFC % 4 = 0 ∧ 0x24 ≤ 0xFFC := by decide

theorem witness_ReadsHaveNoSideEffect :
    (∃ t, hostAccess (.read .w32 4) (idle []) = .next t) ∧ hostTarget (idle []).cfg 0x01000007 ≠ .register 0x00
      ∧ ∃ t, hostAccess (.write .w8 0x01000007 5) (idle []) = .next t :=
  ⟨⟨_, rfl⟩, by decide, ⟨_, rfl⟩⟩

theorem witness_ByteAccessReadsBack :
    (idle []).mem.byteAt .pbuf 7 = none ∧ (idle (putBytes .pbuf 7 [1#8] [])).mem.byteAt .pbuf 7 = some 1#8
      ∧ (idle []).seq = .idle ∧ Space.pbuf ∈ [Space.pbuf, .kbuf, .wbuf, .obuf]
      ∧ hostTarget (idle []).cfg 0x01000007 = .buffer .pbuf 7 ∧ 7 < Space.pbuf.cap (idle []).cfg := by decide

theorem witness_WordAccessIsLittleEndian :
    let s := idle (putBytes .pbuf 4 [1#8, 2#8, 3#8, 4#8] [])
    s.seq = .idle ∧ Space.pbuf ∈ [Space.pbuf, .kbuf, .wbuf, .obuf] ∧ hostTarget s.cfg 0x01000004 = .buffer .pbuf 4
      ∧ 4 % 4 = 0 ∧ 4 + 3 < Space.pbuf.cap s.cfg ∧ s.mem.byteAt .pbuf 4 = some 1#8 ∧ s.mem.byteAt .pbuf 5 = some 2#8
      ∧ s.mem.byteAt .pbuf 6 = some 3#8 ∧ s.mem.byteAt .pbuf 7 = some 4#8 := by decide

theorem witness_BitBufferHoldsOneBit :
    let s := idle (putBits 87 [true] [])
    s.seq = .idle ∧ hostTarget s.cfg 0x04000057 = .buffer .bbuf 87 ∧ 87 < s.cfg.bMax ∧ s.mem.bitAt 87 = some true
      ∧ (idle []).mem.bitAt 87 = none := by decide

theorem witness_PixelAccessLanes :
    let s := idle (putPixels .src 63 [5#32] [])
    s.seq = .idle ∧ Space.src ∈ [Space.src, .dst] ∧ 63 < s.cfg.pixMax ∧ hostTarget s.cfg 0x080000FC = .buffer .src (4 * 63)
      ∧ hostTarget s.cfg 0x080000FF = .buffer .src (4 * 63 + 3) ∧ s.mem.pixelAt .src 63 = some 5#32
      ∧ (idle (writeLane .src 63 3 1#8 [])).mem.pixelAt .src 63 = none
      ∧ (idle (writeLane .src 63 3 1#8 [])).mem.laneAt .src 63 3 = some 1#8 := by decide

theorem witness_NopClearsStatus :
    (facing (.write .w32 0 0x00000000#32) [.engine]).seq = .idle
      ∧ hostTarget (facing (.write .w32 0 0x00000000#32) [.engine]).cfg 0 = .register 0x00
      ∧ (facing (.write .w32 0 0x00000000#32) [.engine]).inputs = [.access (.write .w32 0 0x00000000#32), .engine]
      ∧ (0x00000100#32).extractLsb' 0 8 = 0x00#8 ∧ (0x00000100#32).extractLsb' 8 24 ≠ 0#24 := by decide

/-- A payload of P_MAX bytes. -/
def payload : List Byte := [1#8, 2#8, 3#8, 4#8, 5#8, 6#8, 7#8, 8#8]

/-- Payload and key loaded. -/
def loaded : State := { idle (putBytes .kbuf 0 [9#8, 10#8] (putBytes .pbuf 0 payload [])) with plen := 8, klen := 2 }

theorem witness_XorCiphersPayload :
    0 < [9#8, 10#8].length ∧ loaded.cfg.Valid ∧ loaded.plen.toNat = payload.length ∧ payload.length ≤ loaded.cfg.pMax
      ∧ loaded.klen.toNat = [9#8, 10#8].length ∧ [9#8, 10#8].length ≤ loaded.cfg.kMax
      ∧ loaded.mem.HoldsBytes .pbuf payload
      ∧ loaded.mem.HoldsBytes .kbuf (([9#8, 10#8] : List Byte).take payload.length) := by
  unfold Memory.HoldsBytes; decide

theorem witness_FrameAppendsTerminator :
    let s := { idle (putBytes .wbuf 0 payload []) with wlen := 8 }
    s.cfg.Valid ∧ s.wlen.toNat = payload.length ∧ payload.length + 3 ≤ s.cfg.wMax ∧ s.mem.HoldsBytes .wbuf payload := by
  unfold Memory.HoldsBytes; decide

/-- A terminator that ends at the last byte WBUF holds; and no terminator. -/
theorem witness_UnframeStripsOrReports :
    let s := { idle (putBytes .wbuf 0 (frame payload) []) with wlen := 11 }
    let u := { idle (putBytes .wbuf 0 payload []) with wlen := 8 }
    s.cfg.Valid ∧ s.wlen.toNat = (frame payload).length ∧ (frame payload).length ≤ s.cfg.wMax
      ∧ s.mem.HoldsBytes .wbuf (scannedBytes (frame payload)) ∧ unframe (frame payload) = .found payload
      ∧ u.cfg.Valid ∧ u.wlen.toNat = payload.length ∧ payload.length ≤ u.cfg.wMax
      ∧ u.mem.HoldsBytes .wbuf (scannedBytes payload) ∧ unframe payload = .incomplete payload := by
  unfold Memory.HoldsBytes; decide

theorem witness_PackSerialisesBits :
    let s := { idle (putBytes .wbuf 0 (frame payload) []) with wlen := 11 }
    s.cfg.Valid ∧ s.wlen.toNat = (frame payload).length ∧ (frame payload).length ≤ s.cfg.wMax
      ∧ s.mem.HoldsBytes .wbuf (frame payload) := by
  unfold Memory.HoldsBytes; decide

theorem witness_UnpackDeserialisesBits :
    let b := [true, false, true, true, false, false, true, true]
    let s := { idle (putBits 0 b []) with blen := 8 }
    s.cfg.Valid ∧ s.blen.toNat = b.length ∧ b.length ≤ s.cfg.bMax ∧ b.length % 8 = 0 ∧ s.mem.HoldsBits b := by
  unfold Memory.HoldsBits; decide

/-- As many bits as pixels. -/
theorem witness_EncodeEmbedsBits :
    let s := { idle (putBits 0 [true, false] (putPixels .src 0 [4#32, 5#32] [])) with width := 1, height := 2, blen := 2 }
    s.cfg.Valid ∧ [4#32, 5#32].length = s.width.toNat * s.height.toNat ∧ [4#32, 5#32].length ≤ s.cfg.pixMax
      ∧ s.blen.toNat = [true, false].length ∧ [true, false].length ≤ s.cfg.bMax ∧ [true, false].length ≤ [4#32, 5#32].length
      ∧ s.mem.HoldsPixels .src [4#32, 5#32] ∧ s.mem.HoldsBits [true, false] := by
  unfold Memory.HoldsPixels Memory.HoldsBits; decide

/-- Pixels whose low bits are those of the bytes. -/
def carrying (d : List Byte) : List Word := (toBits d).map (fun b => if b then 1#32 else 0#32)

/-- A grid that carries one byte and the terminator and ends with it, its terminator not ciphered. -/
def grid : List Word := carrying [0x40#8, 0#8, 0#8, 3#8]

/-- The grid loaded into SRC, with a key. -/
def carrier : State :=
  { idle (putBytes .kbuf 0 [1#8] (putPixels .src 0 grid [])) with width := 8, height := 4, klen := 1 }

/-- A grid without a terminator, and a trailing bit. -/
def blank : State :=
  { idle (putBytes .kbuf 0 [1#8] (putPixels .src 0 (List.replicate 9 1#32) [])) with width := 3, height := 3, klen := 1 }

theorem carrier_holds : carrier.mem.HoldsPixels .src (grid.take (pixelsRead grid)) := by
  unfold Memory.HoldsPixels; decide +kernel

theorem blank_holds : blank.mem.HoldsPixels .src ((List.replicate 9 1#32).take (pixelsRead (List.replicate 9 1#32))) := by
  unfold Memory.HoldsPixels; decide +kernel

theorem witness_DecodeRecoversOrReports :
    carrier.cfg.Valid ∧ carrier.scan = none ∧ grid.length = carrier.width.toNat * carrier.height.toNat
      ∧ grid.length ≤ carrier.cfg.pixMax ∧ carrier.mem.HoldsPixels .src (grid.take (pixelsRead grid))
      ∧ decodeGrid grid = ([0x40#8], true)
      ∧ blank.cfg.Valid ∧ blank.scan = none ∧ (List.replicate 9 1#32).length = blank.width.toNat * blank.height.toNat
      ∧ (List.replicate 9 1#32).length ≤ blank.cfg.pixMax
      ∧ blank.mem.HoldsPixels .src ((List.replicate 9 1#32).take (pixelsRead (List.replicate 9 1#32)))
      ∧ decodeGrid (List.replicate 9 1#32) = ([0xFF#8], false) :=
  ⟨by decide, rfl, by decide +kernel, by decide +kernel, carrier_holds, by decide +kernel, by decide, rfl, by decide, by decide,
    blank_holds, by decide⟩

theorem witness_MoveCopiesPayload :
    loaded.cfg.Valid ∧ loaded.plen.toNat = payload.length ∧ payload.length ≤ loaded.cfg.pMax
      ∧ loaded.mem.HoldsBytes .pbuf payload := by
  unfold Memory.HoldsBytes; decide

theorem witness_CopyMovesGrid :
    let s := { idle (putPixels .dst 0 [4#32, 5#32] []) with width := 2, height := 1 }
    s.cfg.Valid ∧ [4#32, 5#32].length = s.width.toNat * s.height.toNat ∧ [4#32, 5#32].length ≤ s.cfg.pixMax
      ∧ s.mem.HoldsPixels .dst [4#32, 5#32] := by
  unfold Memory.HoldsPixels; decide

/-- One payload byte, which fills a grid of 32 pixels exactly. -/
def full (inputs : List Input) : State :=
  { idle (putBytes .pbuf 0 [0x41#8] carrier.mem) with width := 8, height := 4, klen := 1, plen := 1, inputs := inputs }

theorem full_pixels (inputs : List Input) : (full inputs).mem.HoldsPixels .src grid := by
  show (full []).mem.HoldsPixels .src grid
  unfold Memory.HoldsPixels; decide +kernel

theorem full_payload (inputs : List Input) : (full inputs).mem.HoldsBytes .pbuf [0x41#8] := by
  show (full []).mem.HoldsBytes .pbuf [0x41#8]
  unfold Memory.HoldsBytes; decide +kernel

theorem full_key (inputs : List Input) : (full inputs).mem.HoldsBytes .kbuf (([1#8] : List Byte).take 1) := by
  show (full []).mem.HoldsBytes .kbuf (([1#8] : List Byte).take 1)
  unfold Memory.HoldsBytes; decide +kernel

theorem witness_HideEmbedsCipheredPayload :
    0 < ([1#8] : List Byte).length ∧ (full []).cfg.Valid ∧ (full []).plen.toNat = [0x41#8].length
      ∧ [0x41#8].length ≤ (full []).cfg.pMax ∧ (full []).klen.toNat = [1#8].length ∧ [1#8].length ≤ (full []).cfg.kMax
      ∧ grid.length = (full []).width.toNat * (full []).height.toNat ∧ grid.length ≤ (full []).cfg.pixMax
      ∧ 8 * ([0x41#8].length + 3) ≤ grid.length ∧ (full []).mem.HoldsBytes .pbuf [0x41#8]
      ∧ (full []).mem.HoldsBytes .kbuf (([1#8] : List Byte).take 1) ∧ (full []).mem.HoldsPixels .src grid :=
  ⟨by decide, by decide, by decide, by decide, by decide, by decide, by decide +kernel, by decide +kernel, by decide +kernel,
    full_payload [], full_key [], full_pixels []⟩

theorem witness_ShowDeciphersOrReports :
    0 < ([1#8] : List Byte).length ∧ carrier.cfg.Valid ∧ carrier.scan = none ∧ carrier.klen.toNat = [1#8].length
      ∧ [1#8].length ≤ carrier.cfg.kMax ∧ grid.length = carrier.width.toNat * carrier.height.toNat
      ∧ grid.length ≤ carrier.cfg.pixMax ∧ carrier.mem.HoldsPixels .src (grid.take (pixelsRead grid))
      ∧ decodeGrid grid = ([0x40#8], true) ∧ carrier.mem.byteAt .kbuf 0 = some 1#8
      ∧ blank.klen.toNat = [1#8].length ∧ decodeGrid (List.replicate 9 1#32) = ([0xFF#8], false) :=
  ⟨by decide, by decide, rfl, by decide, by decide, by decide +kernel, by decide +kernel, carrier_holds, by decide +kernel,
    by decide +kernel, by decide, by decide⟩

/-- One operand for each error, each just past its limit, with every earlier cause absent. -/
theorem witness_ErrorsAbortWithFirstCause :
    lengthViolated { idle [] with plen := 9 } .xor = true
      ∧ (lengthViolated (idle []) .xor = false ∧ keyEmpty (idle []) .xor = true)
      ∧ (lengthViolated { idle [] with blen := 7 } .unpack = false ∧ keyEmpty { idle [] with blen := 7 } .unpack = false
        ∧ bitsMisaligned { idle [] with blen := 7 } .unpack = true)
      ∧ (lengthViolated { idle [] with blen := 1 } .encode = false ∧ keyEmpty { idle [] with blen := 1 } .encode = false
        ∧ bitsMisaligned { idle [] with blen := 1 } .encode = false
        ∧ overCapacity { idle [] with blen := 1 } .encode = true) := by decide

/-- A HIDE that fits, and one that does not. -/
theorem witness_HideSucceedsIffItFits :
    (∃ t, exec .hide { idle (putPixels .src 0 (List.replicate 24 0x20#32) []) with width := 24, height := 1, klen := 1 }
        = .next t)
      ∧ ∃ t, exec .hide { idle [] with width := 1, height := 1, plen := 1 } = .next t :=
  ⟨next_of_next? test_hide_empty_payload, next_of_next? test_hide_priority⟩

/-- The scan's invariant holds where no scan runs. -/
theorem scanOk_of_none {s : State} (h : s.scan = none) : s.ScanOk := fun sc hs => by rw [h] at hs; cases hs

theorem witness_FaultsNameUnwrittenElements :
    let s := { idle (putBytes .pbuf 0 [0x41#8] []) with plen := 2 }
    s.cfg.Valid ∧ s.ScanOk ∧ exec .move s = .fault (.unwrittenRead .pbuf 1) :=
  ⟨by decide, scanOk_of_none rfl, fault_of_fault? test_move_unwritten⟩

theorem witness_UnwrittenOperandStops :
    let s := { idle (putBytes .kbuf 0 [1#8] (putBytes .pbuf 0 [0x41#8] [])) with plen := 2, klen := 1 }
    let u := { idle (putBytes .wbuf 0 [0x41#8] []) with wlen := 2 }
    let v := { idle (putBits 0 [true] (putPixels .dst 0 [4#32] (putPixels .src 0 [4#32] []))) with
      width := 2, height := 1, blen := 1 }
    s.cfg.Valid ∧ s.mem.HoldsBytes .pbuf [0x41#8] ∧ [0x41#8].length < s.plen.toNat ∧ s.mem.byteAt .pbuf 1 = none
      ∧ s.plen.toNat ≤ s.cfg.pMax ∧ s.klen.toNat = [1#8].length ∧ [1#8].length ≤ s.cfg.kMax
      ∧ s.mem.HoldsBytes .kbuf (([1#8] : List Byte).take 1)
      ∧ u.mem.HoldsBytes .wbuf [0x41#8] ∧ [0x41#8].length < u.wlen.toNat ∧ u.mem.byteAt .wbuf 1 = none
      ∧ u.wlen.toNat ≤ u.cfg.wMax
      ∧ v.mem.HoldsPixels .dst [4#32] ∧ v.mem.HoldsPixels .src [4#32] ∧ v.mem.HoldsBits [true]
      ∧ [4#32].length < v.width.toNat * v.height.toNat ∧ v.mem.pixelAt .dst 1 = none ∧ v.mem.pixelAt .src 1 = none
      ∧ v.width.toNat * v.height.toNat ≤ v.cfg.pixMax ∧ v.blen.toNat = [true].length ∧ [true].length ≤ v.cfg.bMax
      ∧ [true].length ≤ v.width.toNat * v.height.toNat := by
  unfold Memory.HoldsBytes Memory.HoldsPixels Memory.HoldsBits; decide

theorem witness_RegisterFrame :
    ∃ t, exec .move { idle (putBytes .pbuf 0 [0x41#8, 0x42#8] []) with plen := 2 } = .next t :=
  next_of_next? test_move_example

/-- A command that writes, and one that raises. -/
theorem witness_MemoryFrame :
    let s := { idle (putBytes .pbuf 0 [0x41#8, 0x42#8] []) with plen := 2 }
    s.cfg.Valid ∧ s.ScanOk ∧ (∃ t, exec .move s = .next t) ∧ (∃ t, exec .xor (idle []) = .next t)
      ∧ firstError (idle []) .xor ≠ none :=
  ⟨by decide, scanOk_of_none rfl, next_of_next? test_move_example, next_of_next? test_xor_empty_key, by decide⟩

theorem witness_StatusFrame :
    (∃ t, exec .decode (accept 7 { idle (putPixels .src 0 (List.replicate 9 0xFF#32) []) with width := 3, height := 3 })
        = .next t)
      ∧ firstError (accept 7 { idle (putPixels .src 0 (List.replicate 9 0xFF#32) []) with width := 3, height := 3 }) .decode
        = none :=
  ⟨next_of_next? test_decode_incomplete, by decide⟩

theorem witness_CommandsIgnoreStatus :
    (∃ t, exec .move { idle (putBytes .pbuf 0 [0x41#8, 0x42#8] []) with plen := 2 } = .next t)
      ∧ ∃ f, exec .move { idle (putBytes .pbuf 0 [0x41#8] []) with plen := 2 } = .fault f :=
  ⟨next_of_next? test_move_example, _, fault_of_fault? test_move_unwritten⟩

theorem witness_XorTransformBytes : 0 < ([9#8, 10#8] : List Byte).length ∧ 7 < payload.length := by decide

theorem witness_XorTransformSelfInverse : 0 < ([9#8, 10#8] : List Byte).length := by decide

/-- The terminator at the start, and no terminator. -/
theorem witness_FramingLaw :
    (0 + 3 ≤ ([0#8, 0#8, 3#8, 7#8] : List Byte).length
        ∧ (([0#8, 0#8, 3#8, 7#8] : List Byte).drop 0).take 3 = [0x00#8, 0x00#8, 0x03#8])
      ∧ ∀ q, q < 1 → (([7#8] : List Byte).drop q).take 3 ≠ [0x00#8, 0x00#8, 0x03#8] := by decide

theorem witness_BitOrder :
    0 < payload.length ∧ 7 < 8 ∧ (toBits [0x41#8]).length % 8 = 0 ∧ 0 < (toBits [0x41#8]).length / 8
      ∧ ({ idle [] with blen := 7 } : State).blen.toNat ≤ (idle []).cfg.bMax
      ∧ ({ idle [] with blen := 7 } : State).blen.toNat % 8 ≠ 0 := by decide

theorem witness_BitRoundTrip : (toBits [0x41#8]).length % 8 = 0 := by decide

theorem witness_EmbedChangesOnlyLowBit :
    [true].length ≤ [4#32, 5#32].length ∧ 0 < [true].length ∧ 0 < [4#32, 5#32].length ∧ [true].length ≤ 1
      ∧ (5#32).getLsbD 0 = [true][0] := by decide

theorem witness_ScanComputesDecodeGrid :
    carrier.cfg.Valid ∧ grid.length = carrier.width.toNat * carrier.height.toNat ∧ grid.length ≤ carrier.cfg.pixMax
      ∧ carrier.mem.HoldsPixels .src (grid.take (pixelsRead grid)) ∧ grid.length + 1 ≤ 33 :=
  ⟨by decide, by decide +kernel, by decide +kernel, carrier_holds, by decide +kernel⟩

/-- A grid one row larger than `carrier`'s, whose last row is unwritten in one memory and written in the other. -/
def longer : State := { carrier with height := 5 }

theorem longer_next : next? (exec .decode longer) (fun t => t.status.found) = some true := by decide +kernel

/-- The same with a key that is not written. -/
theorem longer_fault :
    fault? (exec .show_ { longer with mem := putPixels .src 0 grid [] }) = some (.unwrittenRead .kbuf 0) := by
  decide +kernel

theorem witness_PixelsAfterTerminatorUnread :
    let px := grid ++ List.replicate 8 7#32
    Instr.decode ∈ [Instr.decode, .show_] ∧ longer.cfg.Valid ∧ longer.scan = none
      ∧ px.length = longer.width.toNat * longer.height.toNat ∧ px.length ≤ longer.cfg.pixMax
      ∧ longer.mem.HoldsPixels .src (px.take (pixelsRead px))
      ∧ longer.mem.SameExcept (Space.Elems .src (pixelsRead px) longer.cfg.pixMax) (writePixel .src 39 7#32 longer.mem)
      ∧ (∃ t, exec .decode longer = .next t)
      ∧ ∃ f, exec .show_ { longer with mem := putPixels .src 0 grid [] } = .fault f := by
  refine ⟨by decide, by decide, rfl, by decide +kernel, by decide +kernel, ?_, ?_, next_of_next? longer_next, _,
    fault_of_fault? longer_fault⟩
  · unfold Memory.HoldsPixels; decide +kernel
  · exact (writePixel_writes rfl (by decide +kernel) (by decide) _ _).same fun _ _ h => h.1

/-- For each command that reads, a needed element that is unwritten, its checks passing. -/
theorem witness_UnwrittenOperandStops_needs :
    let s := { idle [] with plen := 1, klen := 1, wlen := 1, blen := 8, width := 4, height := 8 }
    s.cfg.Valid ∧ s.scan = none
      ∧ (∀ i ∈ [Instr.xor, .unframe, .pack, .unpack, .encode, .decode, .move, .copy, .hide, .show_],
        firstError s i = none)
      ∧ Needs .xor s .pbuf 0 ∧ Needs .xor s .kbuf 0 ∧ Needs .move s .pbuf 0 ∧ Needs .unframe s .wbuf 0
      ∧ Needs .pack s .wbuf 0 ∧ Needs .unpack s .bbuf 7 ∧ Needs .encode s .src 31 ∧ Needs .encode s .bbuf 7
      ∧ Needs .decode s .src 0 ∧ Needs .copy s .dst 31 ∧ Needs .hide s .pbuf 0 ∧ Needs .hide s .kbuf 0
      ∧ Needs .hide s .src 31 ∧ Needs .show_ s .src 0 ∧ ∀ sp j, ¬ s.mem.Written sp j := by
  refine ⟨by decide, rfl, by decide, .inl ⟨rfl, by decide⟩, .inr ⟨rfl, by decide⟩, ⟨rfl, by decide⟩,
    ⟨rfl, by decide, unframeReaches_of_prefix (d := []) (by simp [Memory.HoldsBytes]) rfl⟩, ⟨rfl, by decide⟩,
    ⟨rfl, by decide⟩, .inl ⟨rfl, by decide⟩, .inr ⟨rfl, by decide⟩,
    ⟨rfl, by decide, scanReaches_of_prefix (px := []) (by simp [Memory.HoldsPixels]) rfl⟩, ⟨rfl, by decide⟩,
    .inl ⟨rfl, by decide⟩, .inr (.inl ⟨rfl, by decide⟩), .inr (.inr ⟨rfl, by decide⟩),
    .inl ⟨rfl, by decide, scanReaches_of_prefix (px := []) (by simp [Memory.HoldsPixels]) rfl⟩, fun sp j => ?_⟩
  cases sp <;> exact not_not.2 rfl

/-- The key byte SHOW needs for what it recovers. -/
theorem witness_UnwrittenOperandStops_key :
    let s := { longer with mem := putPixels .src 0 grid [] }
    s.cfg.Valid ∧ s.scan = none ∧ firstError s .show_ = none ∧ Needs .show_ s .kbuf 0 ∧ ¬ s.mem.Written .kbuf 0 := by
  refine ⟨by decide, rfl, by decide, .inr ⟨rfl, by decide, grid, [0x40#8], by decide +kernel, ?_, by decide +kernel,
    by decide⟩, not_not.2 (by decide +kernel)⟩
  unfold Memory.HoldsPixels; decide +kernel

/-- Every element that MOVE needs, written. -/
theorem witness_UnwrittenOperandStops_written :
    let s := { idle (putBytes .pbuf 0 [0x41#8] []) with plen := 1 }
    firstError s .move = none ∧ ∀ sp j, Needs .move s sp j → s.mem.Written sp j := by
  refine ⟨by decide, fun sp j h => ?_⟩
  obtain ⟨rfl, h⟩ := h
  obtain rfl : j = 0 := Nat.lt_one_iff.1 h
  exact fun h => by revert h; decide

/-- A payload that fits, and one a grid of one pixel cannot hold. -/
theorem witness_HideIsComponentSequence :
    let s := { idle (putPixels .src 0 (List.replicate 24 0x20#32) []) with width := 24, height := 1, klen := 1 }
    let u := { idle [] with width := 1, height := 1, klen := 1 }
    s.cfg.Valid ∧ firstError s .hide = none ∧ (∃ t, exec .hide s = .next t)
      ∧ u.cfg.Valid ∧ firstError u .hide = some .capacity
      ∧ ∃ t1 t2 t3, exec .xor (accept (encode .xor) u) = .next t1 ∧ exec .frame (accept (encode .frame) t1) = .next t2
        ∧ exec .pack (accept (encode .pack) t2) = .next t3 :=
  ⟨by decide, by decide, next_of_next? test_hide_empty_payload, by decide, by decide, _, _, _, rfl, rfl, rfl⟩

theorem witness_KeyedRoundTrip :
    let s := full (asmRun tiny 2 .hide ++ asmRun tiny 0 .copy ++ asmRun tiny 1 .show_ ++ [.rst])
    0 < ([1#8] : List Byte).length ∧ s.cfg.Valid ∧ s.cfg.platformBase.toNat + 0x1000 ≤ 2 ^ 32 ∧ s.seq = .idle
      ∧ s.plen.toNat = [0x41#8].length ∧ [0x41#8].length ≤ s.cfg.pMax ∧ s.klen.toNat = [1#8].length
      ∧ [1#8].length ≤ s.cfg.kMax ∧ grid.length = s.width.toNat * s.height.toNat ∧ grid.length ≤ s.cfg.pixMax
      ∧ 8 * ([0x41#8].length + 3) ≤ grid.length ∧ s.mem.HoldsBytes .pbuf [0x41#8]
      ∧ s.mem.HoldsBytes .kbuf (([1#8] : List Byte).take 1) ∧ s.mem.HoldsPixels .src grid
      ∧ s.inputs = asmRun s.cfg 2 .hide ++ asmRun s.cfg 0 .copy ++ asmRun s.cfg 1 .show_ ++ [.rst] :=
  ⟨by decide, by decide, by decide, rfl, by decide, by decide, by decide, by decide, by decide +kernel, by decide +kernel,
    by decide +kernel, full_payload _, full_key _, full_pixels _, rfl⟩

theorem witness_UnkeyedRoundTrip :
    let s := full (asmHideplain tiny 0 1 2 3 ++ asmRun tiny 1 .copy ++ asmRun tiny 0 .decode ++ [])
    s.cfg.Valid ∧ s.cfg.platformBase.toNat + 0x1000 ≤ 2 ^ 32 ∧ s.seq = .idle ∧ s.plen.toNat = [0x41#8].length
      ∧ [0x41#8].length ≤ s.cfg.pMax ∧ grid.length = s.width.toNat * s.height.toNat ∧ grid.length ≤ s.cfg.pixMax
      ∧ 8 * ([0x41#8].length + 3) ≤ grid.length ∧ s.mem.HoldsBytes .pbuf [0x41#8] ∧ s.mem.HoldsPixels .src grid
      ∧ s.inputs = asmHideplain s.cfg 0 1 2 3 ++ asmRun s.cfg 1 .copy ++ asmRun s.cfg 0 .decode ++ [] :=
  ⟨by decide, by decide, rfl, by decide, by decide, by decide +kernel, by decide +kernel, by decide +kernel, full_payload _,
    full_pixels _, rfl⟩

theorem witness_ResetState : State.reset = State.resetWith defaultConfig [] := rfl

theorem witness_InvariantAtReset : tiny.Valid := by decide

/-- A one-pixel grid whose DECODE has been accepted, reached by host writes. -/
def decoding : State :=
  writeRegister 0x00 7 (busWrite .w32 (.buffer .src 0) 5 (writeRegister 0x0C 1 (writeRegister 0x08 1 (State.resetWith tiny []))))

theorem decoding_inv : decoding.Inv := by
  have h0 := resetWith_inv (c := tiny) (by decide) []
  have h1 := writeRegister_inv h0 rfl 0x08 1
  have h2 := writeRegister_inv h1 rfl 0x0C 1
  have h3 := busWrite_inv (w := .w32) (t := .buffer .src 0) h2 rfl (by decide) 5
  exact writeRegister_inv h3 rfl 0x00 7

theorem witness_InvariantKept : decoding.Inv ∧ ∃ t, step decoding = .next t := ⟨decoding_inv, _, rfl⟩

/-- A scan that starts, and one whose first pixel is unwritten. -/
theorem witness_ScanTurnsInvisible :
    decoding.Inv ∧ (∃ t, scanTurn decoding = .next t)
      ∧ ∃ (s : State) (f : Fault), s.Inv ∧ scanTurn s = .fault f := by
  refine ⟨decoding_inv, ⟨_, rfl⟩, ?_⟩
  have h0 := resetWith_inv (c := tiny) (by decide) []
  have h1 := writeRegister_inv h0 rfl 0x08 1
  have h2 := writeRegister_inv h1 rfl 0x0C 1
  have h3 := writeRegister_inv h2 rfl 0x00 7
  exact ⟨_, .unwrittenRead .src 0, scanTurn_inv h3 rfl, rfl⟩

theorem witness_RunningCommandCompletes : decoding.Inv ∧ decoding.seq = .busy 7 := ⟨decoding_inv, rfl⟩

end Sys2Proof.Tests
end

section
/-! The invariant at reset (00_scope.md R8; 70_reset_and_hazards.md R280, R281). -/

namespace Sys2Proof.Machine

/-- The capacities R8 allows at most are a valid choice (log entry 1). -/
theorem defaultConfig_valid : defaultConfig.Valid := by decide

/-- Settles O57: nothing is written, no scan is begun and STATUS is clear after any valid reset (`resetWith_inv`);
`State.reset` is the instance at `defaultConfig`. -/
theorem invariantAtReset : Obligations.InvariantAtReset :=
  ⟨rfl, resetWith_inv defaultConfig_valid [], fun _ inp hv => resetWith_inv hv inp⟩

end Sys2Proof.Machine
end

section
/-! The machine's invariant along a step (70_reset_and_hazards.md R291 to R293): each kind of input keeps it. -/

namespace Sys2Proof.Machine

/-- Each input keeps the invariant: a host access, the engine's turn, a scan transition, RST. -/
theorem onInput_inv {e : Input} {s t : State} (hi : s.Inv) (h : onInput e s = .next t) : t.Inv := by
  cases e with
  | access a => exact hostAccess_inv hi h
  | engine => exact engineTurn_inv hi h
  | scan => exact scanTurn_inv hi h
  | rst =>
    cases h
    exact resetWith_inv hi.1 s.inputs

/-- Settles O58: a step is the engine's turn when no input is left (`engineTurn_inv`), and otherwise what the next input
does (`onInput_inv`), for which taking it off the list changes nothing the invariant speaks of (`inputs_inv`). -/
theorem invariantKept : Obligations.InvariantKept := by
  intro s t hi h
  cases hin : s.inputs with
  | nil =>
    simp only [step, hin] at h
    exact engineTurn_inv hi h
  | cons e rest =>
    simp only [step, hin] at h
    exact onInput_inv (inputs_inv hi rest) h

end Sys2Proof.Machine
end

section
/-! STATUS as the host reads it (10_state.md R23, R28), and what the registers of an idle engine read as and take
(10_state.md R21, R22, R25, R26, R29). -/

namespace Sys2Proof.Machine

/-! ### The STATUS word -/

theorem statusWord_busy (s : State) : s.statusWord.getLsbD 0 = s.isBusy := by
  simp only [State.statusWord, BitVec.getLsbD_append]
  simp

theorem statusWord_done (s : State) : s.statusWord.getLsbD 1 = s.status.done := by
  simp only [State.statusWord, BitVec.getLsbD_append]
  simp

theorem statusWord_found (s : State) : s.statusWord.getLsbD 2 = s.status.found := by
  simp only [State.statusWord, BitVec.getLsbD_append]
  simp

theorem statusWord_ovr (s : State) : s.statusWord.getLsbD 3 = s.status.ovr := by
  simp only [State.statusWord, BitVec.getLsbD_append]
  simp

/-- Of the wider fields, the fields below one are cut off one by one. -/
theorem statusWord_err (s : State) : s.statusWord.extractLsb' 4 4 = s.status.err.code := by
  rw [State.statusWord]
  iterate 4 rw [BitVec.extractLsb'_append_eq_of_le (by decide)]
  exact BitVec.extractLsb'_append_eq_right

theorem statusWord_lastop (s : State) : s.statusWord.extractLsb' 8 8 = s.status.lastop := by
  rw [State.statusWord]
  iterate 5 rw [BitVec.extractLsb'_append_eq_of_le (by decide)]
  exact BitVec.extractLsb'_append_eq_right

theorem statusWord_dstate (s : State) : s.statusWord.extractLsb' 16 2 = s.status.dstate.code := by
  rw [State.statusWord]
  iterate 6 rw [BitVec.extractLsb'_append_eq_of_le (by decide)]
  exact BitVec.extractLsb'_append_eq_right

theorem statusWord_reserved (s : State) : s.statusWord.extractLsb' 18 14 = 0#14 := by
  rw [State.statusWord]
  iterate 6 rw [BitVec.extractLsb'_append_eq_of_le (by decide)]
  exact BitVec.extractLsb'_append_eq_left

/-- Settles O12: each field of the word is the state's (`statusWord_busy` and those after it), BUSY is the sequencer's
state (`isBusy_iff`), and the codes are those of the definitions. -/
theorem statusWordFields : Obligations.StatusWordFields := by
  refine ⟨fun s => ⟨?_, statusWord_done s, statusWord_found s, statusWord_ovr s, statusWord_err s, statusWord_lastop s,
    statusWord_dstate s, statusWord_reserved s⟩, ⟨rfl, rfl, rfl, rfl, rfl, rfl, rfl⟩, rfl, rfl, rfl, rfl⟩
  rw [statusWord_busy]
  exact isBusy_iff s

/-! ### Register accesses of an idle engine -/

variable {s : State} {addr v : Word} {off : Nat}

theorem accessAllowed_register (c : Config) (h4 : off % 4 = 0) : accessAllowed c .w32 (.register off) = true := by
  simp [accessAllowed, h4]

/-- An aligned read of a register answers what `readRegister` says and changes nothing else. -/
theorem hostAccess_readRegister (hq : s.seq = .idle) (ht : hostTarget s.cfg addr = .register off) (h4 : off % 4 = 0) :
    hostAccess (.read .w32 addr) s = .next { s with reply := .data32 (readRegister off s) } := by
  simp [hostAccess, (isBusy_false_iff s).2 hq, accessIdle, ht, accessAllowed_register s.cfg h4, busRead]

/-- An aligned write of a register does what `writeRegister` says. -/
theorem hostAccess_writeRegister (hq : s.seq = .idle) (ht : hostTarget s.cfg addr = .register off) (h4 : off % 4 = 0) :
    hostAccess (.write .w32 addr v) s = .next { writeRegister off v s with reply := .written } := by
  simp [hostAccess, (isBusy_false_iff s).2 hq, accessIdle, ht, accessAllowed_register s.cfg h4, busWrite]

theorem readRegister_reserved (s : State) (h : 0x24 ≤ off) : readRegister off s = 0 := by
  unfold readRegister
  split <;> first | omega | rfl

theorem writeRegister_readOnly (v : Word) (s : State) (h : off = 0x04 ∨ 0x20 ≤ off) : writeRegister off v s = s := by
  unfold writeRegister
  split <;> first | omega | rfl

/-- Settles O16: a read answers `readRegister` (`hostAccess_readRegister`), which is 0 at a reserved offset
(`readRegister_reserved`). -/
theorem registerReads : Obligations.RegisterReads := by
  refine fun s addr hq => ⟨?_, fun off hr h4 ht => ?_⟩
  · simp only [List.forall_mem_cons, List.not_mem_nil, false_imp_iff, implies_true, and_true]
    refine ⟨?_, ?_, ?_, ?_, ?_, ?_, ?_, ?_, ?_⟩ <;> exact fun ht => hostAccess_readRegister hq ht rfl
  · rw [hostAccess_readRegister hq ht h4, readRegister_reserved s hr]
    rfl

/-- Settles O17: a write does what `writeRegister` does (`hostAccess_writeRegister`), which at each of the six offsets is
to write that register. -/
theorem registerWrites : Obligations.RegisterWrites := by
  intro s addr v hq
  simp only [List.forall_mem_cons, List.not_mem_nil, false_imp_iff, implies_true, and_true]
  refine ⟨?_, ?_, ?_, ?_, ?_, ?_⟩ <;> exact fun ht => hostAccess_writeRegister hq ht rfl

/-- Settles O18: at STATUS, OLEN and the reserved offsets `writeRegister` ignores the data (`writeRegister_readOnly`), and
the reserved offsets read as 0 (`readRegister_reserved`). -/
theorem readOnlyWritesIgnored : Obligations.ReadOnlyWritesIgnored := by
  refine fun s addr v off hq ht h4 ho => ⟨?_, fun hr => ?_⟩
  · rw [hostAccess_writeRegister hq ht h4, writeRegister_readOnly v s ho]
  · rw [hostAccess_readRegister hq ht h4, readRegister_reserved s hr]
    rfl

end Sys2Proof.Machine
end

section
/-! STATUS around the end of a command: which fields a command writes (10_state.md R24; 60_exceptions.md R257, R258), and
that it reads none (10_state.md R30). -/

namespace Sys2Proof.Machine

/-! ### What a command writes of STATUS -/

/-- The state a command that completes from `s` ends in outcome `e`: LASTOP and OVR are those of `s`; FOUND, and an
outcome INCOMPLETE, come from the three searches only, DSTATE from the two scans only. -/
structure EndsFrom (i : Instr) (s u : State) (e : ErrCode) : Prop where
  lastop : u.status.lastop = s.status.lastop
  ovr : u.status.ovr = s.status.ovr
  outcome : e = .none ∨ e = .incomplete
  plain : i ∉ [Instr.unframe, .decode, .show_] → u.status.found = s.status.found ∧ e = .none
  noScan : i ∉ [Instr.decode, .show_] → u.status.dstate = s.status.dstate

/-- A command body that answers a next state has ended in one, with some outcome. -/
def BodyEnds (i : Instr) (s : State) (r : Except Fault State) : Prop :=
  ∀ t, r = .ok t → ∃ u e, t = endWith e u ∧ EndsFrom i s u e

theorem BodyEnds.bind {i : Instr} {s : State} {α : Type} (x : Except Fault α) {f : α → Except Fault State}
    (h : ∀ a, BodyEnds i s (f a)) : BodyEnds i s (x >>= f) := fun t ht => by
  obtain ⟨a, _, ha⟩ := bind_eq_ok.1 ht
  exact h a t ha

/-- A body that writes memory and lengths only and completes. -/
theorem BodyEnds.complete {i : Instr} {s u : State} (h : u.status = s.status) : BodyEnds i s (.ok (complete u)) := by
  rintro t ⟨⟩
  exact ⟨u, .none, rfl, by rw [h], by rw [h], .inl rfl, fun _ => ⟨by rw [h], rfl⟩, fun _ => by rw [h]⟩

/-- UNFRAME: FOUND, or INCOMPLETE with STATUS as it was (41_frame_codec.md R131). -/
theorem unframeEnd_ends (s : State) (r : Option Nat × Memory) : BodyEnds .unframe s (.ok (unframeEnd s r)) := by
  rintro t ⟨⟩
  obtain ⟨_ | j, m⟩ := r
  · exact ⟨_, _, rfl, rfl, rfl, .inr rfl, by simp, fun _ => rfl⟩
  · exact ⟨_, _, rfl, rfl, rfl, .inl rfl, by simp, fun _ => rfl⟩

/-- A scan that is MATCHED (44_pixel_decoder.md R185). -/
theorem scanMatched_ends {i : Instr} (hi : i ∈ [Instr.decode, .show_]) (n : Nat) (m : Memory) (s : State) :
    BodyEnds i s (.ok (scanMatched n m s)) := by
  rintro t ⟨⟩
  exact ⟨_, _, rfl, rfl, rfl, .inl rfl, fun h => absurd (List.mem_cons_of_mem _ hi) h, fun h => absurd hi h⟩

/-- A scan that is EXHAUSTED (44_pixel_decoder.md R186). -/
theorem scanExhausted_ends {i : Instr} (hi : i ∈ [Instr.decode, .show_]) (n : Nat) (m : Memory) (s : State) :
    BodyEnds i s (.ok (scanExhausted n m s)) := by
  rintro t ⟨⟩
  exact ⟨_, _, rfl, rfl, rfl, .inr rfl, fun h => absurd (List.mem_cons_of_mem _ hi) h, fun h => absurd hi h⟩

theorem decodeEnd_ends (s : State) (r : Bool × List Byte × Memory) : BodyEnds .decode s (.ok (decodeEnd s r)) := by
  obtain ⟨_ | _, bytes, m⟩ := r
  · exact scanExhausted_ends (by decide) bytes.length m s
  · exact scanMatched_ends (by decide) (bytes.length - 3) m s

theorem showEnd_ends (s : State) (r : Bool × List Byte × Memory) : BodyEnds .show_ s (showEnd s r) := by
  obtain ⟨_ | _, bytes, m⟩ := r
  · exact scanExhausted_ends (by decide) bytes.length m s
  · exact .bind _ fun m1 => scanMatched_ends (by decide) (bytes.length - 3) m1 s

theorem command_ends {i : Instr} {c : Option ErrCode} {b : State → Except Fault State} {s t : State}
    (hc : c = firstError s i) (h : command c b s = .next t) (hb : BodyEnds i s (b s)) :
    (∃ e, firstError s i = some e ∧ t = endWith e s)
      ∨ firstError s i = none ∧ ∃ u e, t = endWith e u ∧ EndsFrom i s u e := by
  subst hc
  exact (command_next.1 h).imp_right fun ⟨he, ht⟩ => ⟨he, hb t ht⟩

/-- A command that answers a next state has raised the error of its checks, or has passed them and ended. -/
theorem exec_ends {i : Instr} {s t : State} (h : exec i s = .next t) :
    (∃ e, firstError s i = some e ∧ t = endWith e s)
      ∨ firstError s i = none ∧ ∃ u e, t = endWith e u ∧ EndsFrom i s u e := by
  cases i <;> simp only [exec] at h
  case nop => exact command_ends rfl h (.complete rfl)
  case xor => exact command_ends (check_xor s) h (.bind _ fun m => .complete rfl)
  case frame => exact command_ends (check_frame s) h (.complete rfl)
  case unframe => exact command_ends (check_unframe s) h (.bind _ fun r => unframeEnd_ends s r)
  case pack => exact command_ends (check_pack s) h (.bind _ fun m => .complete rfl)
  case unpack => exact command_ends (check_unpack s) h (.bind _ fun m => .complete rfl)
  case encode => exact command_ends (check_encode s) h (.bind _ fun m => .complete rfl)
  case decode => exact command_ends (check_decode s) h (.bind _ fun r => decodeEnd_ends s r)
  case move => exact command_ends (check_move s) h (.bind _ fun m => .complete rfl)
  case copy => exact command_ends (check_copy s) h (.bind _ fun m => .complete rfl)
  case hide =>
    simp only [execHide] at h
    exact command_ends (check_hide s) h (.bind _ fun m1 => .bind _ fun m2 => .bind _ fun m3 => .complete rfl)
  case show_ => exact command_ends (check_show s) h (.bind _ fun r => showEnd_ends s r)

/-- No check of a command reports ILLEGAL (60_exceptions.md R252). -/
theorem firstError_ne_illegal {s : State} {i : Instr} : firstError s i ≠ some .illegal := by
  unfold firstError
  repeat' split
  all_goals simp

/-- Settles O42: whether the command raises or completes (`exec_ends`), its last act is `endWith`, which writes BUSY, DONE,
ERR and the scan; what it wrote of STATUS before that is `EndsFrom`'s. -/
theorem statusFrame : Obligations.StatusFrame := by
  intro s t i h
  rcases exec_ends h with ⟨e, he, rfl⟩ | ⟨he, u, e, rfl, hu⟩
  · have h3 : e ≠ .incomplete := fun h => firstError_ne_incomplete (h ▸ he)
    have h4 : e ≠ .illegal := fun h => firstError_ne_illegal (h ▸ he)
    exact ⟨rfl, rfl, rfl, rfl, rfl, fun _ => ⟨rfl, h3⟩, fun _ => rfl, fun hn => (by simp [he] at hn), h4⟩
  · refine ⟨rfl, rfl, rfl, hu.lastop, hu.ovr, fun hi => ⟨(hu.plain hi).1, ?_⟩, hu.noScan, fun _ => hu.outcome, ?_⟩
    · simp [(hu.plain hi).2]
    · rcases hu.outcome with rfl | rfl <;> simp

/-! ### That a command reads nothing of STATUS -/

/-- `u` is `t` but for STATUS, and has the same ERR. -/
def SameButStatus (t u : State) : Prop := u = { t with status := u.status } ∧ u.status.err = t.status.err

/-- Two command bodies end alike but for STATUS, or stop at the same fault. -/
def Alike : Except Fault State → Except Fault State → Prop
  | .ok t, .ok u => SameButStatus t u
  | .error f, .error g => f = g
  | _, _ => False

/-- Bodies that begin with the same computation are alike if what comes after it is. -/
theorem Alike.bind {α : Type} (x : Except Fault α) {f g : α → Except Fault State} (h : ∀ a, Alike (f a) (g a)) :
    Alike (x >>= f) (x >>= g) := by
  cases x with
  | ok a => exact h a
  | error e => rfl

/-- Ending a state that differs in STATUS only, with the same outcome. -/
theorem Alike.endWith {e : ErrCode} {t u : State} (h : u = { t with status := u.status }) :
    Alike (.ok (endWith e t)) (.ok (endWith e u)) := by
  rw [h]
  exact ⟨rfl, rfl⟩

/-- Two commands answer next states alike but for STATUS, or stop at the same fault. -/
def AlikeOutcomes : Host.Outcome State Fault Refusal → Host.Outcome State Fault Refusal → Prop
  | .next t, .next u => SameButStatus t u
  | .fault f, .fault g => f = g
  | .refused r, .refused q => r = q
  | _, _ => False

/-- Commands with one check and bodies that are alike answer alike. -/
theorem command_alike {c : Option ErrCode} {b b' : State → Except Fault State} (s : State) (st : Status)
    (hb : Alike (b s) (b' { s with status := st })) :
    AlikeOutcomes (command c b s) (command c b' { s with status := st }) := by
  cases c with
  | some e => exact Alike.endWith (e := e) (t := s) rfl
  | none =>
    revert hb
    simp only [command]
    cases b s <;> cases b' { s with status := st } <;> exact id

theorem unframeEnd_alike (s : State) (st : Status) (r : Option Nat × Memory) :
    Alike (.ok (unframeEnd s r)) (.ok (unframeEnd { s with status := st } r)) := by
  obtain ⟨_ | j, m⟩ := r <;> exact .endWith rfl

theorem decodeEnd_alike (s : State) (st : Status) (r : Bool × List Byte × Memory) :
    Alike (.ok (decodeEnd s r)) (.ok (decodeEnd { s with status := st } r)) := by
  obtain ⟨_ | _, bytes, m⟩ := r <;> exact .endWith rfl

theorem showEnd_alike (s : State) (st : Status) (r : Bool × List Byte × Memory) :
    Alike (showEnd s r) (showEnd { s with status := st } r) := by
  obtain ⟨_ | _, bytes, m⟩ := r
  · exact .endWith rfl
  · exact .bind _ fun m1 => .endWith rfl

/-- A command's checks and loops do not look at STATUS: from another STATUS the same checks pass and the same loops run,
and what follows ends with the same outcome. -/
theorem exec_alike (i : Instr) (s : State) (st : Status) :
    AlikeOutcomes (exec i s) (exec i { s with status := st }) := by
  cases i <;> simp only [exec]
  case nop => exact Alike.endWith (e := .none) rfl
  case xor => exact command_alike s st (.bind _ fun m => .endWith rfl)
  case frame => exact command_alike s st (.endWith rfl)
  case unframe => exact command_alike s st (.bind _ fun r => unframeEnd_alike s st r)
  case pack => exact command_alike s st (.bind _ fun m => .endWith rfl)
  case unpack => exact command_alike s st (.bind _ fun m => .endWith rfl)
  case encode => exact command_alike s st (.bind _ fun m => .endWith rfl)
  case decode => exact command_alike s st (.bind _ fun r => decodeEnd_alike s st r)
  case move => exact command_alike s st (.bind _ fun m => .endWith rfl)
  case copy => exact command_alike s st (.bind _ fun m => .endWith rfl)
  case hide =>
    simp only [execHide]
    exact command_alike s st (.bind _ fun m1 => .bind _ fun m2 => .bind _ fun m3 => .endWith rfl)
  case show_ => exact command_alike s st (.bind _ fun r => showEnd_alike s st r)

/-- Settles O43: the two answers are alike (`exec_alike`), next state for next state and fault for fault. -/
theorem commandsIgnoreStatus : Obligations.CommandsIgnoreStatus := by
  intro s i st
  have ha := exec_alike i s st
  refine ⟨fun t ht => ?_, fun f hf => ?_⟩
  · rw [ht] at ha
    cases hu : exec i { s with status := st } with
    | next u => rw [hu] at ha; exact ⟨u, rfl, ha⟩
    | fault g => rw [hu] at ha; cases ha
    | refused r => rw [hu] at ha; cases ha
  · rw [hf] at ha
    cases hu : exec i { s with status := st } with
    | next u => rw [hu] at ha; cases ha
    | fault g => rw [hu] at ha; cases ha; rfl
    | refused r => rw [hu] at ha; cases ha

end Sys2Proof.Machine
end

section
/-! The elements a command needs (70_reset_and_hazards.md R286): it reads each of them if it completes, and stops at one of
them that is unwritten otherwise. -/

namespace Sys2Proof.Machine

/-! ### Bodies and checks -/

/-- A computation followed by one that cannot stop. -/
theorem bind_ok_eq_error {α β ε : Type} {x : Except ε α} {g : α → β} {e : ε} :
    (x >>= fun a => .ok (g a)) = .error e ↔ x = .error e := by
  simp [bind_eq_error]

/-- A command whose checks pass completes in its body's state. -/
theorem command_none_next {b : State → Except Fault State} {s t : State} :
    command none b s = .next t ↔ b s = .ok t := by
  simp [command_next]

/-- A command that ciphers and passes its checks has a key (60_exceptions.md R250). -/
theorem klen_pos {s : State} {i : Instr} (he : firstError s i = none) (hi : i ∈ [Instr.xor, .hide, .show_]) :
    0 < s.klen.toNat := by
  have hkey := (firstError_none he).2.1
  simp only [keyEmpty, List.contains_iff_mem.2 hi, Bool.true_and, decide_eq_false_iff_not] at hkey
  omega

/-- UNPACK, if it passes its checks, has whole groups of eight bits (42_bit_packer.md R150). -/
theorem blen_aligned {s : State} (he : firstError s .unpack = none) : s.blen.toNat % 8 = 0 := by
  have hal := (firstError_none he).2.2.1
  simpa [bitsMisaligned] using hal

/-! ### The loops of UNFRAME and the scan of SHOW -/

/-- UNFRAME's loop stops only at an unwritten byte it goes on to. -/
theorem unframeLoop_error_reaches {n : Nat} {m : Memory} {f : Fault} (hn : n ≤ 2 ^ 24)
    (h : unframeLoop n 0 m = .error f) :
    ∃ j, f = .unwrittenRead .wbuf j ∧ j < n ∧ m.UnframeReaches j ∧ m.byteAt .wbuf j = none := by
  obtain ⟨d, hl, hd, hstop⟩ := exists_prefix (m.byteAt .wbuf) n
  by_cases hc : d.length = n ∨ ∃ q, unframe d = .found q
  · obtain ⟨r, hr⟩ := unframeLoop_searches hn hl hd hc
    rw [h] at hr; cases hr
  · push Not at hc
    have hlt : d.length < n := lt_of_le_of_ne hl hc.1
    have hu := incomplete_of_ne hc.2
    have hr := unframeLoop_stops (by omega) n 0 m (Nat.zero_le _) (by omega) (fun k hk => absurd hk (Nat.not_lt_zero k))
      hd (hstop hlt) hu
    rw [h] at hr; cases hr
    exact ⟨_, rfl, hlt, unframeReaches_of_prefix hd hu, hstop hlt⟩

/-- UNFRAME's loop, if it runs through, read every byte it goes on to. -/
theorem unframeLoop_reads {n : Nat} {m : Memory} {r : Option Nat × Memory} (hn : n ≤ 2 ^ 24)
    (h : unframeLoop n 0 m = .ok r) {j : Nat} (hj : j < n) (hreach : m.UnframeReaches j) : m.byteAt .wbuf j ≠ none := by
  intro hj0
  obtain ⟨d, hl, hd, hstop⟩ := exists_prefix (m.byteAt .wbuf) n
  have hdj : d.length ≤ j := by
    by_contra hc
    have := hd j (by omega)
    rw [hj0, List.getElem?_eq_getElem (by omega)] at this; cases this
  have hr := unframeLoop_stops (by omega) n 0 m (Nat.zero_le _) (by omega) (fun k hk => absurd hk (Nat.not_lt_zero k))
    hd (hstop (by omega)) (incomplete_of_ne (hreach d hdj hd))
  rw [h] at hr; cases hr

/-- A whole scan of a grid whose written beginning holds the terminator ends with what stands before it. -/
theorem runScan_of_found {s : State} {px : List Word} {q : List Byte} (hsc : s.scan = none) (hn : s.gridSize ≤ 2 ^ 24)
    (hl : px.length ≤ s.gridSize) (hd : s.mem.HoldsPixels .src px) (hq : unframe (fromBits (lowBits px)) = .found q) :
    ∃ m, runScan s = .ok (true, q ++ terminator, m) := by
  obtain ⟨px', m, -, hfound, -, hr⟩ := runScan_searches hsc hn hl hd (.inr ⟨q, hq⟩)
  have hq' := hfound q hq
  exact ⟨m, by rw [hr, decodeGrid_eq, scannedBytes_found hq', hq']⟩

/-- A whole scan that finds the terminator found it in a written beginning of the grid. -/
theorem runScan_found {s : State} {bytes : List Byte} {m : Memory} (hsc : s.scan = none) (hn : s.gridSize ≤ 2 ^ 24)
    (h : runScan s = .ok (true, bytes, m)) :
    ∃ (px : List Word) (q : List Byte), px.length ≤ s.gridSize ∧ s.mem.HoldsPixels .src px
      ∧ unframe (fromBits (lowBits px)) = .found q ∧ bytes = q ++ terminator := by
  obtain ⟨d, hl, hd, hstop⟩ := exists_prefix (s.mem.pixelAt .src) s.gridSize
  by_cases hq : ∃ q, unframe (fromBits (lowBits d)) = .found q
  · obtain ⟨q, hq⟩ := hq
    obtain ⟨m', hr⟩ := runScan_of_found hsc hn hl hd hq
    rw [h] at hr; cases hr
    exact ⟨d, q, hl, hd, hq, rfl⟩
  · push Not at hq
    have hu := incomplete_of_ne hq
    rcases Nat.lt_or_eq_of_le hl with hlt | heq
    · have hr := runScan_stops hsc hlt hn hd (hstop hlt) hu
      rw [h] at hr; cases hr
    · have hall : d.take (pixelsRead d) = d := List.take_of_length_le (by rw [pixelsRead_incomplete hu])
      obtain ⟨m', hr, -, -⟩ := runScan_total hsc heq (by omega) (hall.symm ▸ hd)
      rw [h, decodeGrid_eq, hu] at hr; cases hr

/-! ### What HIDE and SHOW leave alone before they read it -/

/-- HIDE reads from SRC what was there before: enciphering, framing and packing write other buffers. -/
theorem hide_pixelAt_src {n k j : Nat} {m m1 m2 : Memory} (hn : n + 3 ≤ 2 ^ 21) (h1 : xorLoop n k m = .ok m1)
    (h2 : packLoop (n + 3) (writeTerminator n m1) = .ok m2) : m2.pixelAt .src j = m.pixelAt .src j := by
  rw [(packLoop_writes h2).pixelAt_before (.inr (by simp only [Space.base, Space.stride]; omega)),
    (writeTerminator_writes n m1).pixelAt_before (.inr (by simp only [Space.base, Space.stride]; omega)),
    (xorLoop_writes h1).pixelAt_before (.inr (by simp only [Space.base, Space.stride]; omega))]

/-- SHOW reads from KBUF what was there before: a scan writes OBUF only. -/
theorem runScan_byteAt_kbuf {s : State} {b : Bool} {bytes : List Byte} {m : Memory} (hs : s.ScanOk)
    (h : runScan s = .ok (b, bytes, m)) {j : Nat} (hj : j < 2 ^ 24) : m.byteAt .kbuf j = s.mem.byteAt .kbuf j :=
  (runScan_writes hs h).1.byteAt_before (.inl (by simp only [Space.base]; omega))

theorem scanOk_of_none {s : State} (h : s.scan = none) : s.ScanOk := fun sc hsc => by rw [h] at hsc; cases hsc

/-! ### Completion and faults -/

/-- A command that completes has read every element it needs. -/
theorem exec_next_written {i : Instr} {s t : State} (hv : s.cfg.Valid) (hsc : s.scan = none)
    (he : firstError s i = none) (h : exec i s = .next t) {sp : Space} {j : Nat} (hneed : Needs i s sp j) :
    s.mem.Written sp j := by
  obtain ⟨hp, hk1, hk, hpix, hwm, hbm⟩ := valid_bounds hv
  obtain ⟨hl, -, -, hcap⟩ := firstError_none he
  cases i
  case nop => cases hneed
  case frame => cases hneed
  case xor =>
    simp only [exec, execXor, check_xor, he, command_none_next, bind_eq_ok] at h
    obtain ⟨m, hm, -⟩ := h
    simp only [lengthViolated, decide_eq_false_iff_not] at hl
    rcases hneed with ⟨rfl, hj⟩ | ⟨rfl, hj⟩
    · exact (xorLoop_reads (by omega) hm hj).1
    · exact (xorLoop_reads (by omega) hm (by omega)).2 (by omega)
  case move =>
    simp only [exec, execMove, check_move, he, command_none_next, bind_eq_ok] at h
    obtain ⟨m, hm, -⟩ := h
    simp only [lengthViolated, decide_eq_false_iff_not] at hl
    obtain ⟨rfl, hj⟩ := hneed
    exact moveLoop_reads (by omega) hm hj
  case unframe =>
    simp only [exec, execUnframe, check_unframe, he, command_none_next, bind_eq_ok] at h
    obtain ⟨r, hr, -⟩ := h
    simp only [lengthViolated, decide_eq_false_iff_not] at hl
    obtain ⟨rfl, hj, hreach⟩ := hneed
    exact unframeLoop_reads (by omega) hr hj hreach
  case pack =>
    simp only [exec, execPack, check_pack, he, command_none_next, bind_eq_ok] at h
    obtain ⟨m, hm, -⟩ := h
    simp only [lengthViolated, decide_eq_false_iff_not] at hl
    obtain ⟨rfl, hj⟩ := hneed
    exact packLoop_reads (by omega) hm hj
  case unpack =>
    simp only [exec, execUnpack, check_unpack, he, command_none_next, bind_eq_ok] at h
    obtain ⟨m, hm, -⟩ := h
    simp only [lengthViolated, decide_eq_false_iff_not] at hl
    have hal := blen_aligned he
    obtain ⟨rfl, hj⟩ := hneed
    exact unpackLoop_reads (by omega) hm (by omega)
  case encode =>
    simp only [exec, execEncode, check_encode, he, command_none_next, bind_eq_ok] at h
    obtain ⟨m, hm, -⟩ := h
    simp only [lengthViolated, overCapacity, decide_eq_false_iff_not] at hl hcap
    rcases hneed with ⟨rfl, hj⟩ | ⟨rfl, hj⟩
    · exact (embedLoop_reads (by omega) hm hj).1
    · exact (embedLoop_reads (by omega) hm (by omega)).2 hj
  case decode =>
    simp only [exec, execDecode, check_decode, he, command_none_next, bind_eq_ok] at h
    obtain ⟨r, hr, -⟩ := h
    simp only [lengthViolated, decide_eq_false_iff_not] at hl
    obtain ⟨rfl, hj, hreach⟩ := hneed
    exact runScan_reads hsc (by omega) hr hj hreach
  case copy =>
    simp only [exec, execCopy, check_copy, he, command_none_next, bind_eq_ok] at h
    obtain ⟨m, hm, -⟩ := h
    obtain ⟨rfl, hj⟩ := hneed
    exact copyLoop_reads hm hj
  case hide =>
    simp only [exec, execHide, check_hide, he, command_none_next, bind_eq_ok] at h
    obtain ⟨m1, hm1, m2, hm2, m3, hm3, -⟩ := h
    simp only [lengthViolated, decide_eq_false_iff_not] at hl
    rcases hneed with ⟨rfl, hj⟩ | ⟨rfl, hj⟩ | ⟨rfl, hj⟩
    · exact (xorLoop_reads (by omega) hm1 hj).1
    · exact (xorLoop_reads (by omega) hm1 (by omega)).2 (by omega)
    · have := (embedLoop_reads (by omega) hm3 hj).1
      rwa [hide_pixelAt_src (by omega) hm1 hm2] at this
  case show_ =>
    simp only [exec, execShow, check_show, he, command_none_next, bind_eq_ok] at h
    obtain ⟨r, hr, ht⟩ := h
    simp only [lengthViolated, decide_eq_false_iff_not] at hl
    rcases hneed with ⟨rfl, hj, hreach⟩ | ⟨rfl, hj, px, q, hpx, hd, hq, hjq⟩
    · exact runScan_reads hsc (by omega) hr hj hreach
    · obtain ⟨m, hr'⟩ := runScan_of_found hsc (by omega) hpx hd hq
      rw [hr] at hr'; cases hr'
      simp only [showEnd, bind_eq_ok] at ht
      obtain ⟨m1, hm1, -⟩ := ht
      have := decipherLoop_reads (by omega) hm1 (i := j) (by simp; omega) hj
      rwa [runScan_byteAt_kbuf (scanOk_of_none hsc) hr (by omega)] at this

/-- `f` names an element the command needs and that is unwritten. -/
def NamesNeed (i : Instr) (s : State) (f : Fault) : Prop :=
  ∃ sp j, f = .unwrittenRead sp j ∧ Needs i s sp j ∧ ¬ s.mem.Written sp j

/-- A command stops only at an element it needs. -/
theorem exec_fault_needs {i : Instr} {s : State} {f : Fault} (hv : s.cfg.Valid) (hsc : s.scan = none)
    (h : exec i s = .fault f) : NamesNeed i s f := by
  obtain ⟨hp, hk1, hk, hpix, hwm, hbm⟩ := valid_bounds hv
  have he := (exec_fault hv (scanOk_of_none hsc) h).1
  obtain ⟨hl, -⟩ := firstError_none he
  cases i
  case nop => cases h
  case frame =>
    simp only [exec, execFrame, command_fault] at h
    cases h.2
  case xor =>
    simp only [exec, execXor, command_fault, bind_ok_eq_error] at h
    simp only [lengthViolated, decide_eq_false_iff_not] at hl
    have hk0 := klen_pos he (by decide)
    rcases xorLoop_error (by omega) (by omega) (by omega) h.2 with ⟨j, hj, hn, rfl⟩ | ⟨j, hj, hn, rfl⟩
    · exact ⟨_, j, rfl, .inl ⟨rfl, hj⟩, fun hw => hw hn⟩
    · exact ⟨_, j, rfl, .inr ⟨rfl, hj⟩, fun hw => hw hn⟩
  case move =>
    simp only [exec, execMove, command_fault, bind_ok_eq_error] at h
    simp only [lengthViolated, decide_eq_false_iff_not] at hl
    obtain ⟨j, hj, hn, rfl⟩ := moveLoop_error (by omega) h.2
    exact ⟨_, j, rfl, ⟨rfl, hj⟩, fun hw => hw hn⟩
  case unframe =>
    simp only [exec, execUnframe, command_fault, bind_ok_eq_error] at h
    simp only [lengthViolated, decide_eq_false_iff_not] at hl
    obtain ⟨j, rfl, hj, hreach, hn⟩ := unframeLoop_error_reaches (by omega) h.2
    exact ⟨_, j, rfl, ⟨rfl, hj, hreach⟩, fun hw => hw hn⟩
  case pack =>
    simp only [exec, execPack, command_fault, bind_ok_eq_error] at h
    simp only [lengthViolated, decide_eq_false_iff_not] at hl
    obtain ⟨j, hj, hn, rfl⟩ := packLoop_error (by omega) h.2
    exact ⟨_, j, rfl, ⟨rfl, hj⟩, fun hw => hw hn⟩
  case unpack =>
    simp only [exec, execUnpack, command_fault, bind_ok_eq_error] at h
    simp only [lengthViolated, decide_eq_false_iff_not] at hl
    obtain ⟨j, hj, hn, rfl⟩ := unpackLoop_error (by omega) h.2
    exact ⟨_, j, rfl, ⟨rfl, by omega⟩, fun hw => hw hn⟩
  case encode =>
    simp only [exec, execEncode, command_fault, bind_ok_eq_error] at h
    simp only [lengthViolated, decide_eq_false_iff_not] at hl
    rcases embedLoop_error (by omega) h.2 with ⟨j, hj, hn, rfl⟩ | ⟨j, -, hj, hn, rfl⟩
    · exact ⟨_, j, rfl, .inl ⟨rfl, hj⟩, fun hw => hw hn⟩
    · exact ⟨_, j, rfl, .inr ⟨rfl, hj⟩, fun hw => hw hn⟩
  case decode =>
    simp only [exec, execDecode, command_fault, bind_ok_eq_error] at h
    simp only [lengthViolated, decide_eq_false_iff_not] at hl
    obtain ⟨j, rfl, hj, hreach, hn⟩ := runScan_error_reaches hsc (by omega) h.2
    exact ⟨_, j, rfl, ⟨rfl, hj, hreach⟩, fun hw => hw hn⟩
  case copy =>
    simp only [exec, execCopy, command_fault, bind_ok_eq_error] at h
    obtain ⟨j, hj, hn, rfl⟩ := copyLoop_error h.2
    exact ⟨_, j, rfl, ⟨rfl, hj⟩, fun hw => hw hn⟩
  case hide =>
    simp only [exec, execHide, command_fault, bind_eq_error (x := xorLoop _ _ _), bind_eq_error (x := packLoop _ _),
      bind_ok_eq_error] at h
    simp only [lengthViolated, decide_eq_false_iff_not] at hl
    have hk0 := klen_pos he (by decide)
    rcases h.2 with h1 | ⟨m1, hm1, h2 | ⟨m2, hm2, h3⟩⟩
    · rcases xorLoop_error (by omega) (by omega) (by omega) h1 with ⟨j, hj, hn, rfl⟩ | ⟨j, hj, hn, rfl⟩
      · exact ⟨_, j, rfl, .inl ⟨rfl, hj⟩, fun hw => hw hn⟩
      · exact ⟨_, j, rfl, .inr (.inl ⟨rfl, hj⟩), fun hw => hw hn⟩
    · obtain ⟨j, hj, hn, rfl⟩ := packLoop_error (by omega) h2
      exact absurd hn (writeTerminator_written (xorLoop_written hm1) j hj)
    · rcases embedLoop_error (by omega) h3 with ⟨j, hj, hn, rfl⟩ | ⟨j, -, hj, hn, rfl⟩
      · rw [hide_pixelAt_src (by omega) hm1 hm2] at hn
        exact ⟨_, j, rfl, .inr (.inr ⟨rfl, hj⟩), fun hw => hw hn⟩
      · exact absurd hn (packLoop_written hm2 j hj)
  case show_ =>
    simp only [exec, execShow, command_fault, bind_eq_error] at h
    simp only [lengthViolated, decide_eq_false_iff_not] at hl
    have hk0 := klen_pos he (by decide)
    rcases h.2 with h1 | ⟨⟨b, bytes, m⟩, hr, h2⟩
    · obtain ⟨j, rfl, hj, hreach, hn⟩ := runScan_error_reaches hsc (by omega) h1
      exact ⟨_, j, rfl, .inl ⟨rfl, hj, hreach⟩, fun hw => hw hn⟩
    cases b with
    | false => cases h2
    | true =>
      simp only [showEnd, bind_ok_eq_error] at h2
      obtain ⟨px, q, hpx, hd, hq, rfl⟩ := runScan_found hsc (by omega) hr
      have hm := runScan_mirrored (scanOk_of_none hsc) hr
      obtain ⟨j, hj, hn, rfl⟩ := decipherLoop_error (by omega) (by omega)
        (fun k hk => by rw [hm k (by omega), List.getElem?_eq_getElem (by omega)]; simp) h2
      rw [runScan_byteAt_kbuf (scanOk_of_none hsc) hr (by omega)] at hn
      obtain ⟨hjk, hjq⟩ : j < s.klen.toNat ∧ j < q.length := by simpa using hj
      exact ⟨_, j, rfl, .inr ⟨rfl, hjk, px, q, hpx, hd, hq, hjq⟩, fun hw => hw hn⟩

/-! ### The first unwritten element (log entry 9) -/

/-- MOVE's loop stops at the first unwritten byte of the payload. -/
theorem moveLoop_stops {m : Memory} {p : List Byte} {n : Nat} (hp : m.HoldsBytes .pbuf p) (hlt : p.length < n)
    (hn : n ≤ 2 ^ 24) (h0 : m.byteAt .pbuf p.length = none) :
    moveLoop n m = .error (.unwrittenRead .pbuf p.length) := by
  obtain ⟨m', hm, -, hsame⟩ := moveLoop_total hp (by omega)
  have hr : readByte .pbuf p.length m' = .error (.unwrittenRead .pbuf p.length) :=
    readByte_error.2 ⟨by rw [hsame.byteAt_of_elems (.inl (by simp only [Space.base]; omega)), h0], rfl⟩
  exact loop_fault hlt hm (by rw [hr, error_bind])

/-- XOR's loop stops at the first unwritten byte of the payload, the key's bytes before it being written. -/
theorem xorLoop_stops {m : Memory} {p k : List Byte} {n : Nat} (hk : 0 < k.length) (hp : m.HoldsBytes .pbuf p)
    (hkey : m.HoldsBytes .kbuf (k.take p.length)) (hlt : p.length < n) (hn : n ≤ 2 ^ 24) (hkn : k.length ≤ 2 ^ 24)
    (h0 : m.byteAt .pbuf p.length = none) :
    xorLoop n k.length m = .error (.unwrittenRead .pbuf p.length) := by
  obtain ⟨m', hm, -, hsame⟩ := xorLoop_total hk hp hkey (by omega) hkn
  have hr : readByte .pbuf p.length m' = .error (.unwrittenRead .pbuf p.length) :=
    readByte_error.2 ⟨by rw [hsame.byteAt_of_elems (.inl (by simp only [Space.base]; omega)), h0], rfl⟩
  exact loop_fault hlt hm (by rw [hr, error_bind])

/-- PACK's loop stops at the first unwritten byte of WBUF. -/
theorem packLoop_stops {m : Memory} {d : List Byte} {n : Nat} (hd : m.HoldsBytes .wbuf d) (hlt : d.length < n)
    (hn : n ≤ 2 ^ 24) (h0 : m.byteAt .wbuf d.length = none) :
    packLoop n m = .error (.unwrittenRead .wbuf d.length) := by
  obtain ⟨m', hm, -, hsame⟩ := packLoop_total hd (by omega)
  have hr : readByte .wbuf d.length m' = .error (.unwrittenRead .wbuf d.length) :=
    readByte_error.2 ⟨by rw [hsame.byteAt_of_elems (.inl (by simp only [Space.base]; omega)), h0], rfl⟩
  exact loop_fault hlt hm (by rw [hr, error_bind])

/-- COPY's loop stops at the first unwritten pixel of DST. -/
theorem copyLoop_stops {m : Memory} {px : List Word} {N : Nat} (hp : m.HoldsPixels .dst px) (hlt : px.length < N)
    (h0 : m.pixelAt .dst px.length = none) : copyLoop N m = .error (.unwrittenRead .dst px.length) := by
  obtain ⟨m', hm, -, hsame⟩ := copyLoop_total hp
  have hr : readPixel .dst px.length m' = .error (.unwrittenRead .dst px.length) := by
    refine readPixel_error.2 ⟨?_, rfl⟩
    rw [hsame.pixelAt fun l hl he => by have := he.2; simp only [Space.base, Space.stride] at this; omega, h0]
  exact loop_fault hlt hm (by rw [hr, error_bind])

/-- The loop of ENCODE stops at the first unwritten pixel of SRC, its bits being written. -/
theorem embedLoop_stops {m : Memory} {px : List Word} {b : List Bool} {N : Nat} (hp : m.HoldsPixels .src px)
    (hb : m.HoldsBits b) (hlt : px.length < N) (hN : N ≤ 2 ^ 24) (h0 : m.pixelAt .src px.length = none) :
    embedLoop N b.length m = .error (.unwrittenRead .src px.length) := by
  obtain ⟨m', hm, -, hsame⟩ := embedLoop_total hp hb (by omega)
  have hr : readPixel .src px.length m' = .error (.unwrittenRead .src px.length) := by
    refine readPixel_error.2 ⟨?_, rfl⟩
    rw [hsame.pixelAt fun l hl he => by have := he.1; simp only [Space.base, Space.stride] at this; omega, h0]
  exact loop_fault hlt hm (by rw [hr, error_bind])

theorem move_stops {s : State} {p : List Byte} (hv : s.cfg.Valid) (hp : s.mem.HoldsBytes .pbuf p)
    (hlt : p.length < s.plen.toNat) (h0 : s.mem.byteAt .pbuf p.length = none) (hl : s.plen.toNat ≤ s.cfg.pMax) :
    exec .move s = .fault (.unwrittenRead .pbuf p.length) := by
  obtain ⟨hpm, -⟩ := valid_bounds hv
  simp only [exec, execMove, command_fault, bind_ok_eq_error]
  exact ⟨if_neg (by omega), moveLoop_stops hp hlt (by omega) h0⟩

theorem xor_stops {s : State} {p k : List Byte} (hv : s.cfg.Valid) (hp : s.mem.HoldsBytes .pbuf p)
    (hlt : p.length < s.plen.toNat) (h0 : s.mem.byteAt .pbuf p.length = none) (hl : s.plen.toNat ≤ s.cfg.pMax)
    (hk : 0 < k.length) (hkl : s.klen.toNat = k.length) (hkm : k.length ≤ s.cfg.kMax)
    (hkey : s.mem.HoldsBytes .kbuf (k.take p.length)) : exec .xor s = .fault (.unwrittenRead .pbuf p.length) := by
  obtain ⟨hpm, -, hk24, -⟩ := valid_bounds hv
  simp only [exec, execXor, command_fault, bind_ok_eq_error, hkl]
  refine ⟨?_, xorLoop_stops hk hp hkey hlt (by omega) (by omega) h0⟩
  rw [xorCheck, if_neg (by omega), if_neg (by omega)]

theorem pack_stops {s : State} {d : List Byte} (hv : s.cfg.Valid) (hd : s.mem.HoldsBytes .wbuf d)
    (hlt : d.length < s.wlen.toNat) (h0 : s.mem.byteAt .wbuf d.length = none) (hl : s.wlen.toNat ≤ s.cfg.wMax) :
    exec .pack s = .fault (.unwrittenRead .wbuf d.length) := by
  obtain ⟨hpm, -, -, -, hwm, -⟩ := valid_bounds hv
  simp only [exec, execPack, command_fault, bind_ok_eq_error]
  exact ⟨if_neg (by omega), packLoop_stops hd hlt (by omega) h0⟩

theorem copy_stops {s : State} {px : List Word} (hp : s.mem.HoldsPixels .dst px)
    (hlt : px.length < s.gridSize) (h0 : s.mem.pixelAt .dst px.length = none) (hl : s.gridSize ≤ s.cfg.pixMax) :
    exec .copy s = .fault (.unwrittenRead .dst px.length) := by
  simp only [exec, execCopy, command_fault, bind_ok_eq_error]
  exact ⟨if_neg (by omega), copyLoop_stops hp hlt h0⟩

theorem encode_stops {s : State} {px : List Word} {b : List Bool} (hv : s.cfg.Valid) (hp : s.mem.HoldsPixels .src px)
    (hb : s.mem.HoldsBits b) (hlt : px.length < s.gridSize) (h0 : s.mem.pixelAt .src px.length = none)
    (hl : s.gridSize ≤ s.cfg.pixMax) (hbl : s.blen.toNat = b.length) (hbm : b.length ≤ s.cfg.bMax)
    (hfit : b.length ≤ s.gridSize) : exec .encode s = .fault (.unwrittenRead .src px.length) := by
  obtain ⟨-, -, -, hpix, -⟩ := valid_bounds hv
  simp only [exec, execEncode, command_fault, bind_ok_eq_error, hbl]
  refine ⟨?_, embedLoop_stops hp hb hlt (by omega) h0⟩
  rw [encodeCheck, if_neg (by omega), if_neg (by omega)]

/-- A command answers a next state or a fault. -/
theorem exec_next_or_fault (i : Instr) (s : State) : (∃ t, exec i s = .next t) ∨ ∃ f, exec i s = .fault f := by
  cases h : exec i s with
  | next t => exact .inl ⟨t, rfl⟩
  | fault f => exact .inr ⟨f, rfl⟩
  | refused r => exact absurd h (exec_not_refused i s r)

/-- Settles O39: a command whose checks pass completes or stops (`exec_next_or_fault`); had it completed, every element it
needs would be written (`exec_next_written`), and it stops only at one that is not (`exec_fault_needs`). The other clauses
are the loops' at the first unwritten element. -/
theorem unwrittenOperandStops : Obligations.UnwrittenOperandStops := by
  refine fun s hv => ⟨fun i hsc he => ⟨fun hall => ?_, fun sp j hneed hn => ?_⟩, fun p hp hlt h0 hl => ⟨?_, ?_⟩,
    fun d hd hlt h0 hl => pack_stops hv hd hlt h0 hl, fun px hp hlt h0 hl => copy_stops hp hlt h0 hl,
    fun px b hp hb hlt h0 hl hbl hbm hfit => encode_stops hv hp hb hlt h0 hl hbl hbm hfit⟩
  · refine (exec_next_or_fault i s).resolve_right ?_
    rintro ⟨f, hf⟩
    obtain ⟨sp, j, -, hneed, hn⟩ := exec_fault_needs hv hsc hf
    exact hn (hall sp j hneed)
  · rcases exec_next_or_fault i s with ⟨t, ht⟩ | ⟨f, hf⟩
    · exact absurd (exec_next_written hv hsc he ht hneed) hn
    · obtain ⟨sp', j', rfl, hneed', hn'⟩ := exec_fault_needs hv hsc hf
      exact ⟨sp', j', hf, hneed', hn'⟩
  · exact move_stops hv hp hlt h0 hl
  · exact fun k hk hkl hkm hkey => xor_stops hv hp hlt h0 hl hk hkl hkm hkey

end Sys2Proof.Machine
end

section
/-! The host address map (20_memory.md R52, R53): which window an offset lies in, and the host address of an offset. -/

namespace Sys2Proof.Machine

theorem covers_iff {sp : Space} {off : Nat} : sp.covers off = true ↔ sp.base ≤ off ∧ off < sp.base + sp.window := by
  simp [Space.covers]

/-- Of two windows, one ends before the other begins. -/
theorem windows_disjoint (sp sp' : Space) :
    sp = sp' ∨ sp.base + sp.window ≤ sp'.base ∨ sp'.base + sp'.window ≤ sp.base := by
  cases sp <;> cases sp' <;> decide

/-- No offset is in two windows. -/
theorem covers_unique {sp sp' : Space} {off : Nat} (h : sp.covers off = true) (h' : sp'.covers off = true) : sp = sp' := by
  rw [covers_iff] at h h'
  exact (windows_disjoint sp sp').resolve_right (by omega)

/-- The search of the map finds the one window an offset lies in. -/
theorem find_covers_iff {sp : Space} {off : Nat} :
    Space.all.find? (fun sp => sp.covers off) = some sp ↔ sp.covers off = true := by
  refine ⟨fun h => by simpa using List.find?_some h, fun h => ?_⟩
  have hall : sp ∈ Space.all := by cases sp <;> decide
  cases hf : Space.all.find? (fun sp => sp.covers off) with
  | none => exact absurd h (List.find?_eq_none.1 hf sp hall)
  | some sp' =>
    have h' : sp'.covers off = true := by simpa using List.find?_some hf
    rw [covers_unique h' h]

/-- The register window ends before the first buffer's begins. -/
theorem base_above_registers (sp : Space) : 0x1000 ≤ sp.base := by cases sp <;> decide

theorem target_register_iff {off j : Nat} : target off = .register j ↔ off = j ∧ j < 0x1000 := by
  unfold target
  split
  · rw [Target.register.injEq]; omega
  · have : ¬ (off = j ∧ j < 0x1000) := by omega
    split <;> simp [this]

theorem target_buffer_iff {sp : Space} {off j : Nat} :
    target off = .buffer sp j ↔ off = sp.base + j ∧ j < sp.window := by
  have hb := base_above_registers sp
  unfold target
  split
  · have : ¬ (off = sp.base + j ∧ j < sp.window) := by omega
    simp [this]
  · constructor
    · intro h
      split at h
      · rename_i hf
        cases h
        have := covers_iff.1 (find_covers_iff.1 hf)
        omega
      · cases h
    · rintro ⟨rfl, hj⟩
      have hc := find_covers_iff.2 (covers_iff.2 ⟨Nat.le_add_right sp.base j, Nat.add_lt_add_left hj _⟩)
      simp only [hc, Nat.add_sub_cancel_left]

/-- The host address of an offset that does not wrap names what the offset names. -/
theorem hostTarget_add {c : Config} {off : Nat} (h : c.platformBase.toNat + off < 2 ^ 32) :
    hostTarget c (c.platformBase + BitVec.ofNat 32 off) = target off := by
  have ha : (c.platformBase + BitVec.ofNat 32 off).toNat = c.platformBase.toNat + off := by
    rw [BitVec.toNat_add, BitVec.toNat_ofNat]
    omega
  rw [hostTarget, ha, if_pos (Nat.le_add_right _ _), Nat.add_sub_cancel_left]

/-- Settles O15: the register window (`target_register_iff`), each buffer's window (`target_buffer_iff`) with the base and
the size of its row, and the host address of an offset (`hostTarget_add`). -/
theorem addressMapWindows : Obligations.AddressMapWindows := by
  refine ⟨fun off j => target_register_iff, ?_, fun c off => hostTarget_add⟩
  simp only [List.forall_mem_cons, List.not_mem_nil, false_imp_iff, implies_true, and_true]
  refine ⟨?_, ?_, ?_, ?_, ?_, ?_, ?_⟩ <;> exact fun off j => target_buffer_iff

end Sys2Proof.Machine
end

section
/-! What a host access answers: while busy (20_memory.md R60), while idle refused (R59) or allowed, and what it leaves
alone (R64). -/

namespace Sys2Proof.Machine

variable {s t : State} {w : Width} {addr v : Word}

/-! ### While busy -/

theorem hostAccess_busy (hb : s.seq ≠ .idle) (a : Access) : hostAccess a s = accessBusy a s := by
  rw [hostAccess, if_pos ((isBusy_iff s).2 hb)]

/-- Settles O13: a busy engine's accesses are `accessBusy`'s (`hostAccess_busy`), whose one test is the STATUS read or the
CMD write. -/
theorem accessWhileBusyFaults : Obligations.AccessWhileBusyFaults := by
  intro s word w addr hq
  have hb : s.seq ≠ .idle := by rw [hq]; exact Sequencer.noConfusion
  simp only [hostAccess_busy hb, accessBusy]
  exact ⟨fun h => if_pos h, fun h => if_neg h, fun v => ⟨fun h => ⟨_, if_pos h⟩, fun h => if_neg h⟩⟩

/-! ### While idle -/

theorem hostAccess_idle (hq : s.seq = .idle) (a : Access) : hostAccess a s = accessIdle a s := by
  rw [hostAccess, (isBusy_false_iff s).2 hq]
  rfl

theorem hostAccess_read_refused (hq : s.seq = .idle) (hr : Refused s.cfg w (hostTarget s.cfg addr)) :
    hostAccess (.read w addr) s = .fault (.hostFault .badAccess addr w) := by
  rw [hostAccess_idle hq, accessIdle, if_neg (fun ha => (accessAllowed_iff _ _ _).1 ha hr)]

theorem hostAccess_write_refused (hq : s.seq = .idle) (hr : Refused s.cfg w (hostTarget s.cfg addr)) :
    hostAccess (.write w addr v) s = .fault (.hostFault .badAccess addr w) := by
  rw [hostAccess_idle hq, accessIdle, if_neg (fun ha => (accessAllowed_iff _ _ _).1 ha hr)]

theorem hostAccess_write (hq : s.seq = .idle) (ha : ¬ Refused s.cfg w (hostTarget s.cfg addr)) :
    hostAccess (.write w addr v) s = .next { busWrite w (hostTarget s.cfg addr) v s with reply := .written } := by
  rw [hostAccess_idle hq, accessIdle, if_pos ((accessAllowed_iff _ _ _).2 ha)]

theorem hostAccess_read_ok (hq : s.seq = .idle) (ha : ¬ Refused s.cfg w (hostTarget s.cfg addr)) {r : Reply}
    (hr : busRead w (hostTarget s.cfg addr) s = .ok r) : hostAccess (.read w addr) s = .next { s with reply := r } := by
  rw [hostAccess_idle hq, accessIdle, if_pos ((accessAllowed_iff _ _ _).2 ha), hr]

theorem hostAccess_read_error (hq : s.seq = .idle) (ha : ¬ Refused s.cfg w (hostTarget s.cfg addr)) {f : Fault}
    (hr : busRead w (hostTarget s.cfg addr) s = .error f) : hostAccess (.read w addr) s = .fault f := by
  rw [hostAccess_idle hq, accessIdle, if_pos ((accessAllowed_iff _ _ _).2 ha), hr]

/-- Settles O14: refused accesses are BadAccess (`hostAccess_read_refused`, `hostAccess_write_refused`), other writes are
taken (`hostAccess_write`), and another read of a buffer answers where all it covers is written (`busRead_written`); one
that covers an unwritten element cannot answer (`busRead_ok`) and stops at such an element (`busRead_error`). -/
theorem refusedAccessIsBadAccess : Obligations.RefusedAccessIsBadAccess := by
  refine fun s w addr hq => ⟨fun hr => ⟨hostAccess_read_refused hq hr, fun v => hostAccess_write_refused hq hr⟩,
    fun ha => ⟨fun v => ⟨_, hostAccess_write hq ha⟩, fun hall => ?_, fun sp j hc hn => ?_⟩⟩
  · have hr : ∃ r, busRead w (hostTarget s.cfg addr) s = .ok r := by
      cases ht : hostTarget s.cfg addr with
      | unmapped => exact ⟨_, rfl⟩
      | register off => exact ⟨_, rfl⟩
      | buffer sp off => exact busRead_written fun j => ht ▸ hall sp j
    obtain ⟨r, hr⟩ := hr
    exact ⟨_, hostAccess_read_ok hq ha hr⟩
  · cases ht : hostTarget s.cfg addr with
    | unmapped => rw [ht] at hc; exact hc.elim
    | register off => rw [ht] at hc; exact hc.elim
    | buffer sp' off =>
      rw [ht] at hc
      obtain rfl : sp = sp' := hc.1
      cases hr : busRead w (.buffer sp off) s with
      | ok r => exact absurd (busRead_ok hr hc) hn
      | error f =>
        obtain ⟨j', rfl, hc', hn'⟩ := busRead_error hr
        exact ⟨j', hostAccess_read_error hq ha (ht ▸ hr), hc', hn'⟩

/-! ### What an access leaves alone -/

/-- A read that answers changes only the reply. -/
theorem hostAccess_read_next (h : hostAccess (.read w addr) s = .next t) : t = { s with reply := t.reply } := by
  by_cases hq : s.seq = .idle
  · rw [hostAccess_idle hq, accessIdle] at h
    split at h
    · split at h <;> cases h
      rfl
    · cases h
  · rw [hostAccess_busy hq, accessBusy] at h
    split at h <;> cases h
    rfl

/-- What the host got back last does not matter to a read. -/
theorem hostAccess_read_reply (w : Width) (addr : Word) (s : State) (r : Reply) :
    hostAccess (.read w addr) { s with reply := r } = hostAccess (.read w addr) s := rfl

/-- A register write but to CMD starts nothing. -/
theorem writeRegister_starts_nothing {off : Nat} (h : off ≠ 0x00) (v : Word) (s : State) :
    (writeRegister off v s).seq = s.seq ∧ (writeRegister off v s).status = s.status
      ∧ (writeRegister off v s).scan = s.scan := by
  unfold writeRegister
  split
  · exact absurd rfl h
  all_goals exact ⟨rfl, rfl, rfl⟩

/-- A host write but to CMD starts nothing. -/
theorem busWrite_starts_nothing {g : Target} (h : g ≠ .register 0x00) (w : Width) (v : Word) (s : State) :
    (busWrite w g v s).seq = s.seq ∧ (busWrite w g v s).status = s.status ∧ (busWrite w g v s).scan = s.scan := by
  cases g with
  | unmapped => exact ⟨rfl, rfl, rfl⟩
  | register off => exact writeRegister_starts_nothing (fun ho => h (ho ▸ rfl)) v s
  | buffer sp off => cases w <;> exact ⟨rfl, rfl, rfl⟩

/-- Settles O19: a read that answers changes only the reply (`hostAccess_read_next`), which a read does not look at
(`hostAccess_read_reply`); a write that is not to CMD is a fault while busy and starts nothing while idle
(`busWrite_starts_nothing`). -/
theorem readsHaveNoSideEffect : Obligations.ReadsHaveNoSideEffect := by
  refine ⟨fun s t w addr h => ?_, fun s t w addr v hne h => ?_⟩
  · have ht := hostAccess_read_next h
    refine ⟨ht, ?_⟩
    rw [ht, hostAccess_read_reply, h, ← ht]
  · by_cases hq : s.seq = .idle
    · rw [hostAccess_idle hq, accessIdle] at h
      split at h <;> cases h
      exact busWrite_starts_nothing hne w v s
    · rw [hostAccess_busy hq, accessBusy, if_neg fun hc => hne hc.2] at h
      cases h

end Sys2Proof.Machine
end

section
/-! The elements of the buffers under host accesses of an idle engine (20_memory.md R54 to R56, R61, R62; 10_state.md R32,
R33; 70_reset_and_hazards.md R293). -/

namespace Sys2Proof.Machine

variable {s : State} {addr v : Word} {sp : Space} {off : Nat}

/-! ### Accesses in range -/

theorem not_refused_w8 {c : Config} (hlt : off < sp.used c) : ¬ Refused c .w8 (.buffer sp off) := by
  simp [Refused, hlt]

theorem not_refused_w32 {c : Config} (hb : sp ≠ .bbuf) (h4 : off % 4 = 0) (hle : off + 4 ≤ sp.used c) :
    ¬ Refused c .w32 (.buffer sp off) := by
  simp [Refused, hb, h4, hle]

theorem hostAccess_write8 (hq : s.seq = .idle) (ht : hostTarget s.cfg addr = .buffer sp off) (hlt : off < sp.used s.cfg) :
    hostAccess (.write .w8 addr v) s
      = .next { s with mem := busWrite8 sp off (lane v 0) s.mem, reply := .written } := by
  rw [hostAccess_write hq (ht ▸ not_refused_w8 hlt), ht]
  rfl

theorem hostAccess_write32 (hq : s.seq = .idle) (ht : hostTarget s.cfg addr = .buffer sp off) (hb : sp ≠ .bbuf)
    (h4 : off % 4 = 0) (hle : off + 4 ≤ sp.used s.cfg) :
    hostAccess (.write .w32 addr v) s = .next { s with mem := busWrite32 sp off v s.mem, reply := .written } := by
  rw [hostAccess_write hq (ht ▸ not_refused_w32 hb h4 hle), ht]
  rfl

theorem busRead_w8 (sp : Space) (off : Nat) (s : State) :
    busRead .w8 (.buffer sp off) s = (busRead8 sp off s.mem >>= fun b => .ok (.data8 b)) := rfl

theorem busRead_w32 (sp : Space) (off : Nat) (s : State) :
    busRead .w32 (.buffer sp off) s = (busRead32 sp off s.mem >>= fun d => .ok (.data32 d)) := rfl

theorem hostAccess_read8_ok (hq : s.seq = .idle) (ht : hostTarget s.cfg addr = .buffer sp off) (hlt : off < sp.used s.cfg)
    {b : Byte} (hr : busRead8 sp off s.mem = .ok b) :
    hostAccess (.read .w8 addr) s = .next { s with reply := .data8 b } :=
  hostAccess_read_ok hq (ht ▸ not_refused_w8 hlt) (by rw [ht, busRead_w8, hr]; rfl)

theorem hostAccess_read8_error (hq : s.seq = .idle) (ht : hostTarget s.cfg addr = .buffer sp off)
    (hlt : off < sp.used s.cfg) {f : Fault} (hr : busRead8 sp off s.mem = .error f) :
    hostAccess (.read .w8 addr) s = .fault f :=
  hostAccess_read_error hq (ht ▸ not_refused_w8 hlt) (by rw [ht, busRead_w8, hr]; rfl)

theorem hostAccess_read32_ok (hq : s.seq = .idle) (ht : hostTarget s.cfg addr = .buffer sp off) (hb : sp ≠ .bbuf)
    (h4 : off % 4 = 0) (hle : off + 4 ≤ sp.used s.cfg) {d : Word} (hr : busRead32 sp off s.mem = .ok d) :
    hostAccess (.read .w32 addr) s = .next { s with reply := .data32 d } :=
  hostAccess_read_ok hq (ht ▸ not_refused_w32 hb h4 hle) (by rw [ht, busRead_w32, hr]; rfl)

theorem hostAccess_read32_error (hq : s.seq = .idle) (ht : hostTarget s.cfg addr = .buffer sp off) (hb : sp ≠ .bbuf)
    (h4 : off % 4 = 0) (hle : off + 4 ≤ sp.used s.cfg) {f : Fault} (hr : busRead32 sp off s.mem = .error f) :
    hostAccess (.read .w32 addr) s = .fault f :=
  hostAccess_read_error hq (ht ▸ not_refused_w32 hb h4 hle) (by rw [ht, busRead_w32, hr]; rfl)

/-! ### What a write leaves alone -/

theorem sameExcept_write (m : Memory) (a : Nat) (b : Byte) : m.SameExcept (· = a) (m.write a b) :=
  fun _ hne => m.read_write_ne b hne

theorem sameExcept_busWrite32 (hb : sp ≠ .bbuf) {lo hi : Nat} (hlo : sp.stride * lo = off)
    (hhi : sp.stride * hi = off + 4) (v : Word) (m : Memory) : m.SameExcept (sp.Elems lo hi) (busWrite32 sp off v m) := by
  intro a ha
  rw [Space.Elems, hlo, hhi] at ha
  rw [read_busWrite32 hb, if_neg (by omega), if_neg (by omega), if_neg (by omega), if_neg (by omega)]

/-! ### Byte buffers -/

/-- The four byte buffers: an element is one byte, and not a bit. -/
theorem byteBuffer_layout (h : sp ∈ [Space.pbuf, .kbuf, .wbuf, .obuf]) : sp.stride = 1 ∧ sp ≠ .bbuf := by
  simp only [List.mem_cons, List.not_mem_nil, or_false] at h
  rcases h with rfl | rfl | rfl | rfl <;> exact ⟨rfl, by decide⟩

theorem used_of_stride_one (h : sp.stride = 1) (c : Config) : sp.used c = sp.cap c := by
  rw [Space.used, h, Nat.mul_one]

/-- Settles O20: an 8-bit write of a byte buffer is a write of one byte (`busWrite8_eq`), and an 8-bit read is the read of
the element (`busRead8_byte`). -/
theorem byteAccessReadsBack : Obligations.ByteAccessReadsBack := by
  intro s addr v sp off hq hsp ht hlt
  obtain ⟨hs, hb⟩ := byteBuffer_layout hsp
  rw [← used_of_stride_one hs] at hlt
  refine ⟨?_, fun b h => hostAccess_read8_ok hq ht hlt ?_, fun h => hostAccess_read8_error hq ht hlt ?_⟩
  · have hw : (s.mem.write (sp.base + off) (lane v 0)).byteAt sp off = some (lane v 0) := s.mem.read_write_same _ _
    refine ⟨_, hostAccess_write8 hq ht hlt, rfl, ?_⟩
    rw [busWrite8_eq hb]
    refine ⟨hw, sameExcept_write _ _ _, hostAccess_read8_ok (s := { s with mem := _, reply := .written }) hq ht hlt ?_⟩
    rw [busRead8_byte hs hb]
    exact readByte_ok.2 hw
  · rw [busRead8_byte hs hb]
    exact readByte_ok.2 h
  · rw [busRead8_byte hs hb]
    exact readByte_error.2 ⟨h, rfl⟩

/-- A 32-bit write of a byte buffer, element by element. -/
theorem byteAt_busWrite32 (hb : sp ≠ .bbuf) (v : Word) (m : Memory) {k : Nat} (hk : k < 4) :
    (busWrite32 sp off v m).byteAt sp (off + k) = some (lane v k) := by
  have h4 : k = 0 ∨ k = 1 ∨ k = 2 ∨ k = 3 := by omega
  rw [Memory.byteAt, read_busWrite32 hb]
  rcases h4 with rfl | rfl | rfl | rfl <;> simp [← Nat.add_assoc]

/-- A 32-bit read of four written elements of a byte buffer. -/
theorem busRead32_bytes (hs : sp.stride = 1) (hb : sp ≠ .bbuf) {m : Memory} {b0 b1 b2 b3 : Byte}
    (h0 : m.byteAt sp off = some b0) (h1 : m.byteAt sp (off + 1) = some b1) (h2 : m.byteAt sp (off + 2) = some b2)
    (h3 : m.byteAt sp (off + 3) = some b3) : busRead32 sp off m = .ok (pixelOf b0 b1 b2 b3) := by
  simp only [busRead32, busRead8_byte hs hb, readByte_ok.2 h0, readByte_ok.2 h1, readByte_ok.2 h2, readByte_ok.2 h3,
    ok_bind]

/-- Settles O21: the four elements of a 32-bit write (`byteAt_busWrite32`), its frame (`sameExcept_busWrite32`), and a
32-bit read (`busRead32_bytes`), whose bytes `pixelOf` puts lowest address first. -/
theorem wordAccessIsLittleEndian : Obligations.WordAccessIsLittleEndian := by
  intro s addr v sp off hq hsp ht h4 hlt
  obtain ⟨hs, hb⟩ := byteBuffer_layout hsp
  have hle : off + 4 ≤ sp.used s.cfg := by rw [used_of_stride_one hs]; omega
  refine ⟨⟨_, hostAccess_write32 hq ht hb h4 hle, rfl, byteAt_busWrite32 (k := 0) hb _ _ (by decide),
    byteAt_busWrite32 hb _ _ (by decide), byteAt_busWrite32 hb _ _ (by decide), byteAt_busWrite32 hb _ _ (by decide),
    sameExcept_busWrite32 hb (by rw [hs, Nat.one_mul]) (by rw [hs, Nat.one_mul]) _ _⟩, ?_⟩
  exact fun b0 b1 b2 b3 h0 h1 h2 h3 => hostAccess_read32_ok hq ht hb h4 hle (busRead32_bytes hs hb h0 h1 h2 h3)

/-! ### The bit buffer -/

/-- Settles O22: an 8-bit write of BBUF is `writeBit` of bit 0 of the data (`getLsbD_lane`), an 8-bit read is `readBit`,
and the other widths are refused. -/
theorem bitBufferHoldsOneBit : Obligations.BitBufferHoldsOneBit := by
  intro s addr v off hq ht hlt
  have hlt' : off < Space.bbuf.used s.cfg := by rw [used_of_stride_one rfl]; exact hlt
  refine ⟨⟨_, hostAccess_write8 hq ht hlt', rfl, ?_, sameExcept_write _ _ _⟩,
    fun b h => hostAccess_read8_ok hq ht hlt' ?_, fun w hw => ?_⟩
  · have h0 : (lane v 0).getLsbD 0 = v.getLsbD 0 := getLsbD_lane v 0 0
    rw [← h0]
    exact bitAt_writeBit_same _ _ _
  · rw [busRead8, readBit_ok.2 h]
    rfl
  · have hr : Refused s.cfg w (hostTarget s.cfg addr) := by
      simp only [List.mem_cons, List.not_mem_nil, or_false] at hw
      rcases hw with rfl | rfl <;> simp [ht, Refused]
    exact ⟨hostAccess_read_refused hq hr, hostAccess_write_refused hq hr⟩

/-! ### Pixel buffers -/

theorem pixelBuffer_cases (h : sp ∈ [Space.src, .dst]) : sp = .src ∨ sp = .dst := by simpa using h

/-- The two pixel buffers: an element is four bytes, and not a bit. -/
theorem pixelBuffer_layout (h : sp ∈ [Space.src, .dst]) : sp.stride = 4 ∧ sp ≠ .bbuf := by
  rcases pixelBuffer_cases h with rfl | rfl <;> exact ⟨rfl, by decide⟩

theorem used_pixelBuffer (h : sp ∈ [Space.src, .dst]) (c : Config) : sp.used c = c.pixMax * 4 := by
  rcases pixelBuffer_cases h with rfl | rfl <;> rfl

/-- A 32-bit write of a pixel buffer writes the pixel word. -/
theorem pixelAt_busWrite32 (hb : sp ≠ .bbuf) (i : Nat) (v : Word) (m : Memory) :
    (busWrite32 sp (4 * i) v m).pixelAt sp i = some v := by
  have hl : ∀ l < 4, (busWrite32 sp (4 * i) v m).laneAt sp i l = some (lane v l) := fun l hl => by
    rw [Memory.laneAt, Nat.add_assoc]
    exact byteAt_busWrite32 hb v m hl
  rw [pixelAt_of_lanes (hl 0 (by decide)) (hl 1 (by decide)) (hl 2 (by decide)) (hl 3 (by decide)), pixelOf_lanes]

/-- An 8-bit read of a lane of a written pixel word. -/
theorem busRead8_lane (hs : sp.stride = 4) {m : Memory} {i l : Nat} {d : Word} (hl : l < 4)
    (h : m.pixelAt sp i = some d) : busRead8 sp (4 * i + l) m = .ok (lane d l) := by
  rw [busRead8_pixel hs, show (4 * i + l) / 4 = i by omega, show (4 * i + l) % 4 = l by omega, readPixel_ok.2 h, ok_bind]

/-- An 8-bit read of a lane of an unwritten pixel word, whether or not that lane is written (log entry 10). -/
theorem busRead8_unwritten (hs : sp.stride = 4) {m : Memory} {i l : Nat} (hl : l < 4) (h : m.pixelAt sp i = none) :
    busRead8 sp (4 * i + l) m = .error (.unwrittenRead sp i) := by
  rw [busRead8_pixel hs, show (4 * i + l) / 4 = i by omega, readPixel_error.2 ⟨h, rfl⟩]
  rfl

/-- A 32-bit read of an unwritten pixel word stops at its first lane. -/
theorem busRead32_unwritten (hs : sp.stride = 4) {m : Memory} {i : Nat} (h : m.pixelAt sp i = none) :
    busRead32 sp (4 * i) m = .error (.unwrittenRead sp i) := by
  rw [busRead32, show busRead8 sp (4 * i) m = .error (.unwrittenRead sp i) from
    busRead8_unwritten (l := 0) hs (by decide) h]
  rfl

/-- A pixel word is written exactly when its four lanes are. -/
theorem pixelAt_ne_none_iff {m : Memory} {i : Nat} :
    m.pixelAt sp i ≠ none ↔ ∀ l < 4, m.laneAt sp i l ≠ none := by
  refine ⟨fun h l hl hn => h (pixelAt_eq_none hl hn), fun h => ?_⟩
  have hw : ∀ l < 4, ∃ b, m.laneAt sp i l = some b := fun l hl => Option.ne_none_iff_exists'.1 (h l hl)
  obtain ⟨b, h0⟩ := hw 0 (by decide)
  obtain ⟨g, h1⟩ := hw 1 (by decide)
  obtain ⟨r, h2⟩ := hw 2 (by decide)
  obtain ⟨x, h3⟩ := hw 3 (by decide)
  rw [pixelAt_of_lanes h0 h1 h2 h3]
  exact Option.some_ne_none _

theorem written_pixel_iff (h : sp ∈ [Space.src, .dst]) {m : Memory} {i : Nat} :
    m.Written sp i ↔ m.pixelAt sp i ≠ none := by
  rcases pixelBuffer_cases h with rfl | rfl <;> rfl

/-- Settles O23: a write of either width (`pixelAt_busWrite32`, `Memory.read_write_same`) with its frame, a read of a
written pixel word (`busRead32_pixel`, `busRead8_lane`) and of an unwritten one (`busRead32_unwritten`,
`busRead8_unwritten`), and a pixel word's lanes (`pixelAt_ne_none_iff`, `lanes_of_pixelAt`). -/
theorem pixelAccessLanes : Obligations.PixelAccessLanes := by
  intro s addr v sp i hq hsp hi
  obtain ⟨hs, hb⟩ := pixelBuffer_layout hsp
  have hlt : ∀ l < 4, 4 * i + l < sp.used s.cfg := fun l hl => by rw [used_pixelBuffer hsp]; omega
  have hle : 4 * i + 4 ≤ sp.used s.cfg := hlt 3 (by decide)
  have h4 : 4 * i % 4 = 0 := Nat.mul_mod_right 4 i
  refine ⟨fun ht => ?_, fun l hl ht => ?_, fun d hd => ⟨fun ht => ?_, fun l hl ht => ?_⟩,
    fun hn => ⟨fun ht => ?_, fun l hl ht => ?_⟩, ?_, fun d hd l hl => lanes_of_pixelAt hd hl⟩
  · have hw := pixelAt_busWrite32 hb i v s.mem
    exact ⟨_, hostAccess_write32 hq ht hb h4 hle, rfl, hw,
      sameExcept_busWrite32 hb (by rw [hs]) (by rw [hs, Nat.mul_succ]) _ _,
      hostAccess_read32_ok (s := { s with mem := _, reply := .written }) hq ht hb h4 hle (busRead32_pixel hs hw)⟩
  · refine ⟨_, hostAccess_write8 hq ht (hlt l hl), rfl, ?_⟩
    rw [busWrite8_eq hb, ← Nat.add_assoc]
    exact ⟨s.mem.read_write_same _ _, sameExcept_write _ _ _⟩
  · exact hostAccess_read32_ok hq ht hb h4 hle (busRead32_pixel hs hd)
  · exact hostAccess_read8_ok hq ht (hlt l hl) (busRead8_lane hs hl hd)
  · exact hostAccess_read32_error hq ht hb h4 hle (busRead32_unwritten hs hn)
  · exact hostAccess_read8_error hq ht (hlt l hl) (busRead8_unwritten hs hl hn)
  · rw [written_pixel_iff hsp, pixelAt_ne_none_iff]

end Sys2Proof.Machine
end

section
/-! A table word that has just been accepted (20_memory.md R70; 60_exceptions.md R255; log entry 14). -/

namespace Sys2Proof.Machine

theorem decode_of_decodeTableWord {nbits w : Nat} {i : Instr} (h : decodeTableWord nbits w = some i) :
    decode (tableWord nbits w) = .ok i := by
  unfold decodeTableWord at h
  split at h
  · cases h; assumption
  · cases h

/-- The engine's turn right after acceptance of a word that decodes. -/
theorem engineTurn_accept {v : Word} {i : Instr} (h : decode v = .ok i) (s : State) :
    engineTurn (accept v s) = exec i (accept v s) := by
  simp only [engineTurn, accept_seq, h]

/-- Settles O6: the next step is the engine's turn, whether inputs are to come or not, on the state right after
acceptance (`engineTurn_accept`). -/
theorem acceptedTableWordRunsNext : Obligations.AcceptedTableWordRunsNext := by
  intro s nbits w i h
  have hturn := engineTurn_accept (decode_of_decodeTableWord h) s
  have hstep : step (s.withFetchWord nbits w) = engineTurn (accept (tableWord nbits w) s) := by
    cases hin : s.inputs with
    | nil =>
      have hfetch : s.withFetchWord nbits w = accept (tableWord nbits w) s := by
        simp [State.withFetchWord, hin, accept]
      simp only [hfetch, step, accept_inputs, hin]
    | cons e rest =>
      rw [step_engine (rest := s.inputs) (by simp [State.withFetchWord, hin])]
      rfl
  rw [hstep, hturn]

end Sys2Proof.Machine
end

section
/-! Command words (30_encoding.md R80 to R87): a word is a command exactly when it is that command's word, which words are
legal, and what the engine does with the others. -/

namespace Sys2Proof.Machine

/-- Settles O2: a word that decodes is the word of its command (`decode_ok`), and that word decodes (`decode_encode`). -/
theorem decodeInvertsEncode : Obligations.DecodeInvertsEncode :=
  fun _ i => ⟨decode_ok, fun h => h ▸ decode_encode i⟩

/-- Settles O1: each word is the `encode` of its command (`decode_encode`); the two refused words are evaluated. -/
theorem specWordsDecode : Obligations.SpecWordsDecode :=
  ⟨decode_encode .nop, decode_encode .xor, decode_encode .frame, decode_encode .unframe, decode_encode .pack,
    decode_encode .unpack, decode_encode .encode, decode_encode .decode, decode_encode .move, decode_encode .copy,
    decode_encode .hide, decode_encode .show_, by decide, by decide⟩

/-! ### Legal words -/

variable {s : State} {w : Word}

theorem legalWord_encode (i : Instr) : LegalWord (encode i) := by cases i <;> decide

/-- The opcode map has a row for each assigned opcode (R82). -/
theorem opcodeMap_lookup_isSome : ∀ op ∈ assignedOpcodes, (opcodeMap.lookup op).isSome := by decide

/-- The legal words of R81 are those that decode. -/
theorem exists_decode_ok_iff : (∃ i, decode w = .ok i) ↔ LegalWord w := by
  constructor
  · rintro ⟨i, h⟩
    exact decode_ok h ▸ legalWord_encode i
  · rintro ⟨hr, ho⟩
    obtain ⟨i, hi⟩ := Option.isSome_iff_exists.1 (opcodeMap_lookup_isSome _ ho)
    have hr' : rsvField w = 0 := hr
    have hi' : opcodeMap.lookup (opField w) = some i := hi
    exact ⟨i, by simp [decode, hr', hi']⟩

/-- An illegal word that is running ends with ILLEGAL (R85). -/
theorem engineTurn_illegal (hq : s.seq = .busy w) (h : ¬ LegalWord w) : engineTurn s = .next (endWith .illegal s) := by
  cases hd : decode w with
  | ok i => exact absurd (exists_decode_ok_iff.1 ⟨i, hd⟩) h
  | error e => simp only [engineTurn, hq, hd, raise_eq]

/-- Settles O3: the words that decode are the legal ones (`exists_decode_ok_iff`), and any other ends with ILLEGAL
(`engineTurn_illegal`). -/
theorem legalWordsExactly : Obligations.LegalWordsExactly :=
  fun _ => ⟨exists_decode_ok_iff,
    fun hn _ hq => ⟨_, engineTurn_illegal hq fun h => hn (exists_decode_ok_iff.2 h), rfl⟩⟩

/-! ### Illegal words -/

/-- No assigned opcode lies in the unassigned ranges of R85. -/
theorem assignedOpcodes_avoid :
    ∀ op ∈ assignedOpcodes, ¬ ((0x0A#8 ≤ op ∧ op ≤ 0x0F#8) ∨ 0x12#8 ≤ op) := by decide

/-- Settles O4: the write is accepted (`step_issue`), and the engine's turn then ends the word, which is not legal
(`assignedOpcodes_avoid`), with ILLEGAL (`engineTurn_illegal`). -/
theorem illegalWordsAbort : Obligations.IllegalWordsAbort := by
  intro s addr w rest hq ht hi hw
  have hl : ¬ LegalWord w := fun ⟨hr, ho⟩ => hw.elim (fun hne => hne hr) (assignedOpcodes_avoid _ ho)
  rw [run_next 1 (step_issue hq ht hi), run_next 0 ((step_engine rfl).trans (engineTurn_illegal rfl hl)), run_zero]
  cases s
  cases hq
  rfl

end Sys2Proof.Machine
end

section
/-! What each command leaves alone (30_encoding.md R83): the registers its rule does not write, and the memory outside the
elements it writes. -/

namespace Sys2Proof.Machine

/-! ### Registers -/

/-- `t` is `s` but for what a command may write (10_state.md R21): a length register only where the command's rule does. -/
structure RegistersKept (i : Instr) (s t : State) : Prop where
  frame : t = { s with
    seq := t.seq, status := t.status, wlen := t.wlen, blen := t.blen, olen := t.olen, mem := t.mem, scan := t.scan }
  wlen : i ∉ [Instr.xor, .move, .frame, .unpack, .hide] → t.wlen = s.wlen
  blen : i ∉ [Instr.pack, .hide] → t.blen = s.blen
  olen : i ∉ [Instr.unframe, .decode, .show_] → t.olen = s.olen

variable {i : Instr} {s t u : State} {e : ErrCode}

/-- A command that writes memory and STATUS only. -/
theorem RegistersKept.of_mem_status (hf : u = { s with status := u.status, mem := u.mem }) : RegistersKept i s u := by
  rw [hf]
  exact ⟨rfl, fun _ => rfl, fun _ => rfl, fun _ => rfl⟩

/-- The end of a command writes no register. -/
theorem RegistersKept.endWith (h : RegistersKept i s u) (e : ErrCode) : RegistersKept i s (endWith e u) where
  frame := congrArg (Machine.endWith e) h.frame
  wlen := h.wlen
  blen := h.blen
  olen := h.olen

/-- A command that writes WLEN only. -/
theorem RegistersKept.of_wlen (hi : i ∈ [Instr.xor, .move, .frame, .unpack, .hide]) (m : Memory) (n : Word) :
    RegistersKept i s { s with mem := m, wlen := n } :=
  ⟨rfl, fun h => absurd hi h, fun _ => rfl, fun _ => rfl⟩

/-- A search writes OLEN only, and STATUS. -/
theorem RegistersKept.of_olen (hi : i ∈ [Instr.unframe, .decode, .show_]) (m : Memory) (n : Word) (st : Status) :
    RegistersKept i s { s with mem := m, olen := n, status := st } :=
  ⟨rfl, fun _ => rfl, fun _ => rfl, fun h => absurd hi h⟩

/-- A command body that answers a next state has kept the registers. -/
def BodyKeeps (i : Instr) (s : State) (r : Except Fault State) : Prop := ∀ t, r = .ok t → RegistersKept i s t

theorem BodyKeeps.bind {α : Type} (x : Except Fault α) {f : α → Except Fault State} (h : ∀ a, BodyKeeps i s (f a)) :
    BodyKeeps i s (x >>= f) := fun t ht => by
  obtain ⟨a, _, ha⟩ := bind_eq_ok.1 ht
  exact h a t ha

/-- A body whose last act is to end the command. -/
theorem BodyKeeps.ended (h : RegistersKept i s u) : BodyKeeps i s (.ok (endWith e u)) := by
  rintro t ⟨⟩
  exact h.endWith e

theorem unframeEnd_keeps (s : State) (r : Option Nat × Memory) : BodyKeeps .unframe s (.ok (unframeEnd s r)) := by
  obtain ⟨_ | j, m⟩ := r <;> exact .ended (.of_olen (by decide) _ _ _)

theorem decodeEnd_keeps (s : State) (r : Bool × List Byte × Memory) : BodyKeeps .decode s (.ok (decodeEnd s r)) := by
  obtain ⟨_ | _, bytes, m⟩ := r <;> exact .ended (.of_olen (by decide) _ _ _)

theorem showEnd_keeps (s : State) (r : Bool × List Byte × Memory) : BodyKeeps .show_ s (showEnd s r) := by
  obtain ⟨_ | _, bytes, m⟩ := r
  · exact .ended (.of_olen (by decide) _ _ _)
  · exact .bind _ fun m1 => .ended (.of_olen (by decide) _ _ _)

/-- A check that fails ends the command without its body. -/
theorem command_keeps {c : Option ErrCode} {b : State → Except Fault State} (h : command c b s = .next t)
    (hb : BodyKeeps i s (b s)) : RegistersKept i s t := by
  rcases command_next.1 h with ⟨e, -, rfl⟩ | ⟨-, ht⟩
  · exact RegistersKept.endWith (.of_mem_status rfl) e
  · exact hb t ht

theorem exec_keeps_registers (h : exec i s = .next t) : RegistersKept i s t := by
  cases i <;> simp only [exec] at h
  case nop => exact command_keeps h (.ended (.of_mem_status rfl))
  case xor => exact command_keeps h (.bind _ fun m => .ended (.of_wlen (by decide) _ _))
  case frame => exact command_keeps h (.ended (.of_wlen (by decide) _ _))
  case unframe => exact command_keeps h (.bind _ fun r => unframeEnd_keeps s r)
  case pack =>
    exact command_keeps h (.bind _ fun m => .ended ⟨rfl, fun _ => rfl, fun hn => absurd (by decide) hn, fun _ => rfl⟩)
  case unpack => exact command_keeps h (.bind _ fun m => .ended (.of_wlen (by decide) _ _))
  case encode => exact command_keeps h (.bind _ fun m => .ended (.of_mem_status rfl))
  case decode => exact command_keeps h (.bind _ fun r => decodeEnd_keeps s r)
  case move => exact command_keeps h (.bind _ fun m => .ended (.of_wlen (by decide) _ _))
  case copy => exact command_keeps h (.bind _ fun m => .ended (.of_mem_status rfl))
  case hide =>
    simp only [execHide] at h
    exact command_keeps h (.bind _ fun m1 => .bind _ fun m2 => .bind _ fun m3 =>
      .ended ⟨rfl, fun hn => absurd (by decide) hn, fun hn => absurd (by decide) hn, fun _ => rfl⟩)
  case show_ => exact command_keeps h (.bind _ fun r => showEnd_keeps s r)

/-- Settles O40: the lengths a command may write are those of `RegistersKept` (`exec_keeps_registers`), whose frame is every
other register, the parameters, the inputs to come and the last reply. -/
theorem registerFrame : Obligations.RegisterFrame := by
  intro s t i h
  obtain ⟨hf, hw, hb, ho⟩ := exec_keeps_registers h
  exact ⟨(congrArg State.width hf :), (congrArg State.height hf :), (congrArg State.plen hf :),
    (congrArg State.klen hf :), hw, hb, ho, (congrArg State.cfg hf :), (congrArg State.inputs hf :),
    (congrArg State.reply hf :)⟩

/-! ### Memory -/

/-- Settles O41: a command that raises ends with the memory it found, and one that completes has made only the writes its
rule allows (`exec_next`), which leave every other byte as it was (`Writes.same`). -/
theorem memoryFrame : Obligations.MemoryFrame := by
  intro s t i hv hs h
  rcases exec_next hv hs h with ⟨e, -, rfl⟩ | ⟨he, hc⟩
  · exact ⟨.refl s.mem, fun _ => rfl⟩
  · exact ⟨hc.mem.same fun _ _ hr => hr.1, fun hne => absurd he hne⟩

end Sys2Proof.Machine
end

section
/-! The XorCipher unit (40_xor_cipher.md R100 to R105): the transform byte by byte, its self-inverse law, and what XOR
leaves. -/

namespace Sys2Proof.Machine

/-! ### The transform -/

@[simp] theorem getElem_xorT {d k : List Byte} {hk : 0 < k.length} {i : Nat} (hi : i < (xorT d k hk).length) :
    (xorT d k hk)[i] = d[i]'(length_xorT d k hk ▸ hi) ^^^ k[i % k.length]'(Nat.mod_lt i hk) := by
  simp [xorT]

/-- Settles O44: the length is `length_xorT`, the byte at each index `getElem?_xorT`. -/
theorem xorTransformBytes : Obligations.XorTransformBytes := fun d k hk =>
  ⟨length_xorT d k hk, fun i hi =>
    getElem?_xorT (List.getElem?_eq_getElem hi) (List.getElem?_eq_getElem (Nat.mod_lt i hk))⟩

/-- Settles O45: at each index both transforms use the same byte of the key (`getElem_xorT`), which cancels. -/
theorem xorTransformSelfInverse : Obligations.XorTransformSelfInverse := by
  intro d k hk
  refine List.ext_getElem (by simp) fun i _ _ => ?_
  rw [getElem_xorT, getElem_xorT, BitVec.xor_assoc, BitVec.xor_self, BitVec.xor_zero]

/-! ### The command -/

/-- A length read from a register and written back to one is the same word. -/
@[simp] theorem lengthWord_toNat (w : Word) : lengthWord w.toNat = w := by simp [lengthWord]

/-- XOR passes its checks where both lengths are within capacity and there is a key. -/
theorem xorCheck_eq_none_iff {s : State} :
    xorCheck s = none ↔ s.plen.toNat ≤ s.cfg.pMax ∧ s.klen.toNat ≤ s.cfg.kMax ∧ 0 < s.klen.toNat := by
  rw [xorCheck]
  split_ifs <;> simp <;> omega

/-- Where the checks pass and the loop runs through, XOR completes with the loop's memory, and PLEN in WLEN. -/
theorem exec_xor_next {s : State} {m : Memory} (hc : xorCheck s = none)
    (hl : xorLoop s.plen.toNat s.klen.toNat s.mem = .ok m) :
    exec .xor s = .next (endWith .none { s with mem := m, wlen := s.plen }) := by
  rw [exec, execXor, hc, command_none_next, hl, ok_bind, lengthWord_toNat, complete_eq]

/-- Settles O25: the checks pass (`xorCheck_eq_none_iff`), and the loop runs through, leaves `xorT p k` in WBUF and
writes nowhere else (`xorLoop_total`). -/
theorem xorCiphersPayload : Obligations.XorCiphersPayload := by
  intro s p k hk hv hplen hp hklen hkmax hpbuf hkbuf
  obtain ⟨hpMax, -, hkMax, -⟩ := valid_bounds hv
  obtain ⟨m, hloop, hw, hframe⟩ := xorLoop_total hk hpbuf hkbuf (by omega) (by omega)
  have hcheck : xorCheck s = none := xorCheck_eq_none_iff.2 (by omega)
  rw [← hplen, ← hklen] at hloop
  exact ⟨_, exec_xor_next hcheck hloop, rfl, hw, hframe⟩

end Sys2Proof.Machine
end

section
/-! The FrameCodec unit (41_frame_codec.md R120 to R131): `unframe` ends at the first terminator, the framing law, and
what FRAME and UNFRAME leave. -/

namespace Sys2Proof.Machine

/-! ### The first match -/

/-- The test of R122 at byte `j`, as the bytes it looks at. -/
theorem matchAt_iff {s : List Byte} {j : Nat} :
    matchAt s j = true ↔ 2 ≤ j ∧ s[j - 2]? = some 0x00#8 ∧ s[j - 1]? = some 0x00#8 ∧ s[j]? = some 0x03#8 := by
  simp only [matchAt, Bool.and_eq_true, decide_eq_true_eq, and_assoc]

theorem unframe_eq_found_iff {s q : List Byte} :
    unframe s = .found q ↔
      ∃ j < s.length, matchAt s j = true ∧ q = s.take (j - 2) ∧ ∀ j' < j, ¬ matchAt s j' = true := by
  unfold unframe
  constructor
  · intro h
    split at h
    · rename_i j hj
      obtain ⟨hlt, hm, hfirst⟩ := find?_range_eq_some.1 hj
      cases h
      exact ⟨j, hlt, hm, rfl, fun j' hj' => by simp [hfirst j' hj']⟩
    · cases h
  · rintro ⟨j, hlt, hm, rfl, hfirst⟩
    rw [find?_range_eq_some.2 ⟨hlt, hm, fun j' hj' => by simpa using hfirst j' hj'⟩]

theorem unframe_eq_incomplete_iff {s q : List Byte} :
    unframe s = .incomplete q ↔ q = s ∧ ∀ j < s.length, ¬ matchAt s j = true := by
  constructor
  · intro h
    refine ⟨unframe_incomplete h, fun j hj hm => ?_⟩
    unfold unframe at h
    split at h
    · cases h
    · rename_i hnone
      exact List.find?_eq_none.1 hnone j (List.mem_range.2 hj) hm
  · rintro ⟨rfl, hnone⟩
    refine incomplete_of_ne fun q hq => ?_
    obtain ⟨j, hlt, hm, -⟩ := unframe_eq_found_iff.1 hq
    exact hnone j hlt hm

/-- Settles O46: the two results of `unframe` (`unframe_eq_found_iff`, `unframe_eq_incomplete_iff`), the test written
out (`matchAt_iff`). -/
theorem unframeFirstMatch : Obligations.UnframeFirstMatch := by
  refine fun s => ⟨fun q => ?_, fun q => ?_⟩
  · simp only [unframe_eq_found_iff, matchAt_iff, and_assoc]
  · simp only [unframe_eq_incomplete_iff, matchAt_iff]

/-! ### The framing law -/

/-- The terminator stands at index `q` exactly when the test matches at its last byte. -/
theorem take_drop_eq_terminator_iff {s : List Byte} {q : Nat} :
    (s.drop q).take 3 = terminator ↔ matchAt s (q + 2) = true := by
  have h0 : s[q]? = (s.drop q)[0]? := by simp
  have h1 : s[q + 1]? = (s.drop q)[1]? := by simp
  have h2 : s[q + 2]? = (s.drop q)[2]? := by simp
  rw [matchAt_iff, Nat.add_sub_cancel, show q + 2 - 1 = q + 1 by omega, h0, h1, h2]
  match s.drop q with
  | [] => simp [terminator]
  | [_] => simp [terminator]
  | [_, _] => simp [terminator]
  | _ :: _ :: _ :: _ => simp [terminator]

/-- An occurrence of the terminator lies inside the sequence. -/
theorem le_length_of_take_drop_eq_terminator {s : List Byte} {q : Nat} (h : (s.drop q).take 3 = terminator) :
    q + 3 ≤ s.length := by
  have hlen := congrArg List.length h
  rw [List.length_take, List.length_drop, length_terminator] at hlen
  omega

/-- In `frame p` the test matches where the terminator occurs in `p`, and at the end: across the border the terminator's
first two bytes stand where its last would have to. -/
theorem matchAt_frame_iff {p : List Byte} {q : Nat} :
    matchAt (frame p) (q + 2) = true ↔ (p.drop q).take 3 = terminator ∨ q = p.length := by
  rcases Nat.lt_or_ge (q + 2) p.length with hlt | hge
  · have hq : q ≠ p.length := by omega
    rw [frame, matchAt_append hlt, ← take_drop_eq_terminator_iff]
    simp [hq]
  · have hshort : (p.drop q).take 3 ≠ terminator := fun h => by
      have := le_length_of_take_drop_eq_terminator h
      omega
    have hlast : (frame p)[q + 2]? = terminator[q + 2 - p.length]? := List.getElem?_append_right hge
    simp only [hshort, false_or]
    constructor
    · intro h
      obtain ⟨-, -, -, h3⟩ := matchAt_iff.1 h
      rw [hlast] at h3
      obtain ⟨hn, -⟩ := List.getElem?_eq_some_iff.1 h3
      rw [length_terminator] at hn
      by_contra hne
      obtain h | h : q + 2 - p.length = 0 ∨ q + 2 - p.length = 1 := by omega
      all_goals rw [h] at h3; simp [terminator] at h3
    · rintro rfl
      rw [← take_drop_eq_terminator_iff, frame, List.drop_left]
      rfl

/-- R124: `unframe (frame p)` ends at the first occurrence of the terminator in `p`, or at the end of `p`. -/
theorem unframe_frame {p : List Byte} {q0 : Nat} (h0 : (p.drop q0).take 3 = terminator ∨ q0 = p.length)
    (hfirst : ∀ q < q0, (p.drop q).take 3 ≠ terminator) : unframe (frame p) = .found (p.take q0) := by
  have hle : q0 ≤ p.length := h0.elim (fun h => by have := le_length_of_take_drop_eq_terminator h; omega) (·.le)
  refine unframe_eq_found_iff.2 ⟨q0 + 2, by rw [length_frame]; omega, matchAt_frame_iff.2 h0, ?_, fun j hj hm => ?_⟩
  · rw [Nat.add_sub_cancel, frame, List.take_append_of_le_length hle]
  · obtain ⟨h2, -⟩ := matchAt_iff.1 hm
    obtain ⟨q, rfl⟩ := Nat.exists_eq_add_of_le' h2
    rcases matchAt_frame_iff.1 hm with hq | hq
    · exact hfirst q (by omega) hq
    · omega

theorem unframe_frame_eq_found_iff {p : List Byte} :
    unframe (frame p) = .found p ↔ ∀ q, (p.drop q).take 3 ≠ terminator := by
  constructor
  · intro h q hq
    obtain ⟨h0, hfirst⟩ := terminatorIndex_spec p
    rw [unframe_frame (h0.imp_left And.right) hfirst, Unframed.found.injEq, List.take_eq_self_iff] at h
    have hlen := le_length_of_take_drop_eq_terminator hq
    exact hfirst q (by omega) hq
  · intro h
    rw [unframe_frame (.inr rfl) fun q _ => h q, List.take_length]

/-- Settles O47: `frame` is by definition `p ++ T`, the law is `unframe_frame`, and its exact case is
`unframe_frame_eq_found_iff`. -/
theorem framingLaw : Obligations.FramingLaw :=
  fun _ => ⟨rfl, fun _ h0 hfirst => unframe_frame (h0.imp_left And.right) hfirst, unframe_frame_eq_found_iff⟩

/-! ### FRAME -/

/-- Where its check passes, FRAME completes with the terminator written at WLEN and WLEN grown by 3. -/
theorem exec_frame_next {s : State} (h : s.wlen.toNat + 3 ≤ s.cfg.wMax) :
    exec .frame s = .next (endWith .none
      { s with mem := writeTerminator s.wlen.toNat s.mem, wlen := lengthWord (s.wlen.toNat + 3) }) := by
  have hcheck : frameCheck s = none := if_neg (by omega)
  rw [exec, execFrame, hcheck, command_none_next, complete_eq]

/-- The bytes FRAME writes, whatever stands before them. -/
theorem byteAt_writeTerminator (n : Nat) (m : Memory) :
    (writeTerminator n m).byteAt .wbuf n = some 0x00#8 ∧ (writeTerminator n m).byteAt .wbuf (n + 1) = some 0x00#8
      ∧ (writeTerminator n m).byteAt .wbuf (n + 2) = some 0x03#8 := by
  simp [writeTerminator, byteAt_writeByte]

/-- Settles O26: FRAME completes (`exec_frame_next`), and what its three writes leave is `byteAt_writeTerminator`,
`writeTerminator_writes` and, after `d`, `writeTerminator_holds`. -/
theorem frameAppendsTerminator : Obligations.FrameAppendsTerminator := by
  intro s d _ hwlen hmax
  have hexec := exec_frame_next (hwlen ▸ hmax)
  rw [hwlen] at hexec
  obtain ⟨h0, h1, h2⟩ := byteAt_writeTerminator d.length s.mem
  refine ⟨⟨_, hexec, rfl, h0, h1, h2, (writeTerminator_writes d.length s.mem).same fun _ _ => Allowed.elems⟩,
    fun t ht hd => ?_⟩
  rw [hexec] at ht
  cases ht
  exact writeTerminator_holds hd

/-! ### UNFRAME -/

/-- The bytes looked at are the first ones. -/
theorem getElem?_scannedBytes {s : List Byte} {k : Nat} (hk : k < (scannedBytes s).length) :
    (scannedBytes s)[k]? = s[k]? := by
  rw [(scannedBytes_eq_take s).1, List.getElem?_take_of_lt hk]

/-- UNFRAME's loop, where the bytes it looks at are written, finds what `unframe` finds and mirrors those bytes into
OBUF. -/
theorem unframeLoop_mirrors {d : List Byte} {m : Memory} (hd : d.length ≤ 2 ^ 24)
    (hw : m.HoldsBytes .wbuf (scannedBytes d)) :
    ∃ m', unframeLoop d.length 0 m
        = .ok (match unframe d with | .found q => some (q.length + 2) | .incomplete _ => none, m')
      ∧ m'.HoldsBytes .obuf (scannedBytes d)
      ∧ m.SameExcept (Space.Elems .obuf 0 (scannedBytes d).length) m' := by
  obtain ⟨m', hloop, ho, hframe⟩ := unframeLoop_total hd d.length 0 m (Nat.zero_add _)
    (fun k hk => absurd hk (Nat.not_lt_zero k)) (fun k hk => by rw [hw k hk, getElem?_scannedBytes hk]) rfl
  exact ⟨m', hloop, fun k hk => by rw [ho k hk, getElem?_scannedBytes hk], hframe⟩

/-- Where its check passes and its loop runs through, UNFRAME ends as the loop's result says. -/
theorem exec_unframe_next {s : State} {r : Option Nat × Memory} (h : s.wlen.toNat ≤ s.cfg.wMax)
    (hl : unframeLoop s.wlen.toNat 0 s.mem = .ok r) : exec .unframe s = .next (unframeEnd s r) := by
  have hcheck : unframeCheck s = none := if_neg (by omega)
  rw [exec, execUnframe, hcheck, command_none_next, hl, ok_bind]

/-- Settles O27: the loop runs through and mirrors the bytes looked at (`unframeLoop_mirrors`), which are those found
and the terminator, or all of them, and UNFRAME ends with its result (`exec_unframe_next`). -/
theorem unframeStripsOrReports : Obligations.UnframeStripsOrReports := by
  intro s d hv hwlen hmax hw
  obtain ⟨hpMax, -, -, -, hwMax, -⟩ := valid_bounds hv
  obtain ⟨m, hloop, ho, hframe⟩ := unframeLoop_mirrors (by omega) hw
  rw [← hwlen] at hloop
  have hexec := exec_unframe_next (by omega) hloop
  refine ⟨fun q hq => ?_, fun hi => ?_⟩
  · rw [hq] at hexec
    rw [scannedBytes_found hq] at ho hframe
    rw [List.length_append, length_terminator] at hframe
    exact ⟨_, hexec, rfl, ho, hframe⟩
  · rw [hi] at hexec
    rw [scannedBytes_incomplete hi] at ho hframe
    refine ⟨_, hexec, ?_, ho, hframe⟩
    rw [unframeEnd, lengthWord_toNat]
    rfl

end Sys2Proof.Machine
end

section
/-! The BitPacker unit (42_bit_packer.md R140 to R150): the order of the bits, the laws of `toBits` and `fromBits`, and
what PACK and UNPACK leave. -/

namespace Sys2Proof.Machine

/-! ### The order of the bits -/

/-- R141: the first of eight bits weighs 128, each later one half of the one before. -/
theorem toNat_bitsByte {g : List Bool} (hg : g.length = 8) :
    (bitsByte g).toNat = ((List.range 8).map fun t => if g[t]? = some true then 2 ^ (7 - t) else 0).sum := by
  match g, hg with
  | [b7, b6, b5, b4, b3, b2, b1, b0], _ =>
    revert b7 b6 b5 b4 b3 b2 b1 b0; decide +kernel

/-- R141, byte by byte: byte `j` of `fromBits b` is made of the bits from `8 * j` on. -/
theorem toNat_getElem?_fromBits {b : List Bool} {j : Nat} (hj : 8 * j + 8 ≤ b.length) :
    (fromBits b)[j]?.map BitVec.toNat
      = some ((List.range 8).map fun t => if b[8 * j + t]? = some true then 2 ^ (7 - t) else 0).sum := by
  have hlen : ((b.drop (8 * j)).take 8).length = 8 := by rw [List.length_take, List.length_drop]; omega
  rw [getElem?_fromBits hj, Option.map_some, toNat_bitsByte hlen]
  congr 2
  refine List.map_congr_left fun t ht => ?_
  rw [List.getElem?_take_of_lt (List.mem_range.1 ht), List.getElem?_drop]

/-- UNPACK raises BITALIGN for a length within capacity that is no multiple of 8. -/
theorem exec_unpack_bitAlign {s : State} (hmax : s.blen.toNat ≤ s.cfg.bMax) (h8 : s.blen.toNat % 8 ≠ 0) :
    exec .unpack s = .next (endWith .bitAlign s) := by
  have hcheck : unpackCheck s = some .bitAlign := by rw [unpackCheck, if_neg (by omega), if_pos h8]
  rw [exec, execUnpack, command_next]
  exact .inl ⟨_, hcheck, rfl⟩

/-- Settles O48: the bits of `toBits` are `getElem?_toBits`, the bytes of `fromBits` `toNat_getElem?_fromBits`, and
UNPACK's refusal is `exec_unpack_bitAlign`. -/
theorem bitOrder : Obligations.BitOrder :=
  ⟨fun d => ⟨length_toBits d, fun _ _ hi ht => getElem?_toBits (List.getElem?_eq_getElem hi) ht⟩,
    fun b _ => ⟨length_fromBits b, fun _ hj => toNat_getElem?_fromBits (by omega)⟩,
    fun _ hmax h8 => ⟨_, exec_unpack_bitAlign hmax h8, rfl⟩⟩

/-! ### The laws of R142 -/

@[simp] theorem toBits_nil : toBits [] = [] := rfl

@[simp] theorem toBits_cons (b : Byte) (d : List Byte) : toBits (b :: d) = byteBits b ++ toBits d := rfl

theorem fromBits_toBits (d : List Byte) : fromBits (toBits d) = d := by
  induction d with
  | nil => rfl
  | cons b d ih => rw [toBits_cons, fromBits_append (length_byteBits b), bitsByte_byteBits, ih]

/-- Whole groups of eight bits are what their bytes serialise to. -/
theorem toBits_fromBits {b : List Bool} {n : Nat} (hb : b.length = 8 * n) : toBits (fromBits b) = b := by
  induction n generalizing b with
  | zero => rw [List.length_eq_zero_iff.1 hb]; rfl
  | succ n ih =>
    have hhead : (b.take 8).length = 8 := by rw [List.length_take]; omega
    have htail : (b.drop 8).length = 8 * n := by rw [List.length_drop]; omega
    rw [fromBits_step (by omega), toBits_cons, byteBits_bitsByte hhead, ih htail, List.take_append_drop]

/-- A framed sequence ends in the bits of the terminator. -/
theorem drop_toBits_frame (p : List Byte) : (toBits (frame p)).drop (8 * p.length) = toBits terminator := by
  rw [frame, toBits_append, List.drop_left' (length_toBits p)]

theorem toBits_terminator : toBits terminator = List.replicate 22 false ++ [true, true] := by decide

/-- Settles O49: the two inverse laws (`fromBits_toBits`, `toBits_fromBits`), the two splits (`toBits_append`,
`fromBits_append_of_dvd`), and the framed sequence's last bits, the terminator's (`drop_toBits_frame`). -/
theorem bitRoundTrip : Obligations.BitRoundTrip := by
  refine ⟨fromBits_toBits, fun b hb => toBits_fromBits (n := b.length / 8) (by omega), toBits_append,
    fun a _ ha _ => fromBits_append_of_dvd (a.length / 8) (by omega), fun p => ⟨?_, ?_⟩⟩
  · rw [length_toBits, length_frame]
  · rw [drop_toBits_frame, toBits_terminator]

/-! ### PACK and UNPACK -/

/-- Where its check passes and its loop runs through, PACK completes with the loop's memory, and eight times WLEN in
BLEN. -/
theorem exec_pack_next {s : State} {m : Memory} (hmax : s.wlen.toNat ≤ s.cfg.wMax)
    (hl : packLoop s.wlen.toNat s.mem = .ok m) :
    exec .pack s = .next (endWith .none { s with mem := m, blen := lengthWord (8 * s.wlen.toNat) }) := by
  have hcheck : packCheck s = none := if_neg (by omega)
  rw [exec, execPack, hcheck, command_none_next, hl, ok_bind, complete_eq]

/-- Settles O28: the loop runs through, leaves `toBits d` in BBUF and writes nowhere else (`packLoop_total`), and PACK
completes with it (`exec_pack_next`). -/
theorem packSerialisesBits : Obligations.PackSerialisesBits := by
  intro s d hv hwlen hmax hd
  obtain ⟨hpMax, -, -, -, hwMax, -⟩ := valid_bounds hv
  obtain ⟨m, hloop, hbits, hframe⟩ := packLoop_total hd (by omega)
  rw [← hwlen] at hloop
  have hexec := exec_pack_next (by omega) hloop
  rw [hwlen] at hexec
  exact ⟨_, hexec, rfl, hbits, hframe⟩

/-- Where its checks pass and its loop runs through, UNPACK completes with the loop's memory, and an eighth of BLEN in
WLEN. -/
theorem exec_unpack_next {s : State} {m : Memory} (hmax : s.blen.toNat ≤ s.cfg.bMax) (h8 : s.blen.toNat % 8 = 0)
    (hl : unpackLoop (s.blen.toNat / 8) s.mem = .ok m) :
    exec .unpack s = .next (endWith .none { s with mem := m, wlen := lengthWord (s.blen.toNat / 8) }) := by
  have hcheck : unpackCheck s = none := by rw [unpackCheck, if_neg (by omega), if_neg (by omega)]
  rw [exec, execUnpack, hcheck, command_none_next, hl, ok_bind, complete_eq]

/-- Settles O29: the loop runs through, leaves `fromBits b` in WBUF and writes nowhere else (`unpackLoop_total`), and
UNPACK completes with it (`exec_unpack_next`). -/
theorem unpackDeserialisesBits : Obligations.UnpackDeserialisesBits := by
  intro s b hv hblen hmax h8 hb
  obtain ⟨hpMax, -, -, -, -, hbMax⟩ := valid_bounds hv
  obtain ⟨m, hloop, hbytes, hframe⟩ := unpackLoop_total hb (n := b.length / 8) (by omega) (by omega)
  rw [← hblen] at hloop
  have hexec := exec_unpack_next (by omega) (by omega) hloop
  rw [hblen] at hexec
  exact ⟨_, hexec, rfl, hbytes, hframe⟩

end Sys2Proof.Machine
end

section
/-! The PixelEncoder unit (43_pixel_encoder.md R160 to R165): what embedding changes of a pixel, and what ENCODE
leaves. -/

namespace Sys2Proof.Machine

/-! ### The grid function -/

/-- R162: a bit that is there already leaves the pixel word as it is. -/
theorem embed_getLsbD_zero (w : Word) : embed w (w.getLsbD 0) = w := by
  refine BitVec.eq_of_getLsbD_eq fun i _ => ?_
  rw [getLsbD_embed]
  split
  · next h => rw [h]
  · rfl

theorem getElem?_encodeGrid_of_lt {src : List Word} {bits : List Bool} {p : Nat} (hp : p < bits.length)
    (hs : p < src.length) : (encodeGrid src bits)[p]? = some (embed src[p] bits[p]) := by
  rw [getElem?_encodeGrid (List.getElem?_eq_getElem hs), List.getElem?_eq_getElem hp]

theorem getElem?_encodeGrid_of_ge {src : List Word} {bits : List Bool} {p : Nat} (hp : bits.length ≤ p) :
    (encodeGrid src bits)[p]? = src[p]? := by
  cases h : src[p]? with
  | none => rwa [List.getElem?_eq_none_iff, length_encodeGrid, ← List.getElem?_eq_none_iff]
  | some w => rw [getElem?_encodeGrid h, List.getElem?_eq_none hp]

/-- Settles O50: a pixel with a bit is the old one with the bit embedded (`getElem?_encodeGrid_of_lt`), which
`getLsbD_embed` and `embed_getLsbD_zero` describe; a pixel past the bits is the old one (`getElem?_encodeGrid_of_ge`). -/
theorem embedChangesOnlyLowBit : Obligations.EmbedChangesOnlyLowBit := by
  refine fun src bits _ => ⟨length_encodeGrid src bits, fun p hp hs => ?_, fun p => getElem?_encodeGrid_of_ge⟩
  refine ⟨_, getElem?_encodeGrid_of_lt hp hs, ?_, fun n hn => ?_, fun hsame => ?_⟩
  · rw [getLsbD_embed, if_pos rfl]
  · rw [getLsbD_embed, if_neg (by omega)]
  · rw [← hsame, embed_getLsbD_zero]

/-! ### The command -/

/-- R164: ENCODE passes its checks where the grid and the bits are within capacity and the bits fit the grid. -/
theorem encodeCheck_eq_none_iff {s : State} :
    encodeCheck s = none ↔ s.gridSize ≤ s.cfg.pixMax ∧ s.blen.toNat ≤ s.cfg.bMax ∧ s.blen.toNat ≤ s.gridSize := by
  rw [encodeCheck]
  split_ifs <;> simp <;> omega

/-- Where the checks pass and the loop runs through, ENCODE completes with the loop's memory. -/
theorem exec_encode_next {s : State} {m : Memory} (hc : encodeCheck s = none)
    (hl : embedLoop s.gridSize s.blen.toNat s.mem = .ok m) :
    exec .encode s = .next (endWith .none { s with mem := m }) := by
  rw [exec, execEncode, hc, command_none_next, hl, ok_bind, complete_eq]

/-- Settles O30: the checks pass (`encodeCheck_eq_none_iff`), and the loop runs through, leaves `encodeGrid px b` in DST
and writes nowhere else (`embedLoop_total`). -/
theorem encodeEmbedsBits : Obligations.EncodeEmbedsBits := by
  intro s px b hv hgrid hpix hblen hbits hfit hsrc hbbuf
  replace hgrid : px.length = s.gridSize := hgrid
  obtain ⟨-, -, -, hpixMax, -, -⟩ := valid_bounds hv
  obtain ⟨m, hloop, hdst, hframe⟩ := embedLoop_total hsrc hbbuf (by omega)
  have hcheck : encodeCheck s = none := encodeCheck_eq_none_iff.2 (by omega)
  rw [hgrid, ← hblen] at hloop
  exact ⟨_, exec_encode_next hcheck hloop, rfl, hdst, hframe⟩

end Sys2Proof.Machine
end

section
/-! The PixelDecoder unit (44_pixel_decoder.md R180 to R190): the scan computes `decodeGrid`, and what DECODE leaves. -/

namespace Sys2Proof.Machine

/-! ### The scan and the grid function -/

/-- R185, R186: on a match `decodeGrid` is the bytes looked at without the last three, otherwise all of them. -/
theorem decodeGrid_eq_scannedBytes (px : List Word) :
    decodeGrid px = if (decodeGrid px).2 then
        ((scannedBytes (fromBits (lowBits px))).take ((scannedBytes (fromBits (lowBits px))).length - 3), true)
      else (scannedBytes (fromBits (lowBits px)), false) := by
  rcases h : decodeGrid px with ⟨q, _ | _⟩
  · obtain ⟨rfl, hu⟩ := decodeGrid_incomplete h
    simp [scannedBytes_incomplete hu]
  · simp [scannedBytes_found (decodeGrid_found h)]

/-- Settles O51: from its start the scan has read nothing and assembled nothing, so it runs through with the bytes looked
at (`scanLoop_total`), and those are what `decodeGrid` says (`decodeGrid_eq_scannedBytes`). -/
theorem scanComputesDecodeGrid : Obligations.ScanComputesDecodeGrid := by
  intro s px fuel hv hgrid hpix hsrc hfuel
  obtain ⟨-, -, -, hpixMax, -, -⟩ := valid_bounds hv
  have hstart : Scan.start.y * s.width.toNat + Scan.start.x = 0 := by simp [Scan.start]
  have hread : ∀ k, k < pixelsRead px → s.mem.pixelAt .src k = px[k]? := fun k hk => by
    have := pixelsRead_le px
    rw [hsrc k (by rw [List.length_take]; omega), List.getElem?_take_of_lt hk]
  obtain ⟨m, hloop, hobuf, -⟩ := scanLoop_total hgrid (by omega) fuel Scan.start s.mem (Scan.start_placed _ _)
    (hstart ▸ Scan.start_assembled _) (by omega) (fun k hk => absurd hk (Nat.not_lt_zero k)) hread rfl
  exact ⟨_, m, hloop, decodeGrid_eq_scannedBytes px, hobuf⟩

/-! ### The commands that scan -/

/-- What a command that scans does with the scan's result (R190; 45_composite.md R215). -/
def scanEnd (i : Instr) (s : State) (r : Bool × List Byte × Memory) : Except Fault State :=
  if i = .show_ then showEnd s r else .ok (decodeEnd s r)

/-- DECODE and SHOW are their check, the scan, and what follows it. -/
theorem exec_of_scanCheck {i : Instr} {s : State} {c : Option ErrCode} (h : scanCheck s i = some c) :
    exec i s = command c (fun s => runScan s >>= scanEnd i s) s := by
  cases i
  case decode => cases h; rfl
  case show_ => cases h; rfl
  all_goals cases h

theorem scanCheck_decode {s : State} (h : s.gridSize ≤ s.cfg.pixMax) : scanCheck s .decode = some none :=
  congrArg some (if_neg (by omega))

/-- Where its check passes and its scan runs through, DECODE ends as the scan's result says. -/
theorem exec_decode_next {s : State} {r : Bool × List Byte × Memory} (h : s.gridSize ≤ s.cfg.pixMax)
    (hr : runScan s = .ok r) : exec .decode s = .next (decodeEnd s r) := by
  rw [exec_of_scanCheck (scanCheck_decode h), command_none_next, hr, ok_bind]
  rfl

/-- Settles O31: the scan runs through and mirrors the bytes looked at (`runScan_total`), which are those found and the
terminator, or every whole byte of the grid, and DECODE ends with its result (`exec_decode_next`). -/
theorem decodeRecoversOrReports : Obligations.DecodeRecoversOrReports := by
  intro s px hv hsc hgrid hpix hsrc
  replace hgrid : px.length = s.gridSize := hgrid
  obtain ⟨-, -, -, hpixMax, -, -⟩ := valid_bounds hv
  obtain ⟨m, hscan, hobuf, hframe⟩ := runScan_total hsc hgrid (by omega) hsrc
  have hexec := exec_decode_next (by omega) hscan
  refine ⟨fun q hq => ?_, fun b hb => ?_⟩
  · rw [hq, scannedBytes_found (decodeGrid_found hq)] at hexec
    rw [scannedBytes_found (decodeGrid_found hq)] at hobuf hframe
    rw [List.length_append, length_terminator] at hframe
    refine ⟨_, hexec, ?_, hobuf, hframe⟩
    rw [decodeEnd, List.length_append, length_terminator, Nat.add_sub_cancel]
    rfl
  · obtain ⟨rfl, hu⟩ := decodeGrid_incomplete hb
    rw [hb, scannedBytes_incomplete hu] at hexec
    rw [scannedBytes_incomplete hu] at hobuf hframe
    exact ⟨by rw [length_fromBits, length_lowBits], _, hexec, rfl, hobuf, hframe⟩

end Sys2Proof.Machine
end

section
/-! Scan transitions before completion (44_pixel_decoder.md R188; 70_reset_and_hazards.md R291) change nothing of what
completion answers (log entry 5). -/

namespace Sys2Proof.Machine

/-- A scan is due while a command that scans is running and its checks pass. -/
theorem scanDue_command {s : State} (h : scanDue s = true) :
    ∃ w i, s.seq = .busy w ∧ decode w = .ok i ∧ scanCheck s i = some none := by
  obtain ⟨w, hq⟩ := scanDue_busy h
  simp only [scanDue, hq] at h
  split at h
  · next i hd => exact ⟨w, i, hq, hd, of_decide_eq_true h⟩
  · cases h

theorem engineTurn_legal {s : State} {w : Word} {i : Instr} (hq : s.seq = .busy w) (hd : decode w = .ok i) :
    engineTurn s = exec i s := by
  simp only [engineTurn, hq, hd]

/-- The state `s` as a scan transition leaves it: where the scan stands, what it has mirrored, and DSTATE. -/
def State.scanned (s : State) (sc : Option Scan) (m : Memory) (d : DState) : State :=
  { s with scan := sc, mem := m, status := { s.status with dstate := d } }

/-- The checks before a scan read only registers and parameters. -/
theorem scanCheck_scanned (s : State) (sc : Option Scan) (m : Memory) (d : DState) (i : Instr) :
    scanCheck (s.scanned sc m d) i = scanCheck s i := by
  cases i <;> rfl

/-- The end of a scan writes the scan state, the memory and DSTATE whatever they were. -/
theorem scanEnd_scanned (s : State) (sc : Option Scan) (m : Memory) (d : DState) (i : Instr) :
    scanEnd i (s.scanned sc m d) = scanEnd i s := by
  funext ⟨b, bytes, m'⟩
  cases b <;> rfl

/-- Completion answers alike before and after a scan transition that leaves the scan with the same result. -/
theorem engineTurn_scanned {s : State} (hdue : scanDue s = true) (sc : Option Scan) (m : Memory) (d : DState)
    (hr : runScan (s.scanned sc m d) = runScan s) : engineTurn (s.scanned sc m d) = engineTurn s := by
  obtain ⟨w, i, hq, hd, hc⟩ := scanDue_command hdue
  have hc' : scanCheck (s.scanned sc m d) i = some none := (scanCheck_scanned s sc m d i).trans hc
  have hq' : (s.scanned sc m d).seq = .busy w := hq
  rw [engineTurn_legal hq hd, engineTurn_legal hq' hd, exec_of_scanCheck hc, exec_of_scanCheck hc']
  simp only [command, hr, scanEnd_scanned]

/-- A scan transition stops only at the fault of its scan step. -/
theorem scanTurn_fault {s : State} {f : Fault} (h : scanTurn s = .fault f) :
    scanDue s = true ∧ ∃ sc, s.scan = some sc ∧ scanStep s.width.toNat s.gridSize sc s.mem = .error f := by
  unfold scanTurn at h
  split at h
  case isFalse => cases h
  case isTrue hdue =>
  split at h
  · cases h
  · next sc hsc =>
    split at h
    · cases h
    · cases h
    · next hstep => cases h; exact ⟨hdue, sc, hsc, hstep⟩

/-- Completion stops where the next scan step does. -/
theorem engineTurn_scanStep_error {s : State} {sc : Scan} {f : Fault} (hdue : scanDue s = true) (hsc : s.scan = some sc)
    (h : scanStep s.width.toNat s.gridSize sc s.mem = .error f) : engineTurn s = .fault f := by
  obtain ⟨w, i, hq, hd, hc⟩ := scanDue_command hdue
  have hr : runScan s = .error f := by rw [runScan, hsc, Option.getD_some, scanLoop, h, error_bind]
  rw [engineTurn_legal hq hd, exec_of_scanCheck hc, command_fault, hr, error_bind]
  exact ⟨rfl, rfl⟩

/-- Settles O59: a scan transition changes nothing, starts the scan completion would start, or takes a step of it
(`scanTurn_cases`, `runScan_scanTurn`), and completion sees none of the three (`engineTurn_scanned`); where it stops, the
scan of completion begins with the same step (`engineTurn_scanStep_error`). -/
theorem scanTurnsInvisible : Obligations.ScanTurnsInvisible := by
  refine fun s hi => ⟨fun t ht => ?_, fun f hf => ?_⟩
  · obtain ⟨-, -, -, hs⟩ := hi
    rcases scanTurn_cases ht with rfl | ⟨hdue, hsc, rfl⟩ | ⟨sc, sc1, m, hdue, hsc, hstep, rfl⟩
    · rfl
    · exact engineTurn_scanned hdue (some Scan.start) s.mem .scanning (by rw [runScan, runScan, hsc]; rfl)
    · exact engineTurn_scanned hdue (some sc1) m s.status.dstate (runScan_scanTurn hs hsc hstep)
  · obtain ⟨hdue, sc, hsc, hstep⟩ := scanTurn_fault hf
    exact engineTurn_scanStep_error hdue hsc hstep

end Sys2Proof.Machine
end

section
/-! A scan never reads the pixels after the terminator (44_pixel_decoder.md R187): DECODE and SHOW answer alike whatever
stands there. -/

namespace Sys2Proof.Machine

/-! ### Two runs side by side -/

section

variable {α β : Type}

/-- Two computations end in results that `r` relates, or stop at the same fault. -/
def Matches (r : α → α → Prop) : Except Fault α → Except Fault α → Prop
  | .ok a, .ok b => r a b
  | .error f, .error g => f = g
  | _, _ => False

theorem Matches.bind {r : α → α → Prop} {q : β → β → Prop} {x y : Except Fault α} {f g : α → Except Fault β}
    (h : Matches r x y) (hf : ∀ a b, r a b → Matches q (f a) (g b)) : Matches q (x >>= f) (y >>= g) := by
  cases x <;> cases y
  case ok.ok a b => exact hf a b h
  case error.error => exact h
  all_goals exact h.elim

/-- Both read the same. -/
theorem Matches.bind_same {q : β → β → Prop} (x : Except Fault α) {f g : α → Except Fault β}
    (hf : ∀ a, Matches q (f a) (g a)) : Matches q (x >>= f) (x >>= g) := by
  cases x
  case ok a => exact hf a
  case error f => exact rfl

/-- Loops whose rounds match do. -/
theorem Matches.loop {r : α → α → Prop} {f : Nat → α → Except Fault α} {a b : α} (n : Nat) (h0 : r a b)
    (hf : ∀ i a b, i < n → r a b → Matches r (f i a) (f i b)) : Matches r (loop n f a) (loop n f b) := by
  induction n with
  | zero => exact h0
  | succ n ih =>
    rw [loop_succ, loop_succ]
    exact (ih fun i a b hi => hf i a b (by omega)).bind fun a b => hf n a b (Nat.lt_succ_self n)

end

/-- `t'` is `t` but for the memory, which differs inside `R` only. -/
def SameButMem (R : Nat → Prop) (t t' : State) : Prop := t' = { t with mem := t'.mem } ∧ t.mem.SameExcept R t'.mem

/-- A command whose body matches from two memories answers alike from them. -/
theorem command_matches {R : Nat → Prop} {c : Option ErrCode} {b : State → Except Fault State} {s : State} {m' : Memory}
    (hm : s.mem.SameExcept R m') (hb : Matches (SameButMem R) (b s) (b { s with mem := m' })) :
    (∀ t, command c b s = .next t → ∃ t', command c b { s with mem := m' } = .next t' ∧ SameButMem R t t')
      ∧ ∀ f, command c b s = .fault f → command c b { s with mem := m' } = .fault f := by
  cases c with
  | some e =>
    refine ⟨fun t ht => ?_, fun f hf => ?_⟩
    · cases ht
      exact ⟨_, rfl, rfl, hm⟩
    · cases hf
  | none =>
    simp only [command]
    cases hx : b s <;> cases hy : b { s with mem := m' } <;> rw [hx, hy] at hb
    case ok.ok t t' =>
      refine ⟨fun u hu => ?_, fun f hf => ?_⟩
      · cases hu
        exact ⟨t', rfl, hb⟩
      · cases hf
    case error.error f g =>
      obtain rfl : f = g := hb
      exact ⟨fun t ht => (by cases ht), fun f' hf => hf⟩
    all_goals exact hb.elim

/-! ### Memories that differ in SRC only -/

section

variable {R : Nat → Prop} {m m' : Memory}

theorem Memory.SameExcept.after_writeByte (h : m.SameExcept R m') (sp : Space) (i : Nat) (v : Byte) :
    (writeByte sp i v m).SameExcept R (writeByte sp i v m') := fun a ha => by
  rw [writeByte, writeByte, Memory.read_write, Memory.read_write, h a ha]

/-- Deciphering reads OBUF and KBUF, which lie below SRC. -/
theorem decipherLoop_matches (hR : ∀ a, R a → Space.base .src ≤ a) {n : Nat} (hn : n ≤ 2 ^ 24) (k : Nat)
    (h : m.SameExcept R m') :
    Matches (Memory.SameExcept R) (decipherLoop n k m) (decipherLoop n k m') := by
  have below : ∀ sp : Space, sp.base ≤ Space.base .obuf → ∀ j < n, ¬ R (sp.base + j) := fun sp hsp j hj hr => by
    have := hR _ hr
    simp only [Space.base] at this hsp
    omega
  refine Matches.loop n h fun i m1 m2 hi h12 => ?_
  have hkey : i % k < n := lt_of_le_of_lt (Nat.mod_le i k) hi
  have hobuf : readByte .obuf i m2 = readByte .obuf i m1 := by
    rw [readByte, readByte, h12.byteAt (below .obuf (by decide) i hi)]
  have hkbuf : readByte .kbuf (i % k) m2 = readByte .kbuf (i % k) m1 := by
    rw [readByte, readByte, h12.byteAt (below .kbuf (by decide) _ hkey)]
  rw [hobuf, hkbuf]
  exact .bind_same _ fun p => .bind_same _ fun q => h12.after_writeByte .obuf i (p ^^^ q)

/-- What follows the scan ends alike from memories that differ in SRC only. -/
theorem scanEnd_matches (hR : ∀ a, R a → Space.base .src ≤ a) (i : Instr) (s : State) (u : Memory) (b : Bool)
    {bytes : List Byte} (hl : bytes.length ≤ 2 ^ 24) (h : m.SameExcept R m') :
    Matches (SameButMem R) (scanEnd i s (b, bytes, m)) (scanEnd i { s with mem := u } (b, bytes, m')) := by
  unfold scanEnd
  split
  · cases b with
    | false => exact ⟨rfl, h⟩
    | true => exact (decipherLoop_matches hR (by omega) s.klen.toNat h).bind fun m1 m2 h12 => ⟨rfl, h12⟩
  · cases b <;> exact ⟨rfl, h⟩

/-- Writes of the same bytes into memories that differ inside `R` leave them so. -/
theorem Memory.SameExcept.of_holdsBytes {u u' : Memory} {d : List Byte} (h : m.SameExcept R m')
    (hu : m.SameExcept (Space.Elems .obuf 0 d.length) u) (hu' : m'.SameExcept (Space.Elems .obuf 0 d.length) u')
    (hd : u.HoldsBytes .obuf d) (hd' : u'.HoldsBytes .obuf d) : u.SameExcept R u' := fun a ha => by
  by_cases hel : Space.Elems .obuf 0 d.length a
  · obtain ⟨i, rfl⟩ := Nat.exists_eq_add_of_le hel.1
    have hi : i < d.length := by
      have := hel.2
      simp only [Space.base, Space.stride] at this
      omega
    exact (hd' i hi).trans (hd i hi).symm
  · rw [hu' a hel, h a ha, hu a hel]

/-- The scan of a grid whose pixels up to the terminator are written, from two memories that differ past them, ends with
the same bytes and leaves memories that differ only there (R187). -/
theorem runScan_pixels_unread {s : State} {px : List Word} {n : Nat} (hsc : s.scan = none)
    (hgrid : px.length = s.gridSize) (hb : px.length ≤ 2 ^ 24) (hsrc : s.mem.HoldsPixels .src (px.take (pixelsRead px)))
    (h : s.mem.SameExcept (Space.Elems .src (pixelsRead px) n) m') :
    ∃ b bytes m1 m2, runScan s = .ok (b, bytes, m1) ∧ runScan { s with mem := m' } = .ok (b, bytes, m2)
      ∧ bytes.length ≤ 2 ^ 24 ∧ m1.SameExcept (Space.Elems .src (pixelsRead px) n) m2 := by
  have hsrc' : m'.HoldsPixels .src (px.take (pixelsRead px)) := h.holdsPixels hsrc fun i l hi _ hel => by
    have := hel.1
    rw [List.length_take] at hi
    simp only [Space.base, Space.stride] at this
    omega
  obtain ⟨m1, hscan, hobuf, hframe⟩ := runScan_total hsc hgrid hb hsrc
  obtain ⟨m2, hscan', hobuf', hframe'⟩ := runScan_total (s := { s with mem := m' }) hsc hgrid hb hsrc'
  have hlen := (scannedBytes_eq_take (fromBits (lowBits px))).2
  rw [length_fromBits, length_lowBits] at hlen
  exact ⟨_, _, m1, m2, hscan, hscan', by omega, h.of_holdsBytes hframe hframe' hobuf hobuf'⟩

end

/-- Settles O52: the two scans end alike (`runScan_pixels_unread`), and so does what follows them (`scanEnd_matches`) and
the whole command (`command_matches`). -/
theorem pixelsAfterTerminatorUnread : Obligations.PixelsAfterTerminatorUnread := by
  intro s m' px i hi hv hsc hgrid hpix hsrc hm
  obtain ⟨-, -, -, hpixMax, -, -⟩ := valid_bounds hv
  obtain ⟨b, bytes, m1, m2, hscan, hscan', hlen, h12⟩ := runScan_pixels_unread hsc hgrid (by omega) hsrc hm
  obtain ⟨c, hc, hc'⟩ : ∃ c, scanCheck s i = some c ∧ scanCheck { s with mem := m' } i = some c := by
    simp only [List.mem_cons, List.not_mem_nil, or_false] at hi
    rcases hi with rfl | rfl <;> exact ⟨_, rfl, rfl⟩
  have hR : ∀ a, Space.Elems .src (pixelsRead px) s.cfg.pixMax a → Space.base .src ≤ a :=
    fun a ha => le_trans (Nat.le_add_right _ _) ha.1
  rw [exec_of_scanCheck hc, exec_of_scanCheck hc']
  refine command_matches hm ?_
  simp only [hscan, hscan', ok_bind]
  exact scanEnd_matches hR i s m' b hlen h12

end Sys2Proof.Machine
end

section
/-! HIDE (45_composite.md R210, R211, R218): what it leaves, when it succeeds, and that it is XOR, FRAME, PACK and
ENCODE but for CAPACITY. -/

namespace Sys2Proof.Machine

/-! ### The command -/

/-- R210, R218 (4): HIDE passes its checks where the payload, the key and the grid are within capacity, there is a key,
and the framed payload fits the grid. -/
theorem hideCheck_eq_none_iff {s : State} :
    hideCheck s = none ↔ s.plen.toNat ≤ s.cfg.pMax ∧ s.klen.toNat ≤ s.cfg.kMax ∧ s.gridSize ≤ s.cfg.pixMax
      ∧ 1 ≤ s.klen.toNat ∧ 8 * (s.plen.toNat + 3) ≤ s.gridSize := by
  rw [hideCheck]
  split_ifs <;> simp <;> omega

/-- Where its checks pass, HIDE completes exactly when its three loops run through, with the last one's memory and the
lengths of the framed payload. -/
theorem exec_hide_next_iff {s t : State} (hc : hideCheck s = none) :
    exec .hide s = .next t ↔ ∃ m1, xorLoop s.plen.toNat s.klen.toNat s.mem = .ok m1
      ∧ ∃ m2, packLoop (s.plen.toNat + 3) (writeTerminator s.plen.toNat m1) = .ok m2
      ∧ ∃ m3, embedLoop s.gridSize (8 * (s.plen.toNat + 3)) m2 = .ok m3
      ∧ t = endWith .none { s with
        mem := m3, wlen := lengthWord (s.plen.toNat + 3), blen := lengthWord (8 * (s.plen.toNat + 3)) } := by
  simp only [exec, execHide, hc, command_none_next, bind_eq_ok, complete_eq, Except.ok.injEq, eq_comm (a := t)]

/-! ### The loops -/

theorem Space.Elems.mono {sp : Space} {lo hi lo' hi' a : Nat} (hlo : lo' ≤ lo) (hhi : hi ≤ hi') (h : sp.Elems lo hi a) :
    sp.Elems lo' hi' a :=
  ⟨le_trans (Nat.add_le_add_left (Nat.mul_le_mul_left _ hlo) _) h.1,
    lt_of_lt_of_le h.2 (Nat.add_le_add_left (Nat.mul_le_mul_left _ hhi) _)⟩

/-- FRAME's writes after `d` in WBUF, and PACK's loop over the framed bytes. -/
theorem packFramed_total {m : Memory} {d : List Byte} (hd : m.HoldsBytes .wbuf d) (hn : d.length + 3 ≤ 2 ^ 24) :
    ∃ m', packLoop (d.length + 3) (writeTerminator d.length m) = .ok m' ∧ m'.HoldsBytes .wbuf (frame d)
      ∧ m'.HoldsBits (toBits (frame d))
      ∧ m.SameExcept (fun a => Space.Elems .wbuf 0 (d.length + 3) a
          ∨ Space.Elems .bbuf 0 (8 * (d.length + 3)) a) m' := by
  have hw := writeTerminator_holds hd
  have hfT := (writeTerminator_writes d.length m).same fun _ _ => Allowed.elems
  rw [← length_frame] at hn
  obtain ⟨m', hpack, hbits, hf⟩ := packLoop_total hw hn
  rw [length_frame] at hpack hf hn
  refine ⟨m', hpack, hf.holdsBytes hw fun i hi => ?_, hbits,
    (hfT.mono fun _ h => .inl (h.mono (Nat.zero_le _) le_rfl)).trans (hf.mono fun _ => .inr)⟩
  rw [length_frame] at hi
  simp only [Space.Elems, Space.base]
  omega

/-- The three loops of HIDE, where their operands are written, run through, and what the last one leaves. -/
theorem hideLoops_total {m : Memory} {p k : List Byte} (hk : 0 < k.length) {px : List Word}
    (hp : m.HoldsBytes .pbuf p) (hkey : m.HoldsBytes .kbuf (k.take p.length)) (hsrc : m.HoldsPixels .src px)
    (hn : p.length + 3 ≤ 2 ^ 21) (hkn : k.length ≤ 2 ^ 24) (hN : px.length ≤ 2 ^ 24) :
    ∃ m1 m2 m3, xorLoop p.length k.length m = .ok m1
      ∧ packLoop (p.length + 3) (writeTerminator p.length m1) = .ok m2
      ∧ embedLoop px.length (8 * (p.length + 3)) m2 = .ok m3
      ∧ m3.HoldsBytes .wbuf (frame (xorT p k hk)) ∧ m3.HoldsBits (toBits (frame (xorT p k hk)))
      ∧ m3.HoldsPixels .dst (encodeGrid px (toBits (frame (xorT p k hk))))
      ∧ m.SameExcept (fun a => Space.Elems .wbuf 0 (p.length + 3) a ∨ Space.Elems .bbuf 0 (8 * (p.length + 3)) a
          ∨ Space.Elems .dst 0 px.length a) m3 := by
  obtain ⟨m1, hxor, hw1, hf1⟩ := xorLoop_total hk hp hkey (by omega) hkn
  obtain ⟨m2, hpack, hw2, hb2, hf2⟩ := packFramed_total hw1 (by rw [length_xorT]; omega)
  rw [length_xorT] at hpack hf2
  have hsrc2 : m2.HoldsPixels .src px := fun i hi => by rw [hide_pixelAt_src hn hxor hpack, hsrc i hi]
  obtain ⟨m3, hembed, hd3, hf3⟩ := embedLoop_total hsrc2 hb2 hN
  rw [length_toBits, length_frame, length_xorT] at hembed
  refine ⟨m1, m2, m3, hxor, hpack, hembed, hf3.holdsBytes hw2 fun i hi => ?_, hf3.holdsBits hb2 fun i hi => ?_, hd3, ?_⟩
  · rw [length_frame, length_xorT] at hi
    simp only [Space.Elems, Space.base]
    omega
  · rw [length_toBits, length_frame, length_xorT] at hi
    simp only [Space.Elems, Space.base]
    omega
  · exact ((hf1.mono fun _ h => .inl (h.mono le_rfl (Nat.le_add_right _ 3))).trans
      (hf2.mono fun _ h => h.imp_right .inl)).trans (hf3.mono fun _ h => .inr (.inr h))

/-- Settles O34: the checks pass (`hideCheck_eq_none_iff`), the three loops run through and leave what the statement
says (`hideLoops_total`), and HIDE completes with that (`exec_hide_next_iff`). -/
theorem hideEmbedsCipheredPayload : Obligations.HideEmbedsCipheredPayload := by
  intro s p k hk px hv hplen hp hklen hkmax hgrid hpix hfit hpbuf hkbuf hsrc
  replace hgrid : px.length = s.gridSize := hgrid
  obtain ⟨hpMax, -, hkMax, hpixMax, -, -⟩ := valid_bounds hv
  have hcheck : hideCheck s = none := hideCheck_eq_none_iff.2 (by omega)
  obtain ⟨m1, m2, m3, hxor, hpack, hembed, hw, hb, hd, hframe⟩ :=
    hideLoops_total hk hpbuf hkbuf hsrc (by omega) (by omega) (by omega)
  rw [hgrid] at hembed
  rw [← hplen] at hxor hpack hembed
  rw [← hklen] at hxor
  exact ⟨_, (exec_hide_next_iff hcheck).2 ⟨m1, hxor, m2, hpack, m3, hembed, rfl⟩, by rw [hplen]; rfl, hw, hb, hd,
    hframe⟩

/-! ### When it succeeds -/

/-- The checks of a command report an error, not NONE. -/
theorem firstError_ne_none {s : State} {i : Instr} : firstError s i ≠ some .none := by
  unfold firstError
  repeat' split
  all_goals simp

/-- Settles O37: a HIDE that ends has raised its checks' error, which is not NONE, or has passed them and completed with
NONE (`exec_ends`); when it passes them is `hideCheck_eq_none_iff`. -/
theorem hideSucceedsIffItFits : Obligations.HideSucceedsIffItFits := by
  intro s t h
  refine Iff.trans ?_ hideCheck_eq_none_iff
  rw [check_hide]
  rcases exec_ends h with ⟨e, he, rfl⟩ | ⟨he, u, e, rfl, hu⟩
  · have hne : e ≠ .none := fun h => firstError_ne_none (h ▸ he)
    simp [he, hne]
  · simp [he, (hu.plain (by decide)).2]

/-! ### The sequence of components -/

/-- After XOR from `s`, whose loop left `m`. -/
def State.xored (s : State) (m : Memory) : State :=
  endWith .none { accept (encode .xor) s with mem := m, wlen := s.plen }

/-- After XOR and FRAME from `s`, where XOR's loop left `m`. -/
def State.framed (s : State) (m : Memory) : State :=
  endWith .none { accept (encode .frame) (s.xored m) with
    mem := writeTerminator s.plen.toNat m, wlen := lengthWord (s.plen.toNat + 3) }

/-- After XOR, FRAME and PACK from `s`, where XOR's loop left `m` and PACK's `m'`. -/
def State.packed (s : State) (m m' : Memory) : State :=
  endWith .none { accept (encode .pack) (s.framed m) with mem := m', blen := lengthWord (8 * (s.plen.toNat + 3)) }

variable {s t : State} {m m' : Memory}

theorem exec_xor_accepted_iff (hp : s.plen.toNat ≤ s.cfg.pMax) (hk : s.klen.toNat ≤ s.cfg.kMax)
    (h0 : 0 < s.klen.toNat) :
    exec .xor (accept (encode .xor) s) = .next t ↔
      ∃ m, xorLoop s.plen.toNat s.klen.toNat s.mem = .ok m ∧ t = s.xored m := by
  have hcheck : xorCheck (accept (encode .xor) s) = none := xorCheck_eq_none_iff.2 ⟨hp, hk, h0⟩
  simp only [exec, execXor, hcheck, command_none_next, bind_eq_ok, Except.ok.injEq, eq_comm (a := t)]
  simp [State.xored]

theorem exec_frame_xored (hp : s.plen.toNat ≤ s.cfg.pMax) (m : Memory) :
    exec .frame (accept (encode .frame) (s.xored m)) = .next (s.framed m) :=
  exec_frame_next (Nat.add_le_add_right hp 3)

theorem toNat_framed_wlen (hv : s.cfg.Valid) (hp : s.plen.toNat ≤ s.cfg.pMax) (m : Memory) :
    (s.framed m).wlen.toNat = s.plen.toNat + 3 := by
  obtain ⟨hpMax, -⟩ := valid_bounds hv
  exact toNat_lengthWord (by omega)

theorem exec_pack_framed_iff (hv : s.cfg.Valid) (hp : s.plen.toNat ≤ s.cfg.pMax) :
    exec .pack (accept (encode .pack) (s.framed m)) = .next t ↔
      ∃ m', packLoop (s.plen.toNat + 3) (writeTerminator s.plen.toNat m) = .ok m' ∧ t = s.packed m m' := by
  have hwlen := toNat_framed_wlen hv hp m
  have hcheck : packCheck (accept (encode .pack) (s.framed m)) = none :=
    if_neg (by rw [accept_wlen, hwlen]; exact Nat.not_lt.2 (Nat.add_le_add_right hp 3))
  simp only [exec, execPack, hcheck, command_none_next, bind_eq_ok, Except.ok.injEq, eq_comm (a := t), accept_wlen,
    hwlen]
  rfl

theorem toNat_packed_blen (hv : s.cfg.Valid) (hp : s.plen.toNat ≤ s.cfg.pMax) (m m' : Memory) :
    (s.packed m m').blen.toNat = 8 * (s.plen.toNat + 3) := by
  obtain ⟨hpMax, -⟩ := valid_bounds hv
  exact toNat_lengthWord (by omega)

theorem packed_blen_le (hv : s.cfg.Valid) (hp : s.plen.toNat ≤ s.cfg.pMax) (m m' : Memory) :
    (s.packed m m').blen.toNat ≤ s.cfg.bMax := by
  obtain ⟨-, -, -, -, -, hbMax⟩ := valid_bounds hv
  rw [toNat_packed_blen hv hp, hbMax]
  omega

/-- A loop of PACK that runs through leaves written the bytes it has packed. -/
theorem packLoop_keeps_wbuf {n j : Nat} (hn : n ≤ 2 ^ 24) (h : packLoop n m = .ok m') (hj : j < n) :
    m'.byteAt .wbuf j ≠ none := by
  rw [(packLoop_writes h).byteAt_before (.inl (by simp only [Space.base]; omega))]
  exact packLoop_reads hn h hj

/-- CAPACITY is the last of HIDE's causes: the earlier ones are absent (60_exceptions.md R252). -/
theorem hideCheck_capacity (h : hideCheck s = some .capacity) :
    s.plen.toNat ≤ s.cfg.pMax ∧ s.klen.toNat ≤ s.cfg.kMax ∧ s.gridSize ≤ s.cfg.pixMax ∧ 0 < s.klen.toNat
      ∧ s.gridSize < 8 * (s.plen.toNat + 3) := by
  unfold hideCheck at h
  split_ifs at h <;> cases h
  omega

theorem exec_hide_capacity (h : hideCheck s = some .capacity) : exec .hide s = .next (endWith .capacity s) := by
  rw [exec, execHide, command_next]
  exact .inl ⟨_, h, rfl⟩

theorem exec_encode_capacity (hpix : s.gridSize ≤ s.cfg.pixMax) (hb : s.blen.toNat ≤ s.cfg.bMax)
    (hover : s.gridSize < s.blen.toNat) : exec .encode s = .next (endWith .capacity s) := by
  have hcheck : encodeCheck s = some .capacity := by rw [encodeCheck, if_neg (by omega), if_pos hover]
  rw [exec, execEncode, command_next]
  exact .inl ⟨_, hcheck, rfl⟩

/-- Settles O53: without an error XOR, FRAME, PACK and ENCODE run HIDE's three loops on the same memories
(`exec_xor_accepted_iff`, `exec_frame_xored`, `exec_pack_framed_iff`); on CAPACITY the first three still do, and it is
ENCODE's own check that raises it (`exec_encode_capacity`). -/
theorem hideIsComponentSequence : Obligations.HideIsComponentSequence := by
  constructor
  · intro s t hv he h
    have hcheck := (check_hide s).trans he
    obtain ⟨hp, hk, hpix, h0, hfit⟩ := hideCheck_eq_none_iff.1 hcheck
    obtain ⟨m1, hxor, m2, hpack, m3, hembed, rfl⟩ := (exec_hide_next_iff hcheck).1 h
    have hblen := toNat_packed_blen hv hp m1 m2
    have hencode : encodeCheck (accept (encode .encode) (s.packed m1 m2)) = none :=
      encodeCheck_eq_none_iff.2 ⟨hpix, packed_blen_le hv hp m1 m2, hblen.trans_le hfit⟩
    exact ⟨_, _, _, _, (exec_xor_accepted_iff hp hk h0).2 ⟨m1, hxor, rfl⟩, exec_frame_xored hp m1,
      (exec_pack_framed_iff hv hp).2 ⟨m2, hpack, rfl⟩,
      exec_encode_next hencode (by rw [accept_blen, hblen]; exact hembed), rfl, rfl, rfl, rfl⟩
  · intro s t1 t2 t3 hv he h1 h2 h3
    have hcheck := (check_hide s).trans he
    obtain ⟨hp, hk, hpix, h0, hover⟩ := hideCheck_capacity hcheck
    obtain ⟨hpMax, -⟩ := valid_bounds hv
    obtain ⟨m1, hxor, rfl⟩ := (exec_xor_accepted_iff hp hk h0).1 h1
    rw [exec_frame_xored hp m1] at h2
    cases h2
    obtain ⟨m2, hpack, rfl⟩ := (exec_pack_framed_iff hv hp).1 h3
    exact ⟨⟨_, exec_hide_capacity hcheck, rfl⟩, rfl, rfl, rfl, fun j => packLoop_keeps_wbuf (by omega) hpack,
      packLoop_written hpack, _, exec_encode_capacity hpix (packed_blen_le hv hp m1 m2)
        (hover.trans_eq (toNat_packed_blen hv hp m1 m2).symm), rfl⟩

end Sys2Proof.Machine
end

section
/-! SHOW (45_composite.md R215): what it recovers, deciphers and reports. -/

namespace Sys2Proof.Machine

variable {m : Memory} {sp : Space}

/-! ### Beginnings of what a buffer holds -/

theorem Memory.HoldsBytes.left {d e : List Byte} (h : m.HoldsBytes sp (d ++ e)) : m.HoldsBytes sp d := fun i hi => by
  rw [h i (by rw [List.length_append]; omega), List.getElem?_append_left hi]

theorem Memory.HoldsBytes.take {d : List Byte} (h : m.HoldsBytes sp d) (n : Nat) : m.HoldsBytes sp (d.take n) :=
  (show m.HoldsBytes sp (d.take n ++ d.drop n) by rwa [List.take_append_drop]).left

theorem Memory.HoldsPixels.take {px : List Word} (h : m.HoldsPixels sp px) (n : Nat) : m.HoldsPixels sp (px.take n) :=
  fun i hi => by
    rw [List.length_take] at hi
    rw [h i (by omega), List.getElem?_take_of_lt (by omega)]

/-- Writing over a beginning of what a buffer holds leaves the rest. -/
theorem Memory.SameExcept.holdsBytes_append {m' : Memory} {d d' e : List Byte}
    (h : m.SameExcept (sp.Elems 0 d.length) m') (hsp : sp.stride = 1) (hde : m.HoldsBytes sp (d ++ e))
    (hd' : m'.HoldsBytes sp d') (hl : d'.length = d.length) :
    m'.HoldsBytes sp (d' ++ e) := fun i hi => by
  rw [List.length_append] at hi
  rcases Nat.lt_or_ge i d'.length with hlt | hge
  · rw [hd' i hlt, List.getElem?_append_left hlt]
  · rw [h.byteAt_of_elems (.inr (by rw [hsp]; omega)), hde i (by rw [List.length_append]; omega),
      List.getElem?_append_right hge, List.getElem?_append_right (by omega), hl]

/-! ### The command -/

theorem showCheck_eq_none_iff {s : State} :
    showCheck s = none ↔ s.klen.toNat ≤ s.cfg.kMax ∧ s.gridSize ≤ s.cfg.pixMax ∧ 0 < s.klen.toNat := by
  rw [showCheck]
  split_ifs <;> simp <;> omega

/-- Where its checks pass and its scan runs through, SHOW ends as the scan's result says. -/
theorem exec_show_next {s t : State} {r : Bool × List Byte × Memory} (hc : showCheck s = none) (hr : runScan s = .ok r)
    (h : showEnd s r = .ok t) : exec .show_ s = .next t := by
  rw [exec, execShow, hc, command_none_next, hr, ok_bind, h]

/-- A scan that has found `q` is deciphered in OBUF, and the terminator after it stays (R215). -/
theorem decipher_found {q k : List Byte} (hk : 0 < k.length) (ho : m.HoldsBytes .obuf (q ++ terminator))
    (hkey : m.HoldsBytes .kbuf (k.take q.length)) (hkn : k.length ≤ 2 ^ 24) :
    ∃ m', decipherLoop q.length k.length m = .ok m' ∧ m'.HoldsBytes .obuf (xorT q k hk ++ terminator)
      ∧ m.SameExcept (Space.Elems .obuf 0 q.length) m' := by
  obtain ⟨m', hloop, hq, hf⟩ := decipherLoop_total hk ho.left hkey hkn
  exact ⟨m', hloop, hf.holdsBytes_append rfl ho hq (length_xorT q k hk), hf⟩

/-- Settles O35: the scan runs through and mirrors the bytes looked at (`runScan_total`); those found are deciphered in
place (`decipher_found`), and without a terminator SHOW ends with the raw ones. -/
theorem showDeciphersOrReports : Obligations.ShowDeciphersOrReports := by
  intro s k hk px hv hsc hklen hkmax hgrid hpix hsrc
  replace hgrid : px.length = s.gridSize := hgrid
  obtain ⟨-, -, hkMax, hpixMax, -, -⟩ := valid_bounds hv
  have hcheck : showCheck s = none := showCheck_eq_none_iff.2 (by omega)
  obtain ⟨m, hscan, hobuf, hframe⟩ := runScan_total hsc hgrid (by omega) hsrc
  refine ⟨fun q hq hkbuf => ?_, fun b hb => ?_⟩
  · rw [hq, scannedBytes_found (decodeGrid_found hq)] at hscan
    rw [scannedBytes_found (decodeGrid_found hq)] at hobuf hframe
    rw [List.length_append, length_terminator] at hframe
    have hkey : m.HoldsBytes .kbuf (k.take q.length) := hframe.holdsBytes hkbuf fun i hi => by
      rw [List.length_take] at hi
      simp only [Space.Elems, Space.base]
      omega
    obtain ⟨m', hloop, ho, hf⟩ := decipher_found hk hobuf hkey (by omega)
    rw [← hklen] at hloop
    have hend : showEnd s (true, q ++ terminator, m) = .ok (scanMatched q.length m' s) := by
      rw [showEnd, List.length_append, length_terminator, Nat.add_sub_cancel, hloop, ok_bind]
    exact ⟨_, exec_show_next hcheck hscan hend, rfl, ho,
      hframe.trans (hf.mono fun _ h => h.mono le_rfl (Nat.le_add_right _ 3))⟩
  · obtain ⟨rfl, hu⟩ := decodeGrid_incomplete hb
    rw [hb, scannedBytes_incomplete hu] at hscan
    rw [scannedBytes_incomplete hu] at hobuf hframe
    exact ⟨_, exec_show_next hcheck hscan rfl, rfl, hobuf, hframe⟩

end Sys2Proof.Machine
end

section
/-! What the round trips of 45_composite.md R218 come to, as functions: a framed payload embedded in a grid is read back
up to its first terminator. -/

namespace Sys2Proof.Machine

/-- The low bits of an encoded grid are the bits, and the carrier's own after them (43_pixel_encoder.md R161). -/
theorem lowBits_encodeGrid {src : List Word} {bits : List Bool} (h : bits.length ≤ src.length) :
    lowBits (encodeGrid src bits) = bits ++ (lowBits src).drop bits.length := by
  refine List.ext_getElem? fun i => ?_
  rw [lowBits, List.getElem?_map]
  rcases Nat.lt_or_ge i bits.length with hi | hi
  · rw [getElem?_encodeGrid_of_lt hi (by omega), List.getElem?_append_left hi, List.getElem?_eq_getElem hi,
      Option.map_some, getLsbD_embed, if_pos rfl]
  · rw [getElem?_encodeGrid_of_ge hi, List.getElem?_append_right hi, List.getElem?_drop, lowBits, List.getElem?_map,
      Nat.add_sub_cancel' hi]

/-- R218 (2), as functions: the first terminator of the framed bytes decides (`unframe_frame`), whatever the rest of the
grid holds. -/
theorem decodeGrid_encodeGrid_frame {d : List Byte} {px : List Word} (h : 8 * (d.length + 3) ≤ px.length) :
    decodeGrid (encodeGrid px (toBits (frame d))) = (d.take (terminatorIndex d), true) := by
  obtain ⟨h0, hfirst⟩ := terminatorIndex_spec d
  have hlen : (toBits (frame d)).length = 8 * (d.length + 3) := by rw [length_toBits, length_frame]
  have hbytes : fromBits (lowBits (encodeGrid px (toBits (frame d))))
      = frame d ++ fromBits ((lowBits px).drop (toBits (frame d)).length) := by
    rw [lowBits_encodeGrid (by omega), fromBits_append_of_dvd _ hlen, fromBits_toBits]
  rw [decodeGrid_eq, hbytes, unframe_append _ (unframe_frame (h0.imp_left And.right) hfirst)]

theorem xorT_take (d k : List Byte) (hk : 0 < k.length) (n : Nat) : xorT (d.take n) k hk = (xorT d k hk).take n := by
  refine List.ext_getElem (by simp) fun i h1 h2 => ?_
  rw [getElem_xorT, List.getElem_take, List.getElem_take, getElem_xorT]

/-- R102: deciphering a beginning of the ciphertext gives that beginning of the payload. -/
theorem xorT_take_xorT (d k : List Byte) (hk : 0 < k.length) (n : Nat) :
    xorT ((xorT d k hk).take n) k hk = d.take n := by
  rw [xorT_take, xorTransformSelfInverse]

end Sys2Proof.Machine
end

section
/-! RUN of a command between two points at which the host holds an idle engine (30_encoding.md R89): what each command
of the round trips of 45_composite.md R218 leaves. -/

namespace Sys2Proof.Machine

/-! ### Between two RUNs -/

/-- The engine is idle, with the parameters `c`, a grid of `N` pixels within capacity, and `inputs` still to come; the
parameters are valid and the register window lies inside the host's address space (log entry 11). -/
structure AtRest (c : Config) (N : Nat) (inputs : List Input) (s : State) : Prop where
  valid : c.Valid
  window : c.platformBase.toNat + 0x1000 ≤ 2 ^ 32
  cfg : s.cfg = c
  idle : s.seq = .idle
  grid : s.gridSize = N
  fits : N ≤ c.pixMax
  inputs : s.inputs = inputs

/-- After `steps` steps from `s` the engine is at rest again with `rest` to come, the host has just read STATUS, and `Q`
holds. -/
def RunsTo (c : Config) (N steps : Nat) (rest : List Input) (s : State) (Q : State → Prop) : Prop :=
  ∃ t, Sys2Proof.core.run steps s = .next t ∧ AtRest c N rest t ∧ t.reply = .data32 t.statusWord ∧ Q t

variable {c : Config} {N n : Nat} {rest : List Input} {s : State}

theorem RunsTo.trans {j k : Nat} {mid : List Input} {P Q : State → Prop} (h : RunsTo c N j mid s P)
    (h' : ∀ t, AtRest c N mid t → P t → RunsTo c N k rest t Q) : RunsTo c N (j + k) rest s Q := by
  obtain ⟨t, hrun, hrest, -, hP⟩ := h
  obtain ⟨u, hrun', hu⟩ := h' t hrest hP
  exact ⟨u, (run_add k hrun).trans hrun', hu⟩

/-- RUN goes from rest to rest, with whatever the command leaves (`run_command`): no command writes WIDTH, HEIGHT or the
parameters (`exec_keeps_registers`). -/
theorem AtRest.run {i : Instr} {Q : State → Prop} (h : AtRest c N (asmRun c n i ++ rest) s)
    (hQ : ∀ t inp r, Q t → Q { t with inputs := inp, reply := r })
    (hexec : ∀ inp r, ∃ t, exec i { accept (encode i) s with inputs := inp, reply := r } = .next t ∧ Q t) :
    RunsTo c N (n + 3) rest s Q := by
  obtain ⟨hv, hw, rfl, hq, rfl, hfit, hi⟩ := h
  obtain ⟨t, ⟨hseq, hgrid, ht⟩, hcfg, hrun⟩ := run_command (Q := fun t => t.seq = .idle ∧ t.gridSize = s.gridSize ∧ Q t)
    hw hq hi fun inp r => by
      obtain ⟨t, ht, hQt⟩ := hexec inp r
      have hf := (exec_keeps_registers ht).frame
      have hgrid : t.gridSize = s.gridSize := (congrArg State.gridSize hf :)
      exact ⟨t, ht, (congrArg State.inputs hf :), (congrArg State.cfg hf :), (statusFrame _ t i ht).1, hgrid, hQt⟩
  exact ⟨_, hrun, ⟨hv, hw, hcfg, hseq, hgrid, hfit, rfl⟩, rfl, hQ _ _ _ ht⟩

/-- Elements of a buffer below SRC are no bytes of its pixels. -/
theorem Memory.SameExcept.holdsPixels_src {sp : Space} {lo hi : Nat} {m m' : Memory} {px : List Word}
    (h : m.SameExcept (sp.Elems lo hi) m') (hsp : sp.base + sp.stride * hi ≤ Space.base .src)
    (hpx : m.HoldsPixels .src px) : m'.HoldsPixels .src px :=
  h.holdsPixels hpx fun i l _ _ hr => by
    have := hr.2
    omega

/-! ### The commands of the two round trips -/

variable {p d k : List Byte} {px : List Word}

theorem exec_move_next {m : Memory} (hmax : s.plen.toNat ≤ s.cfg.pMax) (hl : moveLoop s.plen.toNat s.mem = .ok m) :
    exec .move s = .next (endWith .none { s with mem := m, wlen := s.plen }) := by
  have hcheck : moveCheck s = none := if_neg (by omega)
  rw [exec, execMove, hcheck, command_none_next, hl, ok_bind, lengthWord_toNat, complete_eq]

theorem exec_copy_next {m : Memory} (hmax : s.gridSize ≤ s.cfg.pixMax) (hl : copyLoop s.gridSize s.mem = .ok m) :
    exec .copy s = .next (endWith .none { s with mem := m }) := by
  have hcheck : copyCheck s = none := if_neg (by omega)
  rw [exec, execCopy, hcheck, command_none_next, hl, ok_bind, complete_eq]

/-- RUN MOVE (46_control.md R233). -/
theorem AtRest.run_move (h : AtRest c N (asmRun c n .move ++ rest) s) (hplen : s.plen.toNat = p.length)
    (hp : p.length ≤ c.pMax) (hpbuf : s.mem.HoldsBytes .pbuf p) (hsrc : s.mem.HoldsPixels .src px) :
    RunsTo c N (n + 3) rest s fun t =>
      t.wlen.toNat = p.length ∧ t.mem.HoldsBytes .wbuf p ∧ t.mem.HoldsPixels .src px := by
  obtain ⟨hpMax, -⟩ := valid_bounds h.valid
  obtain rfl := h.cfg
  obtain ⟨m, hloop, hw, hf⟩ := moveLoop_total hpbuf (by omega)
  rw [← hplen] at hloop hp
  exact h.run (fun _ _ _ h => h) fun inp r => ⟨_, exec_move_next hp hloop, hplen, hw,
    hf.holdsPixels_src (by simp only [Space.base, Space.stride]; omega) hsrc⟩

/-- RUN FRAME (41_frame_codec.md R125). -/
theorem AtRest.run_frame (h : AtRest c N (asmRun c n .frame ++ rest) s) (hwlen : s.wlen.toNat = d.length)
    (hd : (frame d).length ≤ c.wMax) (hwbuf : s.mem.HoldsBytes .wbuf d) (hsrc : s.mem.HoldsPixels .src px) :
    RunsTo c N (n + 3) rest s fun t =>
      t.wlen.toNat = (frame d).length ∧ t.mem.HoldsBytes .wbuf (frame d) ∧ t.mem.HoldsPixels .src px := by
  obtain ⟨hpMax, -, -, -, hwMax, -⟩ := valid_bounds h.valid
  obtain rfl := h.cfg
  rw [length_frame] at hd ⊢
  refine h.run (fun _ _ _ h => h) fun inp r => ?_
  obtain ⟨⟨t, ht, hend, -, -, -, hf⟩, hw⟩ := frameAppendsTerminator
    { accept (encode .frame) s with inputs := inp, reply := r } d h.valid hwlen hd
  have hlen : t.wlen = BitVec.ofNat 32 (d.length + 3) := (congrArg State.wlen hend :)
  exact ⟨t, ht, by rw [hlen]; exact toNat_lengthWord (by omega), hw t ht hwbuf,
    hf.holdsPixels_src (by simp only [Space.base, Space.stride]; omega) hsrc⟩

/-- RUN PACK (42_bit_packer.md R145). -/
theorem AtRest.run_pack (h : AtRest c N (asmRun c n .pack ++ rest) s) (hwlen : s.wlen.toNat = d.length)
    (hd : d.length ≤ c.wMax) (hwbuf : s.mem.HoldsBytes .wbuf d) (hsrc : s.mem.HoldsPixels .src px) :
    RunsTo c N (n + 3) rest s fun t =>
      t.blen.toNat = (toBits d).length ∧ t.mem.HoldsBits (toBits d) ∧ t.mem.HoldsPixels .src px := by
  obtain ⟨hpMax, -, -, -, hwMax, -⟩ := valid_bounds h.valid
  obtain rfl := h.cfg
  refine h.run (fun _ _ _ h => h) fun inp r => ?_
  obtain ⟨t, ht, hend, hb, hf⟩ := packSerialisesBits
    { accept (encode .pack) s with inputs := inp, reply := r } d h.valid hwlen hd hwbuf
  have hlen : t.blen = BitVec.ofNat 32 (8 * d.length) := (congrArg State.blen hend :)
  exact ⟨t, ht, by rw [hlen, length_toBits]; exact toNat_lengthWord (by omega), hb,
    hf.holdsPixels_src (by simp only [Space.base, Space.stride]; omega) hsrc⟩

/-- RUN ENCODE (43_pixel_encoder.md R165). -/
theorem AtRest.run_encode {b : List Bool} (h : AtRest c N (asmRun c n .encode ++ rest) s) (hpx : px.length = N)
    (hblen : s.blen.toNat = b.length) (hb : b.length ≤ c.bMax) (hfit : b.length ≤ N) (hbits : s.mem.HoldsBits b)
    (hsrc : s.mem.HoldsPixels .src px) :
    RunsTo c N (n + 3) rest s fun t => t.mem.HoldsPixels .dst (encodeGrid px b) := by
  obtain rfl := h.cfg
  refine h.run (fun _ _ _ h => h) fun inp r => ?_
  obtain ⟨t, ht, -, hdst, -⟩ := encodeEmbedsBits
    { accept (encode .encode) s with inputs := inp, reply := r } px b h.valid (hpx.trans h.grid.symm)
    (hpx.trans_le h.fits) hblen hb (hfit.trans_eq hpx.symm) hsrc hbits
  exact ⟨t, ht, hdst⟩

/-- RUN COPY (46_control.md R236). -/
theorem AtRest.run_copy (h : AtRest c N (asmRun c n .copy ++ rest) s) (hpx : px.length = N)
    (hdst : s.mem.HoldsPixels .dst px) :
    RunsTo c N (n + 3) rest s fun t =>
      t.mem.HoldsPixels .src px ∧ t.klen = s.klen ∧ s.mem.SameExcept (Space.Elems .src 0 N) t.mem := by
  obtain rfl := h.cfg
  obtain ⟨m, hloop, hsrc, hf⟩ := copyLoop_total hdst
  rw [hpx] at hf
  rw [hpx, ← h.grid] at hloop
  exact h.run (fun _ _ _ h => h) fun inp r => ⟨_, exec_copy_next (h.grid.trans_le h.fits) hloop, hsrc, rfl, hf⟩

/-- RUN DECODE where the grid holds a terminator (44_pixel_decoder.md R190). -/
theorem AtRest.run_decode {q : List Byte} (h : AtRest c N (asmRun c n .decode ++ rest) s) (hpx : px.length = N)
    (hsrc : s.mem.HoldsPixels .src px) (hq : decodeGrid px = (q, true)) :
    RunsTo c N (n + 3) rest s fun t =>
      t.status.found = true ∧ t.status.err = .none ∧ t.olen = lengthWord q.length ∧ t.mem.HoldsBytes .obuf q := by
  obtain rfl := h.cfg
  refine h.run (fun _ _ _ h => h) fun inp r => ?_
  obtain ⟨t, ht, hend, hobuf, -⟩ := (decodeRecoversOrReports
    { accept (encode .decode) s with inputs := inp, reply := r } px h.valid rfl (hpx.trans h.grid.symm)
    (hpx.trans_le h.fits) (hsrc.take _)).1 q hq
  exact ⟨t, ht, (congrArg (·.status.found) hend :), (congrArg (·.status.err) hend :), (congrArg State.olen hend :),
    hobuf.left⟩

/-- RUN HIDE (45_composite.md R210). -/
theorem AtRest.run_hide (h : AtRest c N (asmRun c n .hide ++ rest) s) (hk : 0 < k.length) (hpx : px.length = N)
    (hplen : s.plen.toNat = p.length) (hp : p.length ≤ c.pMax) (hklen : s.klen.toNat = k.length)
    (hkmax : k.length ≤ c.kMax) (hfit : 8 * (p.length + 3) ≤ N) (hpbuf : s.mem.HoldsBytes .pbuf p)
    (hkbuf : s.mem.HoldsBytes .kbuf (k.take p.length)) (hsrc : s.mem.HoldsPixels .src px) :
    RunsTo c N (n + 3) rest s fun t =>
      t.mem.HoldsPixels .dst (encodeGrid px (toBits (frame (xorT p k hk)))) ∧ t.klen.toNat = k.length
        ∧ t.mem.HoldsBytes .kbuf (k.take p.length) := by
  obtain ⟨hpMax, -, hkMax, -, -, -⟩ := valid_bounds h.valid
  obtain rfl := h.cfg
  refine h.run (fun _ _ _ h => h) fun inp r => ?_
  obtain ⟨t, ht, hend, -, -, hdst, hf⟩ := hideEmbedsCipheredPayload
    { accept (encode .hide) s with inputs := inp, reply := r } p k hk px h.valid hplen hp hklen hkmax
    (hpx.trans h.grid.symm) (hpx.trans_le h.fits) (hfit.trans_eq hpx.symm) hpbuf hkbuf hsrc
  have hklen' : t.klen = s.klen := (congrArg State.klen hend :)
  refine ⟨t, ht, hdst, hklen' ▸ hklen, hf.holdsBytes hkbuf fun i hi => ?_⟩
  rw [List.length_take] at hi
  simp only [Space.Elems, Space.base]
  omega

/-- RUN SHOW where the grid holds a terminator (45_composite.md R215). -/
theorem AtRest.run_show {q : List Byte} (h : AtRest c N (asmRun c n .show_ ++ rest) s) (hk : 0 < k.length)
    (hpx : px.length = N) (hklen : s.klen.toNat = k.length) (hkmax : k.length ≤ c.kMax)
    (hkbuf : s.mem.HoldsBytes .kbuf (k.take q.length)) (hsrc : s.mem.HoldsPixels .src px)
    (hq : decodeGrid px = (q, true)) :
    RunsTo c N (n + 3) rest s fun t =>
      t.status.found = true ∧ t.status.err = .none ∧ t.olen = lengthWord q.length
        ∧ t.mem.HoldsBytes .obuf (xorT q k hk) := by
  obtain rfl := h.cfg
  refine h.run (fun _ _ _ h => h) fun inp r => ?_
  obtain ⟨t, ht, hend, hobuf, -⟩ := (showDeciphersOrReports
    { accept (encode .show_) s with inputs := inp, reply := r } k hk px h.valid rfl hklen hkmax (hpx.trans h.grid.symm)
    (hpx.trans_le h.fits) (hsrc.take _)).1 q hq hkbuf
  exact ⟨t, ht, (congrArg (·.status.found) hend :), (congrArg (·.status.err) hend :), (congrArg State.olen hend :),
    hobuf.left⟩

end Sys2Proof.Machine
end

section
/-! The two round trips of 45_composite.md R218 as host programs (30_encoding.md R89). -/

namespace Sys2Proof.Machine

/-- The bytes before the first terminator are as many as its index, which a length register holds. -/
theorem toNat_lengthWord_terminatorIndex {d : List Byte} (h : d.length < 2 ^ 32) :
    (lengthWord (d.take (terminatorIndex d)).length).toNat = terminatorIndex d := by
  have hle := terminatorIndex_le d
  rw [List.length_take, Nat.min_eq_left hle, toNat_lengthWord (by omega)]

/-- Settles O54: HIDE leaves the ciphertext's frame in the grid of DST (`AtRest.run_hide`), COPY moves that grid to SRC
and keeps the key (`AtRest.run_copy`), and SHOW finds the ciphertext before its first terminator there
(`decodeGrid_encodeGrid_frame`) and deciphers it (`AtRest.run_show`, `xorT_take_xorT`). -/
theorem keyedRoundTrip : Obligations.KeyedRoundTrip := by
  intro s p k hk px n1 n2 n3 rest hv hw hq hplen hp hklen hkmax hgrid hpix hfit hpbuf hkbuf hsrc hi
  obtain ⟨hpMax, -, hkMax, -⟩ := valid_bounds hv
  have h0 : AtRest s.cfg px.length
      (asmRun s.cfg n1 .hide ++ (asmRun s.cfg n2 .copy ++ (asmRun s.cfg n3 .show_ ++ rest))) s :=
    ⟨hv, hw, rfl, hq, hgrid.symm, hpix, by rw [hi, List.append_assoc, List.append_assoc]⟩
  have hgrid' := length_encodeGrid px (toBits (frame (xorT p k hk)))
  have hread := decodeGrid_encodeGrid_frame (d := xorT p k hk) (px := px) (by rwa [length_xorT])
  obtain ⟨t, hrun, ht, hreply, hfound, herr, holen, hobuf⟩ :=
    (h0.run_hide hk rfl hplen hp hklen hkmax hfit hpbuf hkbuf hsrc).trans fun t1 h1 ⟨hdst, hklen1, hkbuf1⟩ =>
      (h1.run_copy hgrid' hdst).trans fun t2 h2 ⟨hsrc2, hklen2, hf⟩ => by
        have hkbuf2 : t2.mem.HoldsBytes .kbuf (k.take p.length) := hf.holdsBytes hkbuf1 fun i hi => by
          rw [List.length_take] at hi
          simp only [Space.Elems, Space.base]
          omega
        refine h2.run_show hk hgrid' (hklen2 ▸ hklen1) hkmax ?_ hsrc2 hread
        have hle : ((xorT p k hk).take (terminatorIndex (xorT p k hk))).length ≤ p.length := by
          rw [List.length_take, length_xorT]
          exact Nat.min_le_right _ _
        have := hkbuf2.take ((xorT p k hk).take (terminatorIndex (xorT p k hk))).length
        rwa [List.take_take, Nat.min_eq_left hle] at this
  rw [xorT_take_xorT] at hobuf
  refine ⟨t, ?_, ht.inputs, ht.idle, hfound, herr, ?_, hobuf, hreply⟩
  · rw [← hrun]
    congr 1
    omega
  · rw [holen, toNat_lengthWord_terminatorIndex (by rw [length_xorT]; omega)]

/-- HIDEPLAIN leaves the frame of the payload itself in the grid of DST (30_encoding.md R89). -/
theorem AtRest.run_hideplain {c : Config} {N n1 n2 n3 n4 : Nat} {rest : List Input} {s : State} {p : List Byte}
    {px : List Word} (h : AtRest c N (asmHideplain c n1 n2 n3 n4 ++ rest) s) (hpx : px.length = N)
    (hplen : s.plen.toNat = p.length) (hp : p.length ≤ c.pMax) (hfit : 8 * (p.length + 3) ≤ N)
    (hpbuf : s.mem.HoldsBytes .pbuf p) (hsrc : s.mem.HoldsPixels .src px) :
    RunsTo c N (n1 + 3 + (n2 + 3 + (n3 + 3 + (n4 + 3)))) rest s fun t =>
      t.mem.HoldsPixels .dst (encodeGrid px (toBits (frame p))) := by
  obtain ⟨-, -, -, -, hwMax, hbMax⟩ := valid_bounds h.valid
  have hframe : (frame p).length ≤ c.wMax := by rw [length_frame]; omega
  simp only [asmHideplain, List.append_assoc] at h
  exact (h.run_move hplen hp hpbuf hsrc).trans fun t1 h1 ⟨hwlen1, hw1, hsrc1⟩ =>
    (h1.run_frame hwlen1 hframe hw1 hsrc1).trans fun t2 h2 ⟨hwlen2, hw2, hsrc2⟩ =>
      (h2.run_pack hwlen2 hframe hw2 hsrc2).trans fun t3 h3 ⟨hblen3, hb3, hsrc3⟩ =>
        h3.run_encode hpx hblen3 (by rw [length_toBits, length_frame]; omega)
          (by rw [length_toBits, length_frame]; exact hfit) hb3 hsrc3

/-- Settles O55: HIDEPLAIN leaves the payload's frame in the grid of DST (`AtRest.run_hideplain`), COPY moves that grid
to SRC (`AtRest.run_copy`), and DECODE finds the payload before its first terminator there
(`decodeGrid_encodeGrid_frame`). -/
theorem unkeyedRoundTrip : Obligations.UnkeyedRoundTrip := by
  intro s p px n1 n2 n3 n4 n5 n6 rest hv hw hq hplen hp hgrid hpix hfit hpbuf hsrc hi
  obtain ⟨hpMax, -⟩ := valid_bounds hv
  have h0 : AtRest s.cfg px.length
      (asmHideplain s.cfg n1 n2 n3 n4 ++ (asmRun s.cfg n5 .copy ++ (asmRun s.cfg n6 .decode ++ rest))) s :=
    ⟨hv, hw, rfl, hq, hgrid.symm, hpix, by rw [hi, List.append_assoc, List.append_assoc]⟩
  have hgrid' := length_encodeGrid px (toBits (frame p))
  obtain ⟨t, hrun, ht, hreply, hfound, herr, holen, hobuf⟩ :=
    (h0.run_hideplain rfl hplen hp hfit hpbuf hsrc).trans fun t1 h1 hdst =>
      (h1.run_copy hgrid' hdst).trans fun t2 h2 ⟨hsrc2, _, _⟩ =>
        h2.run_decode hgrid' hsrc2 (decodeGrid_encodeGrid_frame hfit)
  refine ⟨t, ?_, ht.inputs, ht.idle, hfound, herr, ?_, hobuf, hreply⟩
  · rw [← hrun]
    congr 1
    omega
  · rw [holen, toNat_lengthWord_terminatorIndex (by omega)]

end Sys2Proof.Machine
end

section
/-! The control commands (46_control.md R230 to R236): what NOP, MOVE and COPY leave. -/

namespace Sys2Proof.Machine

/-- R230: NOP has no check, and its body only completes. -/
theorem exec_nop_next (s : State) : exec .nop s = .next (endWith .none s) := by
  rw [exec, execNop, command_none_next, complete_eq]

/-- Settles O24: NOP completes in every state (`exec_nop_next`). Issued to an idle engine, its word is accepted
(`step_issue`) and the engine's turn then completes it (`engineTurn_legal`). A word with any of bits 31:8 set does not
decode, as the words that do are legal (`exists_decode_ok_iff`). -/
theorem nopClearsStatus : Obligations.NopClearsStatus := by
  refine ⟨fun s => ⟨_, exec_nop_next s, rfl⟩, fun s addr rest hq ht hi => ?_, fun w _ hr => ?_⟩
  · have hturn := (engineTurn_legal (s := { accept (encode .nop) s with inputs := rest, reply := .written }) rfl
      (decode_encode .nop)).trans (exec_nop_next _)
    rw [run_next 1 (step_issue hq ht hi), run_next 0 ((step_engine rfl).trans hturn), run_zero]
    cases s
    cases hq
    rfl
  · cases hd : decode w with
    | ok i => exact absurd (exists_decode_ok_iff.1 ⟨i, hd⟩).1 hr
    | error e => exact ⟨e, rfl⟩

/-- Settles O32: the loop runs through, leaves `p` in WBUF and writes nowhere else (`moveLoop_total`), and MOVE
completes with it (`exec_move_next`). -/
theorem moveCopiesPayload : Obligations.MoveCopiesPayload := by
  intro s p hv hplen hp hpbuf
  obtain ⟨hpMax, -⟩ := valid_bounds hv
  obtain ⟨m, hloop, hw, hframe⟩ := moveLoop_total hpbuf (by omega)
  rw [← hplen] at hloop hp
  exact ⟨_, exec_move_next hp hloop, rfl, hw, hframe⟩

/-- Settles O33: the loop runs through, leaves `px` in SRC and writes nowhere else (`copyLoop_total`), and COPY
completes with it (`exec_copy_next`). -/
theorem copyMovesGrid : Obligations.CopyMovesGrid := by
  intro s px _ hgrid hpix hdst
  replace hgrid : px.length = s.gridSize := hgrid
  obtain ⟨m, hloop, hsrc, hframe⟩ := copyLoop_total hdst
  rw [hgrid] at hloop hpix
  exact ⟨_, exec_copy_next hpix hloop, rfl, hsrc, hframe⟩

end Sys2Proof.Machine
end

section
/-! How a command ends (60_exceptions.md R251, R252, R257 to R259, R262; 70_reset_and_hazards.md R290): with the first
error of its checks, by completing, or at an unwritten element of a buffer it reads. -/

namespace Sys2Proof.Machine

variable {s : State} {w : Word} {i : Instr} {e : ErrCode}

/-- A command whose check, one of R252's table, fails ends with that error before its body begins (R259). -/
theorem command_raises {c : Option ErrCode} {body : State → Except Fault State} (hc : c = firstError s i)
    (he : firstError s i = some e) : ∃ t, command c body s = .next t ∧ EndedWith e s t := by
  rw [hc, he]
  exact ⟨endWith e s, rfl, rfl⟩

/-- Every command's check is R252's first error, so a command that has one ends with it. -/
theorem exec_raises (he : firstError s i = some e) : ∃ t, exec i s = .next t ∧ EndedWith e s t := by
  cases i <;> simp only [exec]
  case nop => exact command_raises rfl he
  case xor => exact command_raises (check_xor s) he
  case frame => exact command_raises (check_frame s) he
  case unframe => exact command_raises (check_unframe s) he
  case pack => exact command_raises (check_pack s) he
  case unpack => exact command_raises (check_unpack s) he
  case encode => exact command_raises (check_encode s) he
  case decode => exact command_raises (check_decode s) he
  case move => exact command_raises (check_move s) he
  case copy => exact command_raises (check_copy s) he
  case hide =>
    simp only [execHide]
    exact command_raises (check_hide s) he
  case show_ => exact command_raises (check_show s) he

/-- Settles O36: each clause says which error of R252's order comes first, and the command ends with that one
(`exec_raises`). -/
theorem errorsAbortWithFirstCause : Obligations.ErrorsAbortWithFirstCause := by
  refine fun s i => ⟨fun hl => ?_, fun hl hk => ?_, fun hl hk ha => ?_, fun hl hk ha hc => ?_⟩
  · exact exec_raises (by simp [firstError, hl])
  · exact exec_raises (by simp [firstError, hl, hk])
  · exact exec_raises (by simp [firstError, hl, hk, ha])
  · exact exec_raises (by simp [firstError, hl, hk, ha, hc])

/-- Settles O38: what a fault of a command names is `exec_fault`'s, and no command is refused (`exec_not_refused`). -/
theorem faultsNameUnwrittenElements : Obligations.FaultsNameUnwrittenElements :=
  fun s i hv hs => ⟨fun _ hf => (exec_fault hv hs hf).2, exec_not_refused i s⟩

/-- A word that does not decode ends with ILLEGAL (30_encoding.md R85). -/
theorem engineTurn_undecoded {d : DecodeError} (hq : s.seq = .busy w) (hd : decode w = .error d) :
    engineTurn s = .next (endWith .illegal s) := by
  simp only [engineTurn, hq, hd, raise_eq]

/-- A state in which a command has ended reads BUSY = 0 and DONE = 1. -/
theorem statusWord_of_ended {t : State} (hq : t.seq = .idle) (hd : t.status.done = true) :
    t.statusWord.getLsbD 0 = false ∧ t.statusWord.getLsbD 1 = true :=
  ⟨(statusWord_busy t).trans ((isBusy_false_iff t).2 hq), (statusWord_done t).trans hd⟩

/-- Settles O60: an illegal word ends (`engineTurn_undecoded`); a command's turn is `exec` (`engineTurn_legal`), which
answers a state it has ended in (`statusFrame`) or stops at an unwritten element it reads (`exec_fault`). -/
theorem runningCommandCompletes : Obligations.RunningCommandCompletes := by
  rintro s w ⟨hv, -, -, hs⟩ hq
  cases hd : decode w with
  | error e => exact .inl ⟨_, engineTurn_undecoded hq hd, statusWord_of_ended rfl rfl⟩
  | ok i =>
    rw [engineTurn_legal hq hd]
    rcases exec_next_or_fault i s with ⟨t, ht⟩ | ⟨f, hf⟩
    · obtain ⟨hidle, -, hdone, -⟩ := statusFrame s t i ht
      exact .inl ⟨t, ht, statusWord_of_ended hidle hdone⟩
    · obtain ⟨-, sp, j, rfl, hmiss⟩ := exec_fault hv hs hf
      exact .inr ⟨i, sp, j, rfl, hf, hmiss⟩

end Sys2Proof.Machine
end

section
/-! What one step does (60_exceptions.md R255, R256, R270; 70_reset_and_hazards.md R283, R284, R291 to R293): the next
input, the engine's turn, acceptance of a CMD write and one dropped. -/

namespace Sys2Proof.Machine

variable {s : State} {w addr v : Word}

/-- With no input left a step is the engine's turn (log entry 13). -/
theorem step_no_input (hi : s.inputs = []) : step s = engineTurn s := by
  simp only [step, hi]

theorem step_input {e : Input} {rest : List Input} (hi : s.inputs = e :: rest) :
    step s = onInput e { s with inputs := rest } := by
  simp only [step, hi]

/-- Settles O7: a step does what the next input does (`step_input`); RST gives the reset state by definition. -/
theorem stepTakesNextInput : Obligations.StepTakesNextInput :=
  fun _ _ => ⟨fun _ hi => step_input hi, fun hi => step_input hi, fun hi => step_input hi, fun hi => step_input hi⟩

/-- Settles O5: either way the step is the engine's turn (`step_no_input`, `step_engine`), which runs the word that
decodes (`engineTurn_legal`). -/
theorem stepRunsDecodedInstruction : Obligations.StepRunsDecodedInstruction :=
  fun s _ _ hq hd => ⟨fun hi => (step_no_input hi).trans (engineTurn_legal hq hd),
    fun rest hi => (step_engine hi).trans (engineTurn_legal (s := { s with inputs := rest }) hq hd)⟩

/-! ### An idle engine -/

theorem engineTurn_idle (hq : s.seq = .idle) : engineTurn s = .next s := by
  simp only [engineTurn, hq]

theorem scanDue_idle (hq : s.seq = .idle) : scanDue s = false := by
  simp only [scanDue, hq]

/-- Settles O8: an idle engine's turn does nothing (`engineTurn_idle`), a scan turn neither as no scan is due
(`scanDue_idle`), and a step with no input left is the engine's turn (`step_no_input`). -/
theorem idleEngineWaits : Obligations.IdleEngineWaits :=
  fun _ hq => ⟨engineTurn_idle hq, by rw [scanTurn, scanDue_idle hq]; rfl,
    fun hi => (step_no_input hi).trans (engineTurn_idle hq)⟩

/-! ### CMD writes -/

/-- A CMD write while busy is dropped and sets OVR (R256). -/
theorem hostAccess_cmd_busy (hq : s.seq = .busy w) (ht : hostTarget s.cfg addr = .register 0x00) :
    hostAccess (.write .w32 addr v) s
      = .next { s with status := { s.status with ovr := true }, reply := .written } := by
  have hb : s.seq ≠ .idle := by rw [hq]; exact Sequencer.noConfusion
  rw [hostAccess_busy hb, accessBusy, if_pos ⟨rfl, ht⟩]

/-- A CMD write while idle is accepted (R255). -/
theorem hostAccess_cmd_idle (hq : s.seq = .idle) (ht : hostTarget s.cfg addr = .register 0x00) :
    hostAccess (.write .w32 addr v) s = .next { accept v s with reply := .written } :=
  hostAccess_writeRegister hq ht rfl

/-- Settles O9: the write is accepted (`step_issue`); the engine's turn then runs a word that decodes
(`engineTurn_legal`) and ends any other (`engineTurn_undecoded`), and a CMD write before it is dropped
(`hostAccess_cmd_busy`). -/
theorem commandAcceptance : Obligations.CommandAcceptance :=
  fun _ _ _ _ hq ht hi => ⟨_, step_issue hq ht hi, rfl, statusWord_busy _, fun _ hd => engineTurn_legal rfl hd,
    fun _ hd => ⟨_, engineTurn_undecoded rfl hd, rfl⟩, fun _ => ⟨_, hostAccess_cmd_busy rfl ht, rfl⟩⟩

/-- Settles O10: the step is the CMD write (`step_input`), which is dropped (`hostAccess_cmd_busy`); a CMD write to the
engine once it is idle is accepted (`hostAccess_cmd_idle`), and STATUS as accepted has OVR 0. -/
theorem commandWriteWhileBusyDropped : Obligations.CommandWriteWhileBusyDropped :=
  fun s _ _ _ rest hq ht hi =>
    ⟨_, (step_input hi).trans (hostAccess_cmd_busy (s := { s with inputs := rest }) hq ht), rfl,
      fun _ hidle hcfg _ => ⟨_, hostAccess_cmd_idle hidle (hcfg ▸ ht), rfl⟩⟩

/-! ### A scan begins -/

/-- The first scan turn of a scan that is due starts it (44_pixel_decoder.md R182). -/
theorem scanTurn_start (hdue : scanDue s = true) (hsc : s.scan = none) :
    scanTurn s = .next (s.scanned (some Scan.start) s.mem .scanning) := by
  rw [scanTurn, if_pos hdue, hsc]
  rfl

/-- Settles O11: STATUS shows DSTATE (`statusWord_dstate`) before and after the scan's start (`scanTurn_start`). -/
theorem scanningIsVisible : Obligations.ScanningIsVisible :=
  fun s hdue hsc hd => ⟨by rw [statusWord_dstate, hd]; rfl, _, scanTurn_start hdue hsc, statusWord_dstate _⟩

end Sys2Proof.Machine
end

section
/-! What reset leaves (70_reset_and_hazards.md R280, R281; 10_state.md R28, R33). -/

namespace Sys2Proof.Machine

/-- In the empty memory no element of any buffer is written. -/
theorem not_written_nil (sp : Space) (j : Nat) : ¬ Memory.Written [] sp j := by
  have hread : ∀ a, Memory.read [] a = none := fun _ => rfl
  cases sp <;> simp [Memory.Written, Memory.bitAt, Memory.byteAt, Memory.pixelAt, Memory.laneAt, hread]

/-- STATUS reads 0 after reset (R280). -/
theorem statusWord_resetWith (c : Config) (inp : List Input) : (State.resetWith c inp).statusWord = 0 :=
  calc (State.resetWith c inp).statusWord
    _ = State.reset.statusWord := rfl
    _ = 0 := by decide

/-- Settles O56: the registers, STATUS and the sequencer are those `State.resetWith` lists, and its memory is empty
(`not_written_nil`); STATUS reads 0 (`statusWord_resetWith`); `State.reset` is the case of `defaultConfig`. -/
theorem resetState : Obligations.ResetState := by
  intro s h
  obtain ⟨c, inp, rfl⟩ : ∃ c inp, s = State.resetWith c inp := h.elim (fun hr => ⟨defaultConfig, [], hr⟩) id
  exact ⟨rfl, rfl, rfl, rfl, rfl, rfl, rfl, statusWord_resetWith c inp, rfl, rfl, not_written_nil⟩

end Sys2Proof.Machine
end
